-- ==== Sys2Proof/Word.lean ====
section
/-!
DEFINITION. The words of the command interface and the numbers of the machine.
Everything a test could show wrong about reading or computing with them stands in Decode.lean and in Machine/.
-/

namespace Sys2Proof

/-- A header word or an integer operand slot: `HDR_W = INT_W = 32` bits (`00_scope.md` R4, `30_encoding.md` R80). -/
abbrev Word := BitVec 32

/-- The values of the numeric domain `NUM` of samples, gains, amplitudes, frequencies, seconds, phases, hops and offsets
(`00_scope.md` R4, R5), each named by a rational number. `NUM` is a parameter: its OPERATIONS are the record `Numerics`,
an argument of every rule that computes, and in the reference, exact arithmetic, a value is the rational that names it.
In a finite format it is the number represented; a value that is no number has any other rational for its name. DESIGN
CHOICE (log 1). -/
abbrev NUM := Rat

/-- The parameter `NUM` of `00_scope.md` R4, chosen by name so that it is plain data: which domain of numbers, with its
operations, the machine computes in. -/
inductive NumDomain where
  /-- R4's reference: exact arithmetic. -/
  | exact
  /-- The domain of an implementation, whose operations are free values (`Config.numAdd` and its fellows; log 1). -/
  | implementation (id : Nat)
deriving DecidableEq, Repr

/-- One slot of the command channel (`30_encoding.md` R80, R84): a 32-bit word (a header or an operand of kind I) or
one `NUM` value (an operand of kind R; its bit layout `NUM_ENC` is open and no rule looks inside it, R84). -/
inductive Slot where
  /-- A 32-bit word: a header or an integer operand. -/
  | word (w : Word)
  /-- One `NUM` operand. -/
  | num (v : NUM)
deriving DecidableEq, Repr

/-- The waveforms, in the order of their codes 0, 1, 2 (`30_encoding.md` R87, `10_state.md` R27). -/
inductive Waveform where
  /-- Code 0. -/
  | sine
  /-- Code 1. -/
  | saw
  /-- Code 2. -/
  | pulse
deriving DecidableEq, Repr

/-- The filter types, in the order of their codes 0, 1 (`30_encoding.md` R87, `10_state.md` R30). -/
inductive FilterType where
  /-- Code 0: feedforward. -/
  | fir
  /-- Code 1: feedback. -/
  | iir
deriving DecidableEq, Repr

end Sys2Proof
end

