-- ==== Sys2Proof/Config.lean ====
section
/-!
DEFINITION. What an implementation fixes: the parameters of `00_scope.md` R4 as plain data, and the values the spec
leaves free, each an opaque constant of which nothing can be proved.
-/

namespace Sys2Proof

/-- The parameters of `00_scope.md` R4. `none` for a capacity is R4's "unbounded". They are fixed for the machine:
`Machine.State` carries them and no step changes them (log 2). `HDR_W` and `INT_W` are fixed at 32 (Word.lean);
no rule depends on `NUM_ENC` but the misframing of R261 (log 4). -/
structure Params where
  /-- `NUM`: the numeric domain with its operations (R5). -/
  num : NumDomain
  /-- `MAX_CH`: channels of IN, OUT, CF and VIB, 1 to 256. -/
  maxCh : Nat
  /-- `BLK_MAX`: frames per channel of IN and OUT, 1 to 65536. -/
  blkMax : Nat
  /-- `RB_MAX_N`: largest capacity of RB0, at least 1. -/
  rbMaxN : Option Nat
  /-- `LFO_MAX_L`: largest wavetable length of LFO0 and of VIB's LFO, at least 1. -/
  lfoMaxL : Option Nat
  /-- `CF_MAX_CAP`: largest delay capacity per channel of CF, at least 1. -/
  cfMaxCap : Option Nat
  /-- `VIB_MAX_N`: largest ring capacity per channel of VIB, at least 2. -/
  vibMaxN : Option Nat
  /-- `VIB_WAVEFORM`: the waveform of VIB's LFO (`43_vibrato.md` R172). -/
  vibWaveform : Waveform
  /-- `VIB_LFO_FREF`: the reference frequency of VIB's LFO in Hz (`43_vibrato.md` R172). -/
  vibLfoFref : NUM
deriving DecidableEq, Repr

/-- The numerics record of `00_scope.md` R5: the operations of one numeric domain. The rules take it as an argument
(R4, `92_eei_decisions.md` D1). `ofInt_zero` says that the name of the value 0 is 0. -/
structure Numerics where
  /-- `+` -/
  add : NUM → NUM → NUM
  /-- `-` -/
  sub : NUM → NUM → NUM
  /-- `*` -/
  mul : NUM → NUM → NUM
  /-- `/` -/
  div : NUM → NUM → NUM
  /-- `<` -/
  lt : NUM → NUM → Bool
  /-- `≤` -/
  le : NUM → NUM → Bool
  /-- `floor` (R6) -/
  floor : NUM → Int
  /-- `ceil` (R6) -/
  ceil : NUM → Int
  /-- An integer as a `Num`. -/
  ofInt : Int → NUM
  /-- `sinTurn(i, L)` (R9) -/
  sinTurn : Nat → Nat → NUM
  /-- Value 0 is named 0. -/
  ofInt_zero : ofInt 0 = 0

/-- The reference values of `00_scope.md` R4. DESIGN CHOICE for the open ones (log 2). -/
def Params.reference : Params :=
  { num := .exact, maxCh := 2, blkMax := 1024, rbMaxN := some 65536, lfoMaxL := some 65536, cfMaxCap := some 65536,
    vibMaxN := some 65536, vibWaveform := .sine, vibLfoFref := 1 }

/-- FREE VALUE (log 3): the model's `sin(2π·i/L)` at the points where that real number is irrational. `00_scope.md` R9
has a model treat it as "a configuration function of `(i, L)` alone"; `Machine.sinTurn` bounds it by 1. -/
opaque Config.sinFree (i L : Nat) : NUM

/-! FREE VALUES (log 1): the operations of numeric domain number `id` of an implementation. "A finite-precision
implementation replaces them by the operations of its `NUM` parameter; which results then differ is outside this spec"
(`00_scope.md` R5): nothing constrains them. -/

/-- `x + y` in domain `id`. -/
opaque Config.numAdd (id : Nat) (x y : NUM) : NUM
/-- `x - y` in domain `id`. -/
opaque Config.numSub (id : Nat) (x y : NUM) : NUM
/-- `x * y` in domain `id`. -/
opaque Config.numMul (id : Nat) (x y : NUM) : NUM
/-- `x / y` in domain `id`. -/
opaque Config.numDiv (id : Nat) (x y : NUM) : NUM
/-- `x < y` in domain `id`. -/
opaque Config.numLt (id : Nat) (x y : NUM) : Bool
/-- `x ≤ y` in domain `id`. -/
opaque Config.numLe (id : Nat) (x y : NUM) : Bool
/-- `floor(x)` in domain `id`. -/
opaque Config.numFloor (id : Nat) (x : NUM) : Int
/-- `ceil(x)` in domain `id`. -/
opaque Config.numCeil (id : Nat) (x : NUM) : Int
/-- The non-zero integer `n` in domain `id`. -/
opaque Config.numOfInt (id : Nat) (n : Int) : NUM
/-- `sinTurn(i, L)` in domain `id`. -/
opaque Config.numSinTurn (id i L : Nat) : NUM

/-- FREE VALUE (log 1): what a read of bin `i` of a wavetable of `L` elements gives when there is no such bin. Over exact
arithmetic `0 ≤ floor(phase) < L` (`41_lfo.md` R122); in an inexact domain a phase may be rounded out of the table. -/
opaque Config.outsideTable (i : Int) (L : Nat) : NUM

/-- FREE VALUE (log 4): the word that a `NUM` slot shows when its position makes it a header or an integer operand
(`70_reset_and_hazards.md` R261). It depends on the open `NUM_ENC`. -/
opaque Config.numAsWord (v : NUM) : Word

/-- FREE VALUE (log 4): the number that a word slot shows when its position makes it an operand of kind R
(`70_reset_and_hazards.md` R261). It depends on the open `NUM_ENC`. -/
opaque Config.wordAsNum (w : Word) : NUM

end Sys2Proof
end

