-- ==== Sys2Proof/Syntax.lean ====
section
/-!
DEFINITION. The commands of `30_encoding.md` R86: one constructor for each of the 37 header patterns, which are the
37 rows of `spec/opcode_table.json`, in its order.
-/

namespace Sys2Proof

/-- A command with its operands (`30_encoding.md` R81, R86). An operand of kind R is a `NUM`; an operand of kind I is
the signed integer its slot is read as (`00_scope.md` R10); the channel and the frame index of the IO commands are the
unsigned header fields `sel` and `idx` (R82). -/
inductive Instr where
  /-- `SYS.NOP`, `44_sys_io.md` R200. -/
  | sysNop
  /-- `RB.INIT`, `40_ringbuffer.md` R101. -/
  | rbInit (capacity : Int)
  /-- `RB.RESET`, R102. -/
  | rbReset
  /-- `RB.PUT`, R103. -/
  | rbPut (value : NUM)
  /-- `RB.GETPI`, R104. -/
  | rbGetpi
  /-- `RB.GET`, R105. -/
  | rbGet (offset : NUM)
  /-- `RB.GETWIDX`, R106. -/
  | rbGetwidx
  /-- `LFO.INIT.SINE`, `41_lfo.md` R123. -/
  | lfoInitSine (fref fs : NUM)
  /-- `LFO.INIT.SAW`, R123. -/
  | lfoInitSaw (fref fs : NUM)
  /-- `LFO.INIT.PULSE`, R123. -/
  | lfoInitPulse (fref fs : NUM)
  /-- `LFO.RESET.KEEP`, R124. -/
  | lfoResetKeep
  /-- `LFO.RESET.FREE`, R124. -/
  | lfoResetFree
  /-- `LFO.SETAMP`, R125. -/
  | lfoSetamp (amplitude : NUM)
  /-- `LFO.SETFREQ`, R126. -/
  | lfoSetfreq (hz : NUM)
  /-- `LFO.GETAMP`, R127. -/
  | lfoGetamp
  /-- `LFO.GETFREQ`, R128. -/
  | lfoGetfreq
  /-- `LFO.GETVALUE`, R129. -/
  | lfoGetvalue
  /-- `LFO.RESETPOS`, R130. -/
  | lfoResetpos
  /-- `CF.INIT.FIR`, `42_combfilter.md` R151. -/
  | cfInitFir (maxDelaySec fs : NUM) (numChannels : Int)
  /-- `CF.INIT.IIR`, R151. -/
  | cfInitIir (maxDelaySec fs : NUM) (numChannels : Int)
  /-- `CF.RESET`, R152. -/
  | cfReset
  /-- `CF.SETGAIN`, R153. -/
  | cfSetgain (gain : NUM)
  /-- `CF.SETDELAY`, R155. -/
  | cfSetdelay (seconds : NUM)
  /-- `CF.GETGAIN`, R154. -/
  | cfGetgain
  /-- `CF.GETDELAY`, R156. -/
  | cfGetdelay
  /-- `CF.PROCESS`, R157. -/
  | cfProcess (frameCount : Int)
  /-- `VIB.INIT`, `43_vibrato.md` R171. -/
  | vibInit (maxDelaySec fs : NUM) (numChannels : Int)
  /-- `VIB.RESET`, R173. -/
  | vibReset
  /-- `VIB.SETDELAY`, R174. -/
  | vibSetdelay (seconds : NUM)
  /-- `VIB.SETFREQ`, R175. -/
  | vibSetfreq (hz : NUM)
  /-- `VIB.SETBLOCK`, R176. -/
  | vibSetblock (blockSize : Int)
  /-- `VIB.GETDELAY`, R177. -/
  | vibGetdelay
  /-- `VIB.GETFREQ`, R178. -/
  | vibGetfreq
  /-- `VIB.GETBLOCK`, R179. -/
  | vibGetblock
  /-- `VIB.PROCESS`, R180. -/
  | vibProcess (frameCount : Int)
  /-- `IO.WRIN`, `44_sys_io.md` R202. -/
  | ioWrin (ch n : Nat) (value : NUM)
  /-- `IO.RDOUT`, R203. -/
  | ioRdout (ch n : Nat)
deriving DecidableEq, Repr

end Sys2Proof
end

