-- ==== Sys2Proof/WellFormed.lean ====
section
/-!
DEFINITION. Which terms of `Instr` an encoding exists for: integer operands fit their 32-bit slots, the channel and the
frame index fit their header fields. The ranges a COMMAND accepts (`MAX_CH`, `BLK_MAX`, …) are not checked here: they
decode and then fail their argument check (`30_encoding.md` R89).
-/

namespace Sys2Proof

/-- An operand of kind I is a 32-bit two's complement word read as a signed integer (`00_scope.md` R10). -/
def fitsInt32 (n : Int) : Bool := decide (-2147483648 ≤ n ∧ n ≤ 2147483647)

/-- The header fields `sel` (8 bits) and `idx` (16 bits) of an IO command (`30_encoding.md` R82). -/
def fitsChannelFrame (ch n : Nat) : Bool := decide (ch < 256 ∧ n < 65536)

/-- The check, per constructor. -/
def Instr.wellFormed : Instr → Bool
  | .sysNop => true
  | .rbInit capacity => fitsInt32 capacity
  | .rbReset => true
  | .rbPut _ => true
  | .rbGetpi => true
  | .rbGet _ => true
  | .rbGetwidx => true
  | .lfoInitSine _ _ => true
  | .lfoInitSaw _ _ => true
  | .lfoInitPulse _ _ => true
  | .lfoResetKeep => true
  | .lfoResetFree => true
  | .lfoSetamp _ => true
  | .lfoSetfreq _ => true
  | .lfoGetamp => true
  | .lfoGetfreq => true
  | .lfoGetvalue => true
  | .lfoResetpos => true
  | .cfInitFir _ _ numChannels => fitsInt32 numChannels
  | .cfInitIir _ _ numChannels => fitsInt32 numChannels
  | .cfReset => true
  | .cfSetgain _ => true
  | .cfSetdelay _ => true
  | .cfGetgain => true
  | .cfGetdelay => true
  | .cfProcess frameCount => fitsInt32 frameCount
  | .vibInit _ _ numChannels => fitsInt32 numChannels
  | .vibReset => true
  | .vibSetdelay _ => true
  | .vibSetfreq _ => true
  | .vibSetblock blockSize => fitsInt32 blockSize
  | .vibGetdelay => true
  | .vibGetfreq => true
  | .vibGetblock => true
  | .vibProcess frameCount => fitsInt32 frameCount
  | .ioWrin ch n _ => fitsChannelFrame ch n
  | .ioRdout ch n => fitsChannelFrame ch n

/-- `i` has an encoding. -/
abbrev WellFormed (i : Instr) : Prop := i.wellFormed = true

end Sys2Proof
end

