-- ==== Sys2Proof/Decode.lean ====
section
/-!
DEFINITION. Decoding a packet from the slots of the command channel (`30_encoding.md` R80 to R91), total on any list of
slots, and the encoder. The decoder is written from the full header words of R86 (and R91 for the two IO patterns), the
encoder from the fields of R82 with the codes of R83 and R87.
-/

namespace Sys2Proof

/-! ### Header fields (R82) -/

/-- Bits 31:28. -/
def hdrUnit (h : Word) : BitVec 4 := h.extractLsb' 28 4
/-- Bits 27:24. -/
def hdrOp (h : Word) : BitVec 4 := h.extractLsb' 24 4
/-- Bits 23:16: the channel of an IO command. -/
def hdrSel (h : Word) : BitVec 8 := h.extractLsb' 16 8
/-- Bits 15:0: the frame index of an IO command. -/
def hdrIdx (h : Word) : BitVec 16 := h.extractLsb' 0 16

/-- `header = unit << 28 | op << 24 | sel << 16 | idx` (R82). -/
def header (unit op : BitVec 4) (sel : BitVec 8) (idx : BitVec 16) : Word := unit ++ op ++ sel ++ idx

/-! ### Operand slots (R84) -/

/-- The two kinds of operand slot (R84). -/
inductive OperandKind where
  /-- Kind I: a 32-bit two's complement integer. -/
  | int
  /-- Kind R: one `NUM`. -/
  | num
deriving DecidableEq, Repr

/-- A slot read where a word is due. A `NUM` slot there (a host that misframed its packets, R261) is read as whatever
its position makes it: a free value (log 4). -/
def Slot.asWord : Slot → Word
  | .word w => w
  | .num v => Config.numAsWord v

/-- A slot read as an operand of kind I: `sext_32(slot)` (R84). -/
def Slot.asInt (s : Slot) : Int := s.asWord.toInt

/-- A slot read as an operand of kind R (R84). A word slot there gives a free value (R261, log 4). -/
def Slot.asNum : Slot → NUM
  | .num v => v
  | .word w => Config.wordAsNum w

/-- What a decoded header still needs: the command as a function of its operands, in slot order (R86). -/
inductive Form where
  /-- No slot. -/
  | none (i : Instr)
  /-- One slot of kind I. -/
  | int (k : Int → Instr)
  /-- One slot of kind R. -/
  | num (k : NUM → Instr)
  /-- Slots R, R. -/
  | numNum (k : NUM → NUM → Instr)
  /-- Slots R, R, I. -/
  | numNumInt (k : NUM → NUM → Int → Instr)

/-- The kinds of the slots that follow the header, in order (R86, R90). -/
def Form.kinds : Form → List OperandKind
  | .none _ => []
  | .int _ => [.int]
  | .num _ => [.num]
  | .numNum _ => [.num, .num]
  | .numNumInt _ => [.num, .num, .int]

/-- The command with its operands read from the slots, and the slots left over; `none` when a slot is missing (R81). -/
def Form.fill : Form → List Slot → Option (Instr × List Slot)
  | .none i, rest => some (i, rest)
  | .int k, a :: rest => some (k a.asInt, rest)
  | .num k, a :: rest => some (k a.asNum, rest)
  | .numNum k, a :: b :: rest => some (k a.asNum b.asNum, rest)
  | .numNumInt k, a :: b :: c :: rest => some (k a.asNum b.asNum c.asInt, rest)
  | _, _ => Option.none

/-! ### The header patterns (R86) -/

/-- The 35 patterns matched on all 32 bits, as `30_encoding.md` R86 lists them. -/
def headerTable : List (Word × Form) :=
  [(0x00000000#32, .none .sysNop),
   (0x10000000#32, .int .rbInit),
   (0x11000000#32, .none .rbReset),
   (0x12000000#32, .num .rbPut),
   (0x13000000#32, .none .rbGetpi),
   (0x14000000#32, .num .rbGet),
   (0x15000000#32, .none .rbGetwidx),
   (0x20000000#32, .numNum .lfoInitSine),
   (0x20010000#32, .numNum .lfoInitSaw),
   (0x20020000#32, .numNum .lfoInitPulse),
   (0x21000000#32, .none .lfoResetKeep),
   (0x21010000#32, .none .lfoResetFree),
   (0x22000000#32, .num .lfoSetamp),
   (0x22010000#32, .num .lfoSetfreq),
   (0x23000000#32, .none .lfoGetamp),
   (0x23010000#32, .none .lfoGetfreq),
   (0x24000000#32, .none .lfoGetvalue),
   (0x25000000#32, .none .lfoResetpos),
   (0x30000000#32, .numNumInt .cfInitFir),
   (0x30010000#32, .numNumInt .cfInitIir),
   (0x31000000#32, .none .cfReset),
   (0x32000000#32, .num .cfSetgain),
   (0x32010000#32, .num .cfSetdelay),
   (0x33000000#32, .none .cfGetgain),
   (0x33010000#32, .none .cfGetdelay),
   (0x34000000#32, .int .cfProcess),
   (0x40000000#32, .numNumInt .vibInit),
   (0x41000000#32, .none .vibReset),
   (0x42000000#32, .num .vibSetdelay),
   (0x42010000#32, .num .vibSetfreq),
   (0x42020000#32, .int .vibSetblock),
   (0x43000000#32, .none .vibGetdelay),
   (0x43010000#32, .none .vibGetfreq),
   (0x43020000#32, .none .vibGetblock),
   (0x44000000#32, .int .vibProcess)]

/-- Decoding a header word (R91): the two IO patterns on bits 31:24, else a full-word pattern, else reserved
(`none`, R88). -/
def decodeHeader (h : Word) : Option Form :=
  if h.extractLsb' 24 8 = 0x50#8 then some (.num (.ioWrin (hdrSel h).toNat (hdrIdx h).toNat))
  else if h.extractLsb' 24 8 = 0x51#8 then some (.none (.ioRdout (hdrSel h).toNat (hdrIdx h).toNat))
  else headerTable.lookup h

/-- What stands at the front of the command channel. -/
inductive Decoded where
  /-- A whole packet: the command, and the slots after it. -/
  | command (i : Instr) (rest : List Slot)
  /-- A header that spells no command (R88); it takes no operand slot. -/
  | reserved (h : Word) (rest : List Slot)
  /-- No header, or a packet whose operand slots have not all arrived (R81). -/
  | incomplete
deriving DecidableEq, Repr

/-- Decoding a packet (R80, R81, R91), total on any list of slots. -/
def decode : List Slot → Decoded
  | [] => .incomplete
  | h :: rest =>
    match decodeHeader h.asWord with
    | none => .reserved h.asWord rest
    | some f =>
      match f.fill rest with
      | none => .incomplete
      | some (i, rest') => .command i rest'

/-! ### The encoder -/

/-- An integer operand as its 32-bit two's complement slot (R84). -/
def intSlot (n : Int) : Slot := .word (BitVec.ofInt 32 n)

/-- A header with `idx = 0` as a slot. -/
def headSlot (unit op : BitVec 4) (sel : BitVec 8) : Slot := .word (header unit op sel 0)

/-- The slots of a command, in channel order, from the fields of R82 and the codes of R83 and R87. -/
def encode : Instr → List Slot
  | .sysNop => [headSlot 0 0 0]
  | .rbInit capacity => [headSlot 1 0 0, intSlot capacity]
  | .rbReset => [headSlot 1 1 0]
  | .rbPut value => [headSlot 1 2 0, .num value]
  | .rbGetpi => [headSlot 1 3 0]
  | .rbGet offset => [headSlot 1 4 0, .num offset]
  | .rbGetwidx => [headSlot 1 5 0]
  | .lfoInitSine fref fs => [headSlot 2 0 0, .num fref, .num fs]
  | .lfoInitSaw fref fs => [headSlot 2 0 1, .num fref, .num fs]
  | .lfoInitPulse fref fs => [headSlot 2 0 2, .num fref, .num fs]
  | .lfoResetKeep => [headSlot 2 1 0]
  | .lfoResetFree => [headSlot 2 1 1]
  | .lfoSetamp amplitude => [headSlot 2 2 0, .num amplitude]
  | .lfoSetfreq hz => [headSlot 2 2 1, .num hz]
  | .lfoGetamp => [headSlot 2 3 0]
  | .lfoGetfreq => [headSlot 2 3 1]
  | .lfoGetvalue => [headSlot 2 4 0]
  | .lfoResetpos => [headSlot 2 5 0]
  | .cfInitFir maxDelaySec fs numChannels => [headSlot 3 0 0, .num maxDelaySec, .num fs, intSlot numChannels]
  | .cfInitIir maxDelaySec fs numChannels => [headSlot 3 0 1, .num maxDelaySec, .num fs, intSlot numChannels]
  | .cfReset => [headSlot 3 1 0]
  | .cfSetgain gain => [headSlot 3 2 0, .num gain]
  | .cfSetdelay seconds => [headSlot 3 2 1, .num seconds]
  | .cfGetgain => [headSlot 3 3 0]
  | .cfGetdelay => [headSlot 3 3 1]
  | .cfProcess frameCount => [headSlot 3 4 0, intSlot frameCount]
  | .vibInit maxDelaySec fs numChannels => [headSlot 4 0 0, .num maxDelaySec, .num fs, intSlot numChannels]
  | .vibReset => [headSlot 4 1 0]
  | .vibSetdelay seconds => [headSlot 4 2 0, .num seconds]
  | .vibSetfreq hz => [headSlot 4 2 1, .num hz]
  | .vibSetblock blockSize => [headSlot 4 2 2, intSlot blockSize]
  | .vibGetdelay => [headSlot 4 3 0]
  | .vibGetfreq => [headSlot 4 3 1]
  | .vibGetblock => [headSlot 4 3 2]
  | .vibProcess frameCount => [headSlot 4 4 0, intSlot frameCount]
  | .ioWrin ch n value => [.word (header 5 0 (BitVec.ofNat 8 ch) (BitVec.ofNat 16 n)), .num value]
  | .ioRdout ch n => [.word (header 5 1 (BitVec.ofNat 8 ch) (BitVec.ofNat 16 n))]

/-! ### The host's words -/

/-- An operand slot of zeros: the word 0 for kind I; for kind R, whose layout `NUM_ENC` is open, the number 0
(DESIGN CHOICE, log 8). -/
def zeroSlot : OperandKind → Slot
  | .int => .word 0
  | .num => .num 0

/-- The packet whose header is the low 32 bits of `w` (of which the table gives `nbits`), its operand slots zero. -/
def packetOfWord (nbits w : Nat) : List Slot :=
  let h : Word := BitVec.ofNat 32 (w % 2 ^ nbits)
  match decodeHeader h with
  | none => [.word h]
  | some f => .word h :: f.kinds.map zeroSlot

/-- The command this decoder reads from the packet of `w`; `none` for a reserved header. -/
def decodeTableWord (nbits w : Nat) : Option Instr :=
  match decode (packetOfWord nbits w) with
  | .command i _ => some i
  | .reserved _ _ => none
  | .incomplete => none

end Sys2Proof
end

