-- ==== Sys2Proof/Machine/State.lean ====
section
/-!
DEFINITION. The state of the machine as plain data: the spec's record of `10_state.md` R20 (`CoreState`), the command
and response channels and the reset input of `30_encoding.md` R80, and the parameters of `00_scope.md` R4.
-/

namespace Sys2Proof.Machine

/-- The index of an element of a memory (`20_memory.md` R60): channel and position. A space with one index (`RB.buf`,
`LFO.tab`) uses channel 0 (log 5). -/
abbrev Index := Nat × Nat

/-- A memory of `NUM` elements (`20_memory.md` R60, R61), addressed by whole elements. It lists the elements that are
not 0, by rising index; an unlisted element reads as 0, which is what every memory holds when it is created (R69) and
what `IN` and `OUT` hold after reset (`70_reset_and_hazards.md` R241). How many elements exist is a register of the
unit (`N`, `L`, `C` and `cap`) or a parameter (log 5). -/
abbrev Memory := List (Index × NUM)

/-- `RBState` (`10_state.md` R24): RB0, and one per channel of VIB. -/
structure RBState where
  /-- Created and not destroyed. -/
  init : Bool
  /-- Capacity. -/
  N : Nat
  /-- The document's `writeIndex`. -/
  w : Nat
  /-- The document's `readIndex`. -/
  r : Nat
  /-- `N` elements, on channel 0. -/
  buf : Memory
deriving DecidableEq, Repr

/-- `LFOState` (`10_state.md` R27): LFO0, and VIB's internal LFO. -/
structure LFOState where
  /-- The wavetable is allocated. -/
  init : Bool
  /-- The waveform. -/
  wave : Waveform
  /-- Reference frequency, Hz. -/
  fref : NUM
  /-- Sample rate, Hz. -/
  fs : NUM
  /-- Wavetable length. -/
  L : Nat
  /-- Amplitude. -/
  amp : NUM
  /-- Frequency, Hz. -/
  freq : NUM
  /-- Phase increment per value, in table bins. -/
  hop : NUM
  /-- Fractional index into the wavetable. -/
  phase : NUM
  /-- The wavetable: `L` elements, on channel 0. -/
  tab : Memory
deriving DecidableEq, Repr

/-- `CFState` (`10_state.md` R30). -/
structure CFState where
  /-- The unit is initialised. -/
  init : Bool
  /-- The filter type, fixed at `INIT`. -/
  ftype : FilterType
  /-- Sample rate, Hz. -/
  fs : NUM
  /-- The maximum delay given to `INIT`, seconds. -/
  maxDelaySec : NUM
  /-- Number of channels. -/
  C : Nat
  /-- Physical capacity per channel. -/
  cap : Nat
  /-- Logical delay length. -/
  Ld : Nat
  /-- The delay last accepted, seconds. -/
  delaySec : NUM
  /-- The tap's coefficient. -/
  gain : NUM
  /-- The index shared by all channels. -/
  head : Nat
  /-- `C` channels of `cap` elements. -/
  dly : Memory
deriving DecidableEq, Repr

/-- `VIBState` (`10_state.md` R32). -/
structure VIBState where
  /-- The unit is initialised. -/
  init : Bool
  /-- Sample rate, Hz. -/
  fs : NUM
  /-- The maximum delay given to `INIT`, seconds. -/
  maxDelaySec : NUM
  /-- Number of channels. -/
  C : Nat
  /-- `maxVibAmpSamples`. -/
  M : Nat
  /-- Capacity of every ring. -/
  N : Nat
  /-- The modulation depth last accepted, seconds. -/
  delaySec : NUM
  /-- Frames handled by one `PROCESS` at most. -/
  blockSize : Int
  /-- The one-time pre-roll has been done. -/
  warmedUp : Bool
  /-- One ring buffer per channel. -/
  rb : List RBState
  /-- The shared LFO. -/
  lfo : LFOState
deriving DecidableEq, Repr

/-- The state of the core: exactly the record of `10_state.md` R20, "and nothing else". -/
structure CoreState where
  /-- `RB0`. -/
  rb0 : RBState
  /-- `LFO0`. -/
  lfo0 : LFOState
  /-- `CF`. -/
  cf : CFState
  /-- `VIB`. -/
  vib : VIBState
  /-- `IN`, by (channel, frame) (R34). -/
  inMem : Memory
  /-- `OUT`, by (channel, frame) (R34). -/
  outMem : Memory
deriving DecidableEq, Repr

/-- The status of a response (`60_exceptions.md` R210). -/
inductive Status where
  /-- "success" -/
  | ok
  /-- "operation requires prior successful `init`" -/
  | notInitialized
  /-- "parameter out of allowed range" -/
  | invalidArguments
  /-- "structurally disallowed call" -/
  | illegalCall
deriving DecidableEq, Repr

/-- The value of a response (`30_encoding.md` R85): of kind R, of kind I, or absent (0 is then delivered; log 9). -/
inductive Value where
  /-- No value: the value delivered is 0 and carries no information (R85). -/
  | absent
  /-- Kind I: a 32-bit two's complement word (`00_scope.md` R10). -/
  | int (w : Word)
  /-- Kind R. -/
  | num (v : NUM)
deriving DecidableEq, Repr

/-- A response (`30_encoding.md` R85). -/
structure Response where
  /-- The status. -/
  status : Status
  /-- The value. -/
  value : Value
deriving DecidableEq, Repr

/-- The whole state of the machine. `params` and the last four fields are outside R20's record: the parameters of
`00_scope.md` R4 (log 2), and the interface of `30_encoding.md` R80 and R81 (log 6, log 7). -/
structure State where
  /-- The parameters; no step changes them. -/
  params : Params
  /-- The spec's record. -/
  core : CoreState
  /-- The level of the `rst` input, which the host drives (`70_reset_and_hazards.md` R240). -/
  rst : Bool
  /-- The slots of a packet received in part (`30_encoding.md` R81). -/
  rx : List Slot
  /-- The slots the host has put on the command channel and the core has not taken. -/
  cmd : List Slot
  /-- The responses given, oldest first (`70_reset_and_hazards.md` R264). -/
  rsp : List Response
deriving DecidableEq, Repr

/-- Why a step stops with a fault: never. "No other outcome exists. No command hangs, faults, or gives an undefined
result" (`60_exceptions.md` R229); an error is a status in a response (R210). No constructor: no one raises a fault. -/
inductive Fault where
deriving DecidableEq, Repr

/-- Why a step is refused. -/
inductive Refusal where
  /-- An arm of `exec` that has no meaning yet. Safe: nothing is claimed of the instruction. No arm of this model
  raises it, and neither does a meaning. -/
  | notModelled (mnemonic : String)
deriving DecidableEq, Repr

/-- The outcome of a command or of a step. -/
abbrev Result := Host.Outcome State Fault Refusal

/-- An uninitialised RB (`10_state.md` R25, `70_reset_and_hazards.md` R242). -/
def RBState.reset : RBState := { init := false, N := 0, w := 0, r := 0, buf := [] }

/-- An uninitialised LFO: "every field is 0 and `tab` has no elements" (`10_state.md` R28, R242). -/
def LFOState.reset : LFOState :=
  { init := false, wave := .sine, fref := 0, fs := 0, L := 0, amp := 0, freq := 0, hop := 0, phase := 0, tab := [] }

/-- An uninitialised CF (`10_state.md` R31, R242). -/
def CFState.reset : CFState :=
  { init := false, ftype := .fir, fs := 0, maxDelaySec := 0, C := 0, cap := 0, Ld := 0, delaySec := 0, gain := 0,
    head := 0, dly := [] }

/-- An uninitialised VIB (`10_state.md` R33, R242). -/
def VIBState.reset : VIBState :=
  { init := false, fs := 0, maxDelaySec := 0, C := 0, M := 0, N := 0, delaySec := 0, blockSize := 0, warmedUp := false,
    rb := [], lfo := LFOState.reset }

/-- The core after power-on reset (`70_reset_and_hazards.md` R242). -/
def CoreState.reset : CoreState :=
  { rb0 := RBState.reset, lfo0 := LFOState.reset, cf := CFState.reset, vib := VIBState.reset, inMem := [], outMem := [] }

/-- The machine right after reset: the core as R242 says, `rst` released, nothing received, nothing sent, nothing
answered (log 6, log 7), with the reference parameters (log 2). -/
def State.reset : State :=
  { params := Params.reference, core := CoreState.reset, rst := false, rx := [], cmd := [], rsp := [] }

end Sys2Proof.Machine
end

