-- ==== Sys2Proof/Machine/Flags.lean ====
section
/-!
DEFINITION. The five flags (`10_state.md` R23). There are no condition codes: `INIT` sets `init`, `RESET` clears it,
`VIB.PROCESS` sets `warmedUp`; the writes stand in the unit records the commands write. What every command reads is
the `init` flag of its unit, in the front-end check of `60_exceptions.md` R213.
-/

namespace Sys2Proof.Machine

/-- The units with an `init` flag. -/
inductive UnitId where
  /-- RB0. -/
  | rb0
  /-- LFO0. -/
  | lfo0
  /-- CF. -/
  | cf
  /-- VIB. -/
  | vib
deriving DecidableEq, Repr

/-- The `init` flag of a unit (`10_state.md` R23). -/
def initFlag (u : UnitId) (c : CoreState) : Bool :=
  match u with
  | .rb0 => c.rb0.init
  | .lfo0 => c.lfo0.init
  | .cf => c.cf.init
  | .vib => c.vib.init

/-- The flag `VIB.warmedUp` (R23): false in state ColdStart, true in state Warm (`43_vibrato.md` R180). -/
def warmFlag (c : CoreState) : Bool := c.vib.warmedUp

/-- The five flags together, in the order of R23. -/
def flags (c : CoreState) : List Bool :=
  [initFlag .rb0 c, initFlag .lfo0 c, initFlag .cf c, initFlag .vib c, warmFlag c]

end Sys2Proof.Machine
end

