-- ==== Sys2Proof/Machine/Operands.lean ====
section
/-!
DEFINITION. The numeric domain (`00_scope.md` R4, R5) and the numeric primitives every rule calls (R6 to R9), the shape
functions of the LFO (`41_lfo.md` R121), the index computations (`20_memory.md` R65, R67) and the capacity test of
`60_exceptions.md` R216.
-/

namespace Sys2Proof.Machine

/-! ### Exact arithmetic (`00_scope.md` R5, R6, R9) -/

/-- `floor(x)`: the greatest integer not above `x` (R6). -/
def floorNum (x : NUM) : Int := ⌊x⌋

/-- `ceil(x)`: the least integer not below `x` (R6). -/
def ceilNum (x : NUM) : Int := ⌈x⌉

/-- `v`, brought into `[-1, 1]`. -/
def clampUnit (v : NUM) : NUM := if v < -1 then -1 else if 1 < v then 1 else v

/-- `sinTurn(i, L) = sin(2π·i/L)` for `0 ≤ i < L` (R9): exact where it is rational; elsewhere a configuration function
of `(i, L)`, at most 1 in magnitude (log 3). -/
def sinTurn (i L : Nat) : NUM :=
  if 2 * i % L = 0 then 0
  else if 4 * i = L then 1
  else if 4 * i = 3 * L then -1
  else if 12 * i = L ∨ 12 * i = 5 * L then 1 / 2
  else if 12 * i = 7 * L ∨ 12 * i = 11 * L then -1 / 2
  else clampUnit (Config.sinFree i L)

end Sys2Proof.Machine

namespace Sys2Proof

/-! ### The numeric domain (`00_scope.md` R4, R5) -/

/-- The reference: "`+`, `-`, `*`, `/` are the exact operations, comparisons are exact, and `floor`, `ceil` are exact"
(R5). -/
def Numerics.exact : Numerics :=
  { add := fun x y => x + y, sub := fun x y => x - y, mul := fun x y => x * y, div := fun x y => x / y,
    lt := fun x y => decide (x < y), le := fun x y => decide (x ≤ y), floor := Machine.floorNum,
    ceil := Machine.ceilNum, ofInt := fun n => (n : NUM), sinTurn := Machine.sinTurn, ofInt_zero := rfl }

/-- The domain of an implementation: every operation a free value (log 1), but that the value 0 is named 0. -/
def Numerics.implementation (id : Nat) : Numerics :=
  { add := Config.numAdd id, sub := Config.numSub id, mul := Config.numMul id, div := Config.numDiv id,
    lt := Config.numLt id, le := Config.numLe id, floor := Config.numFloor id, ceil := Config.numCeil id,
    ofInt := fun n => if n = 0 then 0 else Config.numOfInt id n, sinTurn := Config.numSinTurn id, ofInt_zero := rfl }

/-- The operations of a numeric domain. -/
def NumDomain.numerics : NumDomain → Numerics
  | .exact => Numerics.exact
  | .implementation id => Numerics.implementation id

/-- The operations the machine computes with: the argument `NUM` of R4. -/
def Params.numerics (p : Params) : Numerics := p.num.numerics

end Sys2Proof

namespace Sys2Proof.Machine

/-! ### The primitives over a numeric domain (`00_scope.md` R7, R8) -/

/-- `round(x) = floor(x + 1/2)`: a tie goes up (R7). -/
def roundNum (ν : Numerics) (x : NUM) : Int := ν.floor (ν.add x (ν.div (ν.ofInt 1) (ν.ofInt 2)))

/-- `imod(a, n)` for `n ≥ 1`: the `m` with `0 ≤ m < n` and `a - m` a multiple of `n` (R8). -/
def imod (a : Int) (n : Nat) : Nat := (a % (n : Int)).toNat

/-- `fmod(x, l) = x - l * floor(x / l)` for `l ≥ 1` (R8). -/
def fmod (ν : Numerics) (x : NUM) (l : Nat) : NUM :=
  ν.sub x (ν.mul (ν.ofInt l) (ν.ofInt (ν.floor (ν.div x (ν.ofInt l)))))

/-- `shape(wave, i, L)` for `0 ≤ i < L` (`41_lfo.md` R121). -/
def shape (ν : Numerics) (wave : Waveform) (i L : Nat) : NUM :=
  match wave with
  | .sine => ν.sinTurn i L
  | .saw => ν.sub (ν.div (ν.mul (ν.ofInt 2) (ν.ofInt i)) (ν.ofInt L)) (ν.ofInt 1)
  | .pulse => if 2 * i < L then ν.ofInt (-1) else ν.ofInt 1

/-- The position of lookback `k` in a ring of capacity `N` with write cursor `w`: `imod(w - 1 - k, N)`
(`20_memory.md` R65). -/
def lookbackPos (w N : Nat) (k : Int) : Nat := imod ((w : Int) - 1 - k) N

/-- Linear interpolation: `(1 - f) * a + f * b` (`40_ringbuffer.md` R100, `41_lfo.md` R122). -/
def lerp (ν : Numerics) (f a b : NUM) : NUM := ν.add (ν.mul (ν.sub (ν.ofInt 1) f) a) (ν.mul f b)

/-- A request of `n` elements fits a capacity parameter; "unbounded" (`none`) always does (`60_exceptions.md` R216). -/
def fits (bound : Option Nat) (n : Int) : Bool :=
  match bound with
  | none => true
  | some b => decide (n ≤ (b : Int))

/-- The code of a waveform (`30_encoding.md` R87). -/
def waveCode : Waveform → Nat
  | .sine => 0
  | .saw => 1
  | .pulse => 2

/-- The code of a filter type (R87). -/
def filterCode : FilterType → Nat
  | .fir => 0
  | .iir => 1

/-- The status codes (`60_exceptions.md` R210, `30_encoding.md` R85). -/
def statusCode : Status → BitVec 2
  | .ok => 0
  | .notInitialized => 1
  | .invalidArguments => 2
  | .illegalCall => 3

/-- The number a response's value delivers; 0 where it is absent (`30_encoding.md` R85). -/
def valueNum : Value → NUM
  | .absent => 0
  | .int w => (w.toInt : NUM)
  | .num v => v

/-- An integer response: the value as a 32-bit two's complement word (`00_scope.md` R10). -/
def intValue (n : Int) : Value := .int (BitVec.ofInt 32 n)

end Sys2Proof.Machine
end

