-- ==== Sys2Proof/Machine/Ops.lean ====
section
/-!
DEFINITION. The named operations the meanings share: reading and writing a memory, giving a response, ending a command
with an error (the one exception mechanism of this hardware), the front-end check, power-on reset, and the
micro-operations of the ring buffer (`40_ringbuffer.md` R100) and of the LFO (`41_lfo.md` R122).
-/

namespace Sys2Proof.Machine

/-! ### Memories (`00_scope.md` section 8, `20_memory.md` R60 to R63) -/

/-- `a` comes before `b`: by channel, then by position. -/
def Index.before (a b : Index) : Bool := decide (a.1 < b.1 ∨ (a.1 = b.1 ∧ a.2 < b.2))

/-- What an unlisted element reads as: 0 (`20_memory.md` R69, `70_reset_and_hazards.md` R241). -/
def Memory.unlisted : NUM := 0

/-- `MemRead`: one element; no side effect (R63). -/
def Memory.read : Memory → Index → NUM
  | [], _ => Memory.unlisted
  | (b, v) :: m, a => if a = b then v else Memory.read m a

/-- `m` without its element at `a`. -/
def Memory.erase : Memory → Index → Memory
  | [], _ => []
  | (b, v) :: m, a => if a = b then Memory.erase m a else (b, v) :: Memory.erase m a

/-- `m` with the cell `(a, v)` put before the first cell of a higher index. -/
def Memory.place : Memory → Index → NUM → Memory
  | [], a, v => [(a, v)]
  | (b, u) :: m, a, v => if Index.before a b then (a, v) :: (b, u) :: m else (b, u) :: Memory.place m a v

/-- `MemWrite`: one element, keeping the canonical form. -/
def Memory.write (m : Memory) (a : Index) (v : NUM) : Memory :=
  if v = Memory.unlisted then Memory.erase m a else Memory.place (Memory.erase m a) a v

/-- The indices rise and no cell holds what an unlisted element reads as. -/
def Memory.wf : Memory → Bool
  | [] => true
  | (a, v) :: m => decide (v ≠ Memory.unlisted) && m.all (fun c => Index.before a c.1) && Memory.wf m

/-- A one-index memory of `n` elements, element `i` holding `f i`: the result of writing every element in turn. -/
def Memory.tabulate (n : Nat) (f : Nat → NUM) : Memory :=
  (List.range n).filterMap fun i => if f i = Memory.unlisted then none else some ((0, i), f i)

/-- Every cell lies on a channel below `C` and at a position below `n`: the extent of a space of R60. -/
def Memory.within (m : Memory) (C n : Nat) : Bool := m.all fun c => decide (c.1.1 < C ∧ c.1.2 < n)

/-! ### Responses and errors -/

/-- The response `r` on the response channel (`30_encoding.md` R80, R85). -/
def respond (r : Response) (s : State) : State := { s with rsp := s.rsp ++ [r] }

/-- `raise <Status>` (`00_scope.md` section 8): the response `(Status, 0)`, and every register, flag and memory element
as it was before the command (`60_exceptions.md` R214). Nothing is saved, no mode changes, control goes nowhere
(R218), so there is nothing to return from (R219). -/
def raise (e : Status) (s : State) : Result := .next (respond ⟨e, .absent⟩ s)

/-- `return v`: the response `(Ok, v)`. -/
def answer (v : Value) (s : State) : Result := .next (respond ⟨.ok, v⟩ s)

/-- The core `c` written, then `return v`. -/
def commit (c : CoreState) (v : Value) (s : State) : Result := answer v { s with core := c }

/-- The front-end check of an `INIT` (`60_exceptions.md` R213): `IllegalCall` when the unit is initialised. -/
def guardInit (u : UnitId) (s : State) (body : Result) : Result :=
  if initFlag u s.core then raise .illegalCall s else body

/-- The front-end check of every other command but a parameter `GET` (R213): `NotInitialized` when the unit is not
initialised. -/
def guardUse (u : UnitId) (s : State) (body : Result) : Result :=
  if initFlag u s.core then body else raise .notInitialized s

/-- A parameter `GET` (R213, `10_state.md` R35): the register's value, or the neutral 0 of its kind on an uninitialised
unit; always `Ok`, nothing written. -/
def query (u : UnitId) (neutral v : Value) (s : State) : Result :=
  answer (if initFlag u s.core then v else neutral) s

/-- The frame count check of both `PROCESS` commands (`42_combfilter.md` R157, `43_vibrato.md` R180). -/
def frameCountOk (frameCount : Int) (s : State) : Bool :=
  decide (0 ≤ frameCount ∧ frameCount ≤ (s.params.blkMax : Int))

/-! ### The command channel and reset -/

/-- The command pointer of `10_state.md` R22: how many commands have been answered. -/
def State.cp (s : State) : Nat := s.rsp.length

/-- Power-on reset, while `rst` is asserted (`70_reset_and_hazards.md` R240): the core takes the reset state of R242 and
the packet half received is dropped. What the host has not yet sent, and the responses it already has, are the host's. -/
def powerOnReset (s : State) : State := { s with core := CoreState.reset, rx := [] }

/-- The slots a packet is read from: those received, then those on the channel (`30_encoding.md` R80, R81). -/
def State.pending (s : State) : List Slot := s.rx ++ s.cmd

/-- The slots of a packet are gone and `rest` is left on the channel (R81). -/
def State.consumed (s : State) (rest : List Slot) : State := { s with rx := [], cmd := rest }

/-- The core keeps what it has received of a packet cut short and waits, with no other state changed (R81). -/
def waitForSlots (s : State) : State := { s with rx := s.pending, cmd := [] }

/-- The host puts slots on the command channel (`30_encoding.md` R80). -/
def State.send (s : State) (slots : List Slot) : State := { s with cmd := s.cmd ++ slots }

/-- The host drives the `rst` input. -/
def State.driveRst (s : State) (level : Bool) : State := { s with rst := level }

/-! ### Ring buffer micro-operations (`40_ringbuffer.md` R100) -/

/-- `rb_create(N)`: every element 0, both cursors 0. -/
def rbCreate (n : Nat) : RBState := { init := true, N := n, w := 0, r := 0, buf := [] }

/-- `rb_destroy()`. -/
def rbDestroy (b : RBState) : RBState := { b with init := false, N := 0, w := 0, r := 0, buf := [] }

/-- `rb_put(v)`, the document's `putPostInc`. -/
def rbPut (b : RBState) (v : NUM) : RBState :=
  { b with buf := Memory.write b.buf (0, b.w) v, w := imod ((b.w : Int) + 1) b.N }

/-- The value of `rb_getpi()`. -/
def rbPeek (b : RBState) : NUM := Memory.read b.buf (0, b.r)

/-- The state after `rb_getpi()`, the document's `getPostInc`. -/
def rbAdvance (b : RBState) : RBState := { b with r := imod ((b.r : Int) + 1) b.N }

/-- The element of lookback `k` (`20_memory.md` R65): 0 is the most recently written sample. -/
def rbLookback (b : RBState) (k : Int) : NUM := Memory.read b.buf (0, lookbackPos b.w b.N k)

/-- `rb_get(offset)`: linear interpolation between lookbacks `floor(offset)` and `floor(offset) + 1`. -/
def rbGet (ν : Numerics) (b : RBState) (offset : NUM) : NUM :=
  let k := ν.floor offset
  lerp ν (ν.sub offset (ν.ofInt k)) (rbLookback b k) (rbLookback b (k + 1))

/-- `rb_widx()`. -/
def rbWidx (b : RBState) : Nat := b.w

/-! ### LFO micro-operations (`41_lfo.md` R122) -/

/-- `lfo_init(wave, fref, fs)`. -/
def lfoInit (ν : Numerics) (wave : Waveform) (fref fs : NUM) : LFOState :=
  { init := true, wave := wave, fref := fref, fs := fs, L := (ν.ceil (ν.div fs fref)).toNat, amp := 0, freq := 0, hop := 0,
    phase := 0, tab := [] }

/-- `lfo_setamp(v)`: the whole table is rewritten. -/
def lfoSetAmp (ν : Numerics) (l : LFOState) (v : NUM) : LFOState :=
  { l with amp := v, tab := Memory.tabulate l.L fun i => ν.mul (shape ν l.wave i l.L) v }

/-- `lfo_setfreq(v)`. -/
def lfoSetFreq (ν : Numerics) (l : LFOState) (v : NUM) : LFOState := { l with freq := v, hop := ν.div v l.fref }

/-- Bin `i` of the wavetable; outside it, where no exact phase lies, a free value (log 1). -/
def lfoBin (l : LFOState) (i : Int) : NUM :=
  if 0 ≤ i ∧ i < l.L then Memory.read l.tab (0, i.toNat) else Config.outsideTable i l.L

/-- The value of `lfo_value()`: interpolation between bin `floor(phase)` and the next, wrapping at `L`
(`20_memory.md` R67). -/
def lfoValue (ν : Numerics) (l : LFOState) : NUM :=
  let i0 := ν.floor l.phase
  lerp ν (ν.sub l.phase (ν.ofInt i0)) (lfoBin l i0) (lfoBin l (imod (i0 + 1) l.L))

/-- The state after `lfo_value()`. -/
def lfoAdvance (ν : Numerics) (l : LFOState) : LFOState := { l with phase := fmod ν (ν.add l.phase l.hop) l.L }

/-- `lfo_resetpos()`. -/
def lfoResetPos (l : LFOState) : LFOState := { l with phase := 0 }

/-- `lfo_reset(free)`. -/
def lfoReset (l : LFOState) (free : Bool) : LFOState :=
  if free then
    { l with amp := 0, freq := 0, hop := 0, phase := 0, init := false, wave := .sine, fref := 0, fs := 0, L := 0, tab := [] }
  else { l with amp := 0, freq := 0, hop := 0, phase := 0, tab := [] }

end Sys2Proof.Machine
end

