-- ==== Sys2Proof/Machine/CombFilter.lean ====
section
/-!
DEFINITION. The CF commands (`42_combfilter.md` R151 to R157) and the frame step (R158).
-/

namespace Sys2Proof.Machine

/-- The body of the frame step for channel `c` of frame `n` (R158): the delay element is read before it is
overwritten; FIR stores the input, IIR the output. -/
def cfChannel (ν : Numerics) (n : Nat) (k : CoreState) (c : Nat) : CoreState :=
  let x := Memory.read k.inMem (c, n)
  let d := Memory.read k.cf.dly (c, k.cf.head)
  let y := ν.add x (ν.mul k.cf.gain d)
  let stored := match k.cf.ftype with
    | .fir => x
    | .iir => y
  { k with
    outMem := Memory.write k.outMem (c, n) y
    cf := { k.cf with dly := Memory.write k.cf.dly (c, k.cf.head) stored } }

/-- The end of a frame: `head <- imod(head + 1, Ld)` (R158). -/
def cfStepHead (k : CoreState) : CoreState :=
  { k with cf := { k.cf with head := imod ((k.cf.head : Int) + 1) k.cf.Ld } }

/-- `cf_frame(n)` (R158): every channel in turn, then the shared head. -/
def cfFrame (ν : Numerics) (k : CoreState) (n : Nat) : CoreState :=
  cfStepHead ((List.range k.cf.C).foldl (cfChannel ν n) k)

/-- Frames `0 .. frames - 1` in order (R157). -/
def cfFrames (ν : Numerics) (k : CoreState) (frames : Nat) : CoreState := (List.range frames).foldl (cfFrame ν) k

/-- CF straight after its `INIT` (R151): delay at the maximum, gain 0, head 0, every delay element 0. -/
def cfCreate (ftype : FilterType) (maxDelaySec fs : NUM) (channels cap : Nat) : CFState :=
  { init := true, ftype := ftype, fs := fs, maxDelaySec := maxDelaySec, C := channels, cap := cap, Ld := cap,
    delaySec := maxDelaySec, gain := 0, head := 0, dly := [] }

/-- `CF.INIT.<type>` (R151): the checks in the order of its pseudocode. -/
def cfInitCommand (ftype : FilterType) (maxDelaySec fs : NUM) (numChannels : Int) (s : State) : Result :=
  guardInit .cf s <|
    if numChannels < 1 ∨ (s.params.maxCh : Int) < numChannels then raise .invalidArguments s
    else if s.params.numerics.le fs 0 then raise .invalidArguments s
    else
      let cap := roundNum s.params.numerics (s.params.numerics.mul fs maxDelaySec)
      if cap < 1 ∨ fits s.params.cfMaxCap cap = false then raise .invalidArguments s
      else commit { s.core with cf := cfCreate ftype maxDelaySec fs numChannels.toNat cap.toNat } .absent s

/-- `CF.INIT.FIR` (R151). -/
def execCfInitFir (maxDelaySec fs : NUM) (numChannels : Int) (s : State) : Result :=
  cfInitCommand .fir maxDelaySec fs numChannels s

/-- `CF.INIT.IIR` (R151). -/
def execCfInitIir (maxDelaySec fs : NUM) (numChannels : Int) (s : State) : Result :=
  cfInitCommand .iir maxDelaySec fs numChannels s

/-- `CF.RESET` (R152): every field of the unit 0, as its pseudocode lists them. -/
def execCfReset (s : State) : Result :=
  guardUse .cf s <| commit { s.core with cf := CFState.reset } .absent s

/-- `CF.SETGAIN` (R153). -/
def execCfSetgain (gain : NUM) (s : State) : Result :=
  guardUse .cf s <| commit { s.core with cf := { s.core.cf with gain := gain } } .absent s

/-- `CF.SETDELAY` (R155, `90_conflicts.md` C5): `delaySec` and `Ld` only; the head and the contents stay (R160). -/
def execCfSetdelay (seconds : NUM) (s : State) : Result :=
  guardUse .cf s <|
    if s.params.numerics.lt s.core.cf.maxDelaySec seconds then raise .invalidArguments s
    else
      let n := roundNum s.params.numerics (s.params.numerics.mul seconds s.core.cf.fs)
      if n < 1 then raise .invalidArguments s
      else commit { s.core with cf := { s.core.cf with delaySec := seconds, Ld := n.toNat } } .absent s

/-- `CF.GETGAIN` (R154). -/
def execCfGetgain (s : State) : Result := query .cf (.num 0) (.num s.core.cf.gain) s

/-- `CF.GETDELAY` (R156). -/
def execCfGetdelay (s : State) : Result := query .cf (.num 0) (.num s.core.cf.delaySec) s

/-- `CF.PROCESS` (R157). -/
def execCfProcess (frameCount : Int) (s : State) : Result :=
  guardUse .cf s <|
    if frameCountOk frameCount s then commit (cfFrames s.params.numerics s.core frameCount.toNat) .absent s
    else raise .invalidArguments s

end Sys2Proof.Machine
end

