-- ==== Sys2Proof/Machine/Lfo.lean ====
section
/-!
DEFINITION. The LFO commands (`41_lfo.md` R123 to R130).
-/

namespace Sys2Proof.Machine

/-- `LFO.INIT.<wave>` (R123): the checks in the order of its pseudocode. -/
def lfoInitCommand (wave : Waveform) (fref fs : NUM) (s : State) : Result :=
  guardInit .lfo0 s <|
    if s.params.numerics.le fref 0 ∨ s.params.numerics.le fs 0 then raise .invalidArguments s
    else if fits s.params.lfoMaxL (s.params.numerics.ceil (s.params.numerics.div fs fref)) = false then
      raise .invalidArguments s
    else commit { s.core with lfo0 := lfoInit s.params.numerics wave fref fs } .absent s

/-- `LFO.INIT.SINE` (R123). -/
def execLfoInitSine (fref fs : NUM) (s : State) : Result := lfoInitCommand .sine fref fs s

/-- `LFO.INIT.SAW` (R123). -/
def execLfoInitSaw (fref fs : NUM) (s : State) : Result := lfoInitCommand .saw fref fs s

/-- `LFO.INIT.PULSE` (R123). -/
def execLfoInitPulse (fref fs : NUM) (s : State) : Result := lfoInitCommand .pulse fref fs s

/-- `LFO.RESET.KEEP` (R124). -/
def execLfoResetKeep (s : State) : Result :=
  guardUse .lfo0 s <| commit { s.core with lfo0 := lfoReset s.core.lfo0 false } .absent s

/-- `LFO.RESET.FREE` (R124). -/
def execLfoResetFree (s : State) : Result :=
  guardUse .lfo0 s <| commit { s.core with lfo0 := lfoReset s.core.lfo0 true } .absent s

/-- `LFO.SETAMP` (R125). -/
def execLfoSetamp (amplitude : NUM) (s : State) : Result :=
  guardUse .lfo0 s <| commit { s.core with lfo0 := lfoSetAmp s.params.numerics s.core.lfo0 amplitude } .absent s

/-- `LFO.SETFREQ` (R126; the status below the floor is `90_conflicts.md` C2's). -/
def execLfoSetfreq (hz : NUM) (s : State) : Result :=
  guardUse .lfo0 s <|
    if s.params.numerics.lt hz s.core.lfo0.fref then raise .illegalCall s
    else commit { s.core with lfo0 := lfoSetFreq s.params.numerics s.core.lfo0 hz } .absent s

/-- `LFO.GETAMP` (R127). -/
def execLfoGetamp (s : State) : Result := query .lfo0 (.num 0) (.num s.core.lfo0.amp) s

/-- `LFO.GETFREQ` (R128). -/
def execLfoGetfreq (s : State) : Result := query .lfo0 (.num 0) (.num s.core.lfo0.freq) s

/-- `LFO.GETVALUE` (R129). -/
def execLfoGetvalue (s : State) : Result :=
  guardUse .lfo0 s <|
    commit { s.core with lfo0 := lfoAdvance s.params.numerics s.core.lfo0 }
      (.num (lfoValue s.params.numerics s.core.lfo0)) s

/-- `LFO.RESETPOS` (R130). -/
def execLfoResetpos (s : State) : Result :=
  guardUse .lfo0 s <| commit { s.core with lfo0 := lfoResetPos s.core.lfo0 } .absent s

end Sys2Proof.Machine
end

