-- ==== Sys2Proof/Machine/RingBuffer.lean ====
section
/-!
DEFINITION. The RB commands (`40_ringbuffer.md` R101 to R106). An offset of `RB.GET` outside the contract range is
computed by the same lines and raises nothing (R108).
-/

namespace Sys2Proof.Machine

/-- `RB.INIT` (R101). -/
def execRbInit (capacity : Int) (s : State) : Result :=
  guardInit .rb0 s <|
    if capacity < 1 ∨ fits s.params.rbMaxN capacity = false then raise .invalidArguments s
    else commit { s.core with rb0 := rbCreate capacity.toNat } .absent s

/-- `RB.RESET` (R102). -/
def execRbReset (s : State) : Result :=
  guardUse .rb0 s <| commit { s.core with rb0 := rbDestroy s.core.rb0 } .absent s

/-- `RB.PUT` (R103). -/
def execRbPut (value : NUM) (s : State) : Result :=
  guardUse .rb0 s <| commit { s.core with rb0 := rbPut s.core.rb0 value } .absent s

/-- `RB.GETPI` (R104). -/
def execRbGetpi (s : State) : Result :=
  guardUse .rb0 s <| commit { s.core with rb0 := rbAdvance s.core.rb0 } (.num (rbPeek s.core.rb0)) s

/-- `RB.GET` (R105). -/
def execRbGet (offset : NUM) (s : State) : Result :=
  guardUse .rb0 s <| answer (.num (rbGet s.params.numerics s.core.rb0 offset)) s

/-- `RB.GETWIDX` (R106). -/
def execRbGetwidx (s : State) : Result :=
  guardUse .rb0 s <| answer (intValue (rbWidx s.core.rb0)) s

end Sys2Proof.Machine
end

