-- ==== Sys2Proof/Machine/SysIo.lean ====
section
/-!
DEFINITION. The SYS and IO commands (`44_sys_io.md` R200 to R203).
-/

namespace Sys2Proof.Machine

/-- `SYS.NOP` (R200). -/
def execSysNop (s : State) : Result := answer .absent s

/-- The index range check of the IO commands (R202, R203; `60_exceptions.md` R215 (2)). -/
def ioInRange (ch n : Nat) (s : State) : Bool := decide (ch < s.params.maxCh ∧ n < s.params.blkMax)

/-- `IO.WRIN` (R202). -/
def execIoWrin (ch n : Nat) (value : NUM) (s : State) : Result :=
  if ioInRange ch n s then commit { s.core with inMem := Memory.write s.core.inMem (ch, n) value } .absent s
  else raise .invalidArguments s

/-- `IO.RDOUT` (R203). -/
def execIoRdout (ch n : Nat) (s : State) : Result :=
  if ioInRange ch n s then answer (.num (Memory.read s.core.outMem (ch, n))) s
  else raise .invalidArguments s

end Sys2Proof.Machine
end

