-- ==== Sys2Proof/Machine/Vibrato.lean ====
section
/-!
DEFINITION. The VIB commands (`43_vibrato.md` R171 to R180), the pre-roll (R181) and the frame step (R182). The
modulated read is `rb_get(M + v)` (R183, `90_conflicts.md` C1).
-/

namespace Sys2Proof.Machine

/-- Ring `c` of VIB replaced by `f` of it. -/
def vibModifyRing (f : RBState → RBState) (rings : List RBState) (c : Nat) : List RBState :=
  rings.set c (f (rings.getD c RBState.reset))

/-- `vib_preroll()` (R181): in every channel the read cursor moves `N - M` positions, the values discarded. -/
def vibPreroll (v : VIBState) : VIBState :=
  { v with
    rb := (List.range v.C).foldl (vibModifyRing fun b => Nat.iterate rbAdvance (v.N - v.M) b) v.rb
    warmedUp := true }

/-- The body of the frame step for channel `c` of frame `i`, with the frame's LFO value `v` (R182). -/
def vibChannel (ν : Numerics) (i : Nat) (v : NUM) (k : CoreState) (c : Nat) : CoreState :=
  let b := rbPut (k.vib.rb.getD c RBState.reset) (Memory.read k.inMem (c, i))
  let y := rbGet ν b (ν.add (ν.ofInt k.vib.M) v)
  { k with
    outMem := Memory.write k.outMem (c, i) y
    vib := { k.vib with rb := k.vib.rb.set c (rbAdvance b) } }

/-- `vib_frame(i)` (R182): one LFO value, shared by all channels. -/
def vibFrame (ν : Numerics) (k : CoreState) (i : Nat) : CoreState :=
  (List.range k.vib.C).foldl (vibChannel ν i (lfoValue ν k.vib.lfo))
    { k with vib := { k.vib with lfo := lfoAdvance ν k.vib.lfo } }

/-- Frames `0 .. frames - 1` in order (R180). -/
def vibFrames (ν : Numerics) (k : CoreState) (frames : Nat) : CoreState := (List.range frames).foldl (vibFrame ν) k

/-- VIB straight after its `INIT` (R171), its LFO as R172 says. -/
def vibCreate (p : Params) (maxDelaySec fs : NUM) (channels m : Nat) : VIBState :=
  { init := true, fs := fs, maxDelaySec := maxDelaySec, C := channels, M := m, N := 2 * m + 2, delaySec := 0,
    blockSize := 2147483647, warmedUp := false, rb := List.replicate channels (rbCreate (2 * m + 2)),
    lfo := lfoInit p.numerics p.vibWaveform p.vibLfoFref fs }

/-- `VIB.INIT` (R171): the checks in the order of its pseudocode. -/
def execVibInit (maxDelaySec fs : NUM) (numChannels : Int) (s : State) : Result :=
  guardInit .vib s <|
    if numChannels < 1 then raise .invalidArguments s
    else if (s.params.maxCh : Int) < numChannels then raise .invalidArguments s
    else if s.params.numerics.le fs 0 then raise .invalidArguments s
    else if s.params.numerics.lt maxDelaySec 0 then raise .invalidArguments s
    else
      let m := s.params.numerics.ceil (s.params.numerics.mul maxDelaySec fs)
      if fits s.params.vibMaxN (2 * m + 2) = false then raise .invalidArguments s
      else if fits s.params.lfoMaxL (s.params.numerics.ceil (s.params.numerics.div fs s.params.vibLfoFref)) = false then
        raise .invalidArguments s
      else commit { s.core with vib := vibCreate s.params maxDelaySec fs numChannels.toNat m.toNat } .absent s

/-- `VIB.RESET` (R173): the rings and the LFO released, every field of the unit 0, as its pseudocode lists them. -/
def execVibReset (s : State) : Result :=
  guardUse .vib s <|
    commit { s.core with vib := { VIBState.reset with lfo := lfoReset s.core.vib.lfo true } } .absent s

/-- `VIB.SETDELAY` (R174): no lower bound; the amplitude in samples rewrites the whole table. -/
def execVibSetdelay (seconds : NUM) (s : State) : Result :=
  guardUse .vib s <|
    let amp := s.params.numerics.mul seconds s.core.vib.fs
    if (s.core.vib.M : Int) < s.params.numerics.ceil amp then raise .invalidArguments s
    else commit
      { s.core with vib :=
        { s.core.vib with delaySec := seconds, lfo := lfoSetAmp s.params.numerics s.core.vib.lfo amp } } .absent s

/-- `VIB.SETFREQ` (R175; the status below the floor is `90_conflicts.md` C2's). -/
def execVibSetfreq (hz : NUM) (s : State) : Result :=
  guardUse .vib s <|
    if s.params.numerics.lt hz s.core.vib.lfo.fref then raise .illegalCall s
    else commit { s.core with vib := { s.core.vib with lfo := lfoSetFreq s.params.numerics s.core.vib.lfo hz } } .absent s

/-- `VIB.SETBLOCK` (R176). -/
def execVibSetblock (blockSize : Int) (s : State) : Result :=
  guardUse .vib s <|
    if blockSize ≤ 0 then raise .invalidArguments s
    else commit { s.core with vib := { s.core.vib with blockSize := blockSize } } .absent s

/-- `VIB.GETDELAY` (R177). -/
def execVibGetdelay (s : State) : Result := query .vib (.num 0) (.num s.core.vib.delaySec) s

/-- `VIB.GETFREQ` (R178). -/
def execVibGetfreq (s : State) : Result := query .vib (.num 0) (.num s.core.vib.lfo.freq) s

/-- `VIB.GETBLOCK` (R179). -/
def execVibGetblock (s : State) : Result := query .vib (.int 0) (intValue s.core.vib.blockSize) s

/-- The core with the pre-roll done if it has not been (R180, R181). -/
def vibWarm (k : CoreState) : CoreState :=
  if k.vib.warmedUp then k else { k with vib := vibPreroll k.vib }

/-- How many frames a `PROCESS` handles: `K = min(blockSize, frameCount)` (R180). -/
def vibHandled (blockSize frameCount : Int) : Nat := (min blockSize frameCount).toNat

/-- `VIB.PROCESS` (R180). -/
def execVibProcess (frameCount : Int) (s : State) : Result :=
  guardUse .vib s <|
    if frameCountOk frameCount s then
      commit (vibFrames s.params.numerics (vibWarm s.core) (vibHandled s.core.vib.blockSize frameCount)) .absent s
    else raise .invalidArguments s

end Sys2Proof.Machine
end

