-- ==== Sys2Proof/Machine/Dispatch.lean ====
section
/-!
DEFINITION. The meaning of every command of `30_encoding.md` R86, one arm per constructor of `Instr`.
-/

namespace Sys2Proof.Machine

/-- The effect and the response of a command (`00_scope.md` R12). -/
def exec (i : Instr) (s : State) : Host.Outcome State Fault Refusal :=
  match i with
  | .sysNop => Sys2Proof.Machine.execSysNop s
  | .rbInit capacity => Sys2Proof.Machine.execRbInit capacity s
  | .rbReset => Sys2Proof.Machine.execRbReset s
  | .rbPut value => Sys2Proof.Machine.execRbPut value s
  | .rbGetpi => Sys2Proof.Machine.execRbGetpi s
  | .rbGet offset => Sys2Proof.Machine.execRbGet offset s
  | .rbGetwidx => Sys2Proof.Machine.execRbGetwidx s
  | .lfoInitSine fref fs => Sys2Proof.Machine.execLfoInitSine fref fs s
  | .lfoInitSaw fref fs => Sys2Proof.Machine.execLfoInitSaw fref fs s
  | .lfoInitPulse fref fs => Sys2Proof.Machine.execLfoInitPulse fref fs s
  | .lfoResetKeep => Sys2Proof.Machine.execLfoResetKeep s
  | .lfoResetFree => Sys2Proof.Machine.execLfoResetFree s
  | .lfoSetamp amplitude => Sys2Proof.Machine.execLfoSetamp amplitude s
  | .lfoSetfreq hz => Sys2Proof.Machine.execLfoSetfreq hz s
  | .lfoGetamp => Sys2Proof.Machine.execLfoGetamp s
  | .lfoGetfreq => Sys2Proof.Machine.execLfoGetfreq s
  | .lfoGetvalue => Sys2Proof.Machine.execLfoGetvalue s
  | .lfoResetpos => Sys2Proof.Machine.execLfoResetpos s
  | .cfInitFir maxDelaySec fs numChannels => Sys2Proof.Machine.execCfInitFir maxDelaySec fs numChannels s
  | .cfInitIir maxDelaySec fs numChannels => Sys2Proof.Machine.execCfInitIir maxDelaySec fs numChannels s
  | .cfReset => Sys2Proof.Machine.execCfReset s
  | .cfSetgain gain => Sys2Proof.Machine.execCfSetgain gain s
  | .cfSetdelay seconds => Sys2Proof.Machine.execCfSetdelay seconds s
  | .cfGetgain => Sys2Proof.Machine.execCfGetgain s
  | .cfGetdelay => Sys2Proof.Machine.execCfGetdelay s
  | .cfProcess frameCount => Sys2Proof.Machine.execCfProcess frameCount s
  | .vibInit maxDelaySec fs numChannels => Sys2Proof.Machine.execVibInit maxDelaySec fs numChannels s
  | .vibReset => Sys2Proof.Machine.execVibReset s
  | .vibSetdelay seconds => Sys2Proof.Machine.execVibSetdelay seconds s
  | .vibSetfreq hz => Sys2Proof.Machine.execVibSetfreq hz s
  | .vibSetblock blockSize => Sys2Proof.Machine.execVibSetblock blockSize s
  | .vibGetdelay => Sys2Proof.Machine.execVibGetdelay s
  | .vibGetfreq => Sys2Proof.Machine.execVibGetfreq s
  | .vibGetblock => Sys2Proof.Machine.execVibGetblock s
  | .vibProcess frameCount => Sys2Proof.Machine.execVibProcess frameCount s
  | .ioWrin ch n value => Sys2Proof.Machine.execIoWrin ch n value s
  | .ioRdout ch n => Sys2Proof.Machine.execIoRdout ch n s

end Sys2Proof.Machine
end

