-- ==== Sys2Proof/Machine/Step.lean ====
section
/-!
DEFINITION. One step of the machine: power-on reset while `rst` is asserted, else the packet at the front of the
command channel executed to completion (`00_scope.md` R11, `30_encoding.md` R80), else a wait for its missing slots.
-/

namespace Sys2Proof.Machine

/-- One step. `rst` asserted: the reset state is taken, no command accepted, no response given (`70_reset_and_hazards.md`
R240). Else the slots received and those on the channel are read as one packet: a whole one is executed and its slots
are gone; a reserved header is answered `(IllegalCall, 0)` with no operand slot taken (`30_encoding.md` R88); a packet
cut short, or an empty channel, is waited for with no other state changed (R81, `00_scope.md` R11). -/
def step (s : State) : Host.Outcome State Fault Refusal :=
  if s.rst then .next (powerOnReset s)
  else
    match decode s.pending with
    | .command i rest => exec i (s.consumed rest)
    | .reserved _ rest => raise .illegalCall (s.consumed rest)
    | .incomplete => .next (waitForSlots s)

/-- `s` with the packet of the header word `w` as the only thing received or on the channel, and `rst` released: the very
next step runs it. It stands for the host sending that packet (log 6). -/
def State.withFetchWord (s : State) (nbits w : Nat) : State :=
  { s with rst := false, rx := [], cmd := packetOfWord nbits w }

/-- The host sends a program: its commands' packets, in order (`10_state.md` R22, `70_reset_and_hazards.md` R264). -/
def State.sendProgram (s : State) (program : List Instr) : State := s.send (program.flatMap encode)

/-- A run of a program is the left fold of command execution (`70_reset_and_hazards.md` R264). -/
def runProgram : List Instr → State → Result
  | [], s => .next s
  | i :: program, s =>
    match exec i s with
    | .next t => runProgram program t
    | .fault r => .fault r
    | .refused r => .refused r

end Sys2Proof.Machine
end

