-- ==== Sys2Proof/Safety.lean ====
section
/-!
DEFINITION. What the claims speak of: the state a completed and a refused command leave, the unit a command addresses,
and the invariants the spec gives each unit.
-/

namespace Sys2Proof.Machine

/-! ### What a command leaves -/

/-- The state after a command that ends `Ok` with value `v` and leaves the core `c`: one response more, and everything
outside the core as it was. -/
def State.done (s : State) (c : CoreState) (v : Value) : State := { s with core := c, rsp := s.rsp ++ [⟨.ok, v⟩] }

/-- The state after a command that ends with the error `e` (`60_exceptions.md` R214): one response more, nothing else. -/
def State.failed (s : State) (e : Status) : State := { s with rsp := s.rsp ++ [⟨e, .absent⟩] }

/-- `r` is the outcome of a command at `s`: a next state with one response more, in which an error response carries no
value and comes with the core unchanged (`60_exceptions.md` R210, R214, R229). -/
def Answered (s : State) (r : Result) : Prop :=
  ∃ (c : CoreState) (q : Response),
    r = .next { s with core := c, rsp := s.rsp ++ [q] } ∧ (q.status ≠ .ok → c = s.core ∧ q.value = .absent)

/-- `n` steps from `s` never stop: no fault, no refusal (`60_exceptions.md` R229). -/
def SafeRun (n : Nat) (s : State) : Prop := ∃ t, Host.Core.run
  { State := State, Fault := Fault, Refusal := Refusal, step := step, reset := State.reset } n s = .next t

/-! ### Which unit a command addresses (`30_encoding.md` R86) -/

/-- The unit with an `init` flag that a command addresses; `none` for the SYS and IO commands. -/
def unitOf : Instr → Option UnitId
  | .sysNop => none
  | .rbInit _ => some .rb0
  | .rbReset => some .rb0
  | .rbPut _ => some .rb0
  | .rbGetpi => some .rb0
  | .rbGet _ => some .rb0
  | .rbGetwidx => some .rb0
  | .lfoInitSine _ _ => some .lfo0
  | .lfoInitSaw _ _ => some .lfo0
  | .lfoInitPulse _ _ => some .lfo0
  | .lfoResetKeep => some .lfo0
  | .lfoResetFree => some .lfo0
  | .lfoSetamp _ => some .lfo0
  | .lfoSetfreq _ => some .lfo0
  | .lfoGetamp => some .lfo0
  | .lfoGetfreq => some .lfo0
  | .lfoGetvalue => some .lfo0
  | .lfoResetpos => some .lfo0
  | .cfInitFir _ _ _ => some .cf
  | .cfInitIir _ _ _ => some .cf
  | .cfReset => some .cf
  | .cfSetgain _ => some .cf
  | .cfSetdelay _ => some .cf
  | .cfGetgain => some .cf
  | .cfGetdelay => some .cf
  | .cfProcess _ => some .cf
  | .vibInit _ _ _ => some .vib
  | .vibReset => some .vib
  | .vibSetdelay _ => some .vib
  | .vibSetfreq _ => some .vib
  | .vibSetblock _ => some .vib
  | .vibGetdelay => some .vib
  | .vibGetfreq => some .vib
  | .vibGetblock => some .vib
  | .vibProcess _ => some .vib
  | .ioWrin _ _ _ => none
  | .ioRdout _ _ => none

/-- The six `INIT` commands (`60_exceptions.md` R213). -/
def isInit : Instr → Bool
  | .rbInit _ | .lfoInitSine _ _ | .lfoInitSaw _ _ | .lfoInitPulse _ _ | .cfInitFir _ _ _ | .cfInitIir _ _ _
  | .vibInit _ _ _ => true
  | _ => false

/-- The parameter `GET` commands, as R213 lists them. -/
def isGet : Instr → Bool
  | .lfoGetamp | .lfoGetfreq | .cfGetgain | .cfGetdelay | .vibGetdelay | .vibGetfreq | .vibGetblock => true
  | _ => false

/-- The two commands that write `OUT` (`44_sys_io.md` R201). -/
def isProcess : Instr → Bool
  | .cfProcess _ | .vibProcess _ => true
  | _ => false

/-- The command that writes `IN` (R201). -/
def isWrin : Instr → Bool
  | .ioWrin _ _ _ => true
  | _ => false

/-! ### The encoding, in the terms of the spec's tables -/

/-- The kind of a slot: a word slot can be an operand of kind I, a `NUM` slot one of kind R (`30_encoding.md` R84). -/
def slotKind : Slot → OperandKind
  | .word _ => .int
  | .num _ => .num

/-- The fields of the 37 header patterns (`30_encoding.md` R83, R87, R88): the codes that are not reserved. -/
def legalFields (unit op sel idx : Nat) : Prop :=
  (unit = 5 ∧ op ≤ 1) ∨
    idx = 0 ∧
      ((unit = 0 ∧ op = 0 ∧ sel = 0) ∨ (unit = 1 ∧ op ≤ 5 ∧ sel = 0) ∨ (unit = 2 ∧ op = 0 ∧ sel ≤ 2) ∨
        (unit = 2 ∧ 1 ≤ op ∧ op ≤ 3 ∧ sel ≤ 1) ∨ (unit = 2 ∧ 4 ≤ op ∧ op ≤ 5 ∧ sel = 0) ∨
        (unit = 3 ∧ op = 0 ∧ sel ≤ 1) ∨ (unit = 3 ∧ op = 1 ∧ sel = 0) ∨ (unit = 3 ∧ 2 ≤ op ∧ op ≤ 3 ∧ sel ≤ 1) ∨
        (unit = 3 ∧ op = 4 ∧ sel = 0) ∨ (unit = 4 ∧ op ≤ 1 ∧ sel = 0) ∨ (unit = 4 ∧ 2 ≤ op ∧ op ≤ 3 ∧ sel ≤ 2) ∨
        (unit = 4 ∧ op = 4 ∧ sel = 0))

/-- How many operand slots follow a command's header (`30_encoding.md` R90). -/
def slotCount : Instr → Nat
  | .cfInitFir _ _ _ | .cfInitIir _ _ _ | .vibInit _ _ _ => 3
  | .lfoInitSine _ _ | .lfoInitSaw _ _ | .lfoInitPulse _ _ => 2
  | .rbInit _ | .rbPut _ | .rbGet _ | .lfoSetamp _ | .lfoSetfreq _ | .cfSetgain _ | .cfSetdelay _ | .cfProcess _
  | .vibSetdelay _ | .vibSetfreq _ | .vibSetblock _ | .vibProcess _ | .ioWrin _ _ _ => 1
  | _ => 0

/-- `LFO.INIT.<wave>` (`30_encoding.md` R93). -/
def lfoInitOf (wave : Waveform) (fref fs : NUM) : Instr :=
  match wave with
  | .sine => .lfoInitSine fref fs
  | .saw => .lfoInitSaw fref fs
  | .pulse => .lfoInitPulse fref fs

/-- `CF.INIT.<type>` (`30_encoding.md` R93). -/
def cfInitOf (ftype : FilterType) (maxDelaySec fs : NUM) (numChannels : Int) : Instr :=
  match ftype with
  | .fir => .cfInitFir maxDelaySec fs numChannels
  | .iir => .cfInitIir maxDelaySec fs numChannels

/-! ### The causes of the statuses (`60_exceptions.md` R211, R213, R215) -/

/-- A request `n` above a capacity parameter; never so when it is "unbounded" (`60_exceptions.md` R216). -/
def Exceeds (bound : Option Nat) (n : Int) : Bool := bound.any fun b => decide ((b : Int) < n)

/-- The `InvalidArguments` causes of R211, as its table lists them. -/
def invalidCause (i : Instr) (s : State) : Bool :=
  let ν := s.params.numerics
  match i with
  | .rbInit n => decide (n < 1) || Exceeds s.params.rbMaxN n
  | .lfoInitSine fref fs | .lfoInitSaw fref fs | .lfoInitPulse fref fs =>
    ν.le fref 0 || ν.le fs 0 || Exceeds s.params.lfoMaxL (ν.ceil (ν.div fs fref))
  | .cfInitFir d fs n | .cfInitIir d fs n =>
    decide (n < 1 ∨ (s.params.maxCh : Int) < n ∨ roundNum ν (ν.mul fs d) < 1) || ν.le fs 0 ||
      Exceeds s.params.cfMaxCap (roundNum ν (ν.mul fs d))
  | .cfSetdelay seconds => ν.lt s.core.cf.maxDelaySec seconds || decide (roundNum ν (ν.mul seconds s.core.cf.fs) < 1)
  | .cfProcess n | .vibProcess n => decide (n < 0 ∨ (s.params.blkMax : Int) < n)
  | .vibInit d fs n =>
    decide (n < 1 ∨ (s.params.maxCh : Int) < n) || ν.le fs 0 || ν.lt d 0 ||
      Exceeds s.params.vibMaxN (2 * ν.ceil (ν.mul d fs) + 2) ||
      Exceeds s.params.lfoMaxL (ν.ceil (ν.div fs s.params.vibLfoFref))
  | .vibSetdelay seconds => decide ((s.core.vib.M : Int) < ν.ceil (ν.mul seconds s.core.vib.fs))
  | .vibSetblock n => decide (n ≤ 0)
  | .ioWrin ch n _ | .ioRdout ch n => decide (s.params.maxCh ≤ ch ∨ s.params.blkMax ≤ n)
  | _ => false

/-- The two `IllegalCall` causes of R211 that are a frequency below the floor. -/
def belowFloor (i : Instr) (s : State) : Bool :=
  match i with
  | .lfoSetfreq hz => s.params.numerics.lt hz s.core.lfo0.fref
  | .vibSetfreq hz => s.params.numerics.lt hz s.core.vib.lfo.fref
  | _ => false

/-- The status of the argument checks alone. -/
def argumentStatus (i : Instr) (s : State) : Status :=
  if belowFloor i s then .illegalCall else if invalidCause i s then .invalidArguments else .ok

/-- The one status of a command (R211), by the priority of R215: the front-end check of R213 before the arguments. -/
def statusOf (i : Instr) (s : State) : Status :=
  match unitOf i with
  | none => argumentStatus i s
  | some u =>
    if isInit i then if initFlag u s.core then .illegalCall else argumentStatus i s
    else if initFlag u s.core then argumentStatus i s
    else if isGet i then .ok
    else .notInitialized

/-! ### What a unit sees and what it holds -/

/-- Two cores agree on the state of a unit; on nothing, where a command has no unit. -/
def sameUnit (u : Option UnitId) (c d : CoreState) : Prop :=
  match u with
  | some .rb0 => c.rb0 = d.rb0
  | some .lfo0 => c.lfo0 = d.lfo0
  | some .cf => c.cf = d.cf
  | some .vib => c.vib = d.vib
  | none => True

/-- Two cores agree on all that the command `i` may read (`00_scope.md` R13): the state of its unit, if it has one; `IN` for
the two `PROCESS` commands alone; the element of `OUT` it asks for, for `IO.RDOUT` alone. -/
def sameView (i : Instr) (c d : CoreState) : Prop :=
  sameUnit (unitOf i) c d ∧ (isProcess i = true → c.inMem = d.inMem) ∧
    ∀ ch n, i = .ioRdout ch n → Memory.read c.outMem (ch, n) = Memory.read d.outMem (ch, n)

/-- Ring `c` of VIB. -/
def vibRingOf (v : VIBState) (c : Nat) : RBState := v.rb.getD c RBState.reset

/-- Sample `t - j` of channel `c` of a stream, 0 before the stream began (`42_combfilter.md` R159). -/
def past (x : Nat → Nat → NUM) (c t j : Nat) : NUM := if j ≤ t then x c (t - j) else 0

/-- The delay line of CF after `t` frames since `INIT` with one `Ld`: the head, and in every channel the last `Ld`
samples stored, which are those of the stream `h` (R159). -/
def CfHolds (h : Nat → Nat → NUM) (t : Nat) (f : CFState) : Prop :=
  1 ≤ f.Ld ∧ f.head = t % f.Ld ∧
    ∀ c < f.C, ∀ j, 1 ≤ j → j ≤ f.Ld → Memory.read f.dly (c, (t + f.Ld - j) % f.Ld) = past h c t j

/-- The rings of VIB after `t` frames since `INIT`: in every channel the lookbacks are the last samples of the stream
`x` (`43_vibrato.md` R184). -/
def VibHolds (x : Nat → Nat → NUM) (t : Nat) (v : VIBState) : Prop :=
  v.rb.length = v.C ∧ ∀ c < v.C, (vibRingOf v c).N = v.N ∧ (vibRingOf v c).w < v.N ∧
    ∀ j < v.N, rbLookback (vibRingOf v c) (j : Int) = past x c t (j + 1)

/-! ### Invariants, as the spec states them over exact arithmetic (`00_scope.md` R5) -/

/-- The ranges `00_scope.md` R4 gives the parameters, and the positive reference frequency `41_lfo.md` R122 requires. -/
abbrev ValidParams (p : Params) : Prop :=
  (1 ≤ p.maxCh ∧ p.maxCh ≤ 256) ∧ (1 ≤ p.blkMax ∧ p.blkMax ≤ 65536) ∧
    (p.rbMaxN.all fun n => decide (1 ≤ n)) = true ∧ (p.lfoMaxL.all fun n => decide (1 ≤ n)) = true ∧
    (p.cfMaxCap.all fun n => decide (1 ≤ n)) = true ∧ (p.vibMaxN.all fun n => decide (2 ≤ n)) = true ∧
    p.numerics.lt 0 p.vibLfoFref = true

/-- An initialised ring buffer (`10_state.md` R24, R25): a capacity within its parameter, both cursors in `[0, N)`,
`N` elements in canonical form. -/
abbrev RbLive (bound : Option Nat) (b : RBState) : Prop :=
  1 ≤ b.N ∧ fits bound b.N = true ∧ b.w < b.N ∧ b.r < b.N ∧ Memory.wf b.buf = true ∧ Memory.within b.buf 1 b.N = true

/-- R25: RB0 is a live ring buffer, or every field is 0 and there is no element. -/
abbrev RbInv (p : Params) (b : RBState) : Prop :=
  (b.init = true → RbLive p.rbMaxN b) ∧ (b.init = false → b = RBState.reset)

/-- An initialised LFO (`10_state.md` R27, R28). -/
abbrev LfoLive (bound : Option Nat) (l : LFOState) : Prop :=
  0 < l.fref ∧ 0 < l.fs ∧ (l.L : Int) = ceilNum (l.fs / l.fref) ∧ 1 ≤ l.L ∧ fits bound l.L = true ∧
    l.hop = l.freq / l.fref ∧ (l.freq = 0 ∨ l.fref ≤ l.freq) ∧ 0 ≤ l.phase ∧ l.phase < (l.L : NUM) ∧
    Memory.wf l.tab = true ∧ Memory.within l.tab 1 l.L = true ∧
    ∀ i < l.L, Memory.read l.tab (0, i) = shape .exact l.wave i l.L * l.amp

/-- R28: LFO0 is a live LFO, or every field is 0 and the table has no element. -/
abbrev LfoInv (p : Params) (l : LFOState) : Prop :=
  (l.init = true → LfoLive p.lfoMaxL l) ∧ (l.init = false → l = LFOState.reset)

/-- An initialised CF (`10_state.md` R30, R31). -/
abbrev CfLive (p : Params) (f : CFState) : Prop :=
  0 < f.fs ∧ (1 ≤ f.C ∧ f.C ≤ p.maxCh) ∧ (f.cap : Int) = roundNum .exact (f.fs * f.maxDelaySec) ∧
    fits p.cfMaxCap f.cap = true ∧ (1 ≤ f.Ld ∧ f.Ld ≤ f.cap) ∧ (f.Ld : Int) = roundNum .exact (f.delaySec * f.fs) ∧
    f.delaySec ≤ f.maxDelaySec ∧ f.head < f.cap ∧ Memory.wf f.dly = true ∧ Memory.within f.dly f.C f.cap = true

/-- R31: CF is live, or every field is 0 and `dly` has no element. -/
abbrev CfInv (p : Params) (f : CFState) : Prop :=
  (f.init = true → CfLive p f) ∧ (f.init = false → f = CFState.reset)

/-- A ring of an initialised VIB of capacity `n` (`10_state.md` R24, R32). -/
abbrev VibRing (n : Nat) (b : RBState) : Prop :=
  b.init = true ∧ b.N = n ∧ b.w < n ∧ b.r < n ∧ Memory.wf b.buf = true ∧ Memory.within b.buf 1 n = true

/-- An initialised VIB (`10_state.md` R32, R33): capacities, one ring per channel with the same cursors, the LFO as R172
says with its amplitude in samples; before the pre-roll every ring is fresh, after it the read cursor trails the write
cursor by `M`. -/
abbrev VibLive (p : Params) (v : VIBState) : Prop :=
  0 < v.fs ∧ 0 ≤ v.maxDelaySec ∧ (1 ≤ v.C ∧ v.C ≤ p.maxCh) ∧ (v.M : Int) = ceilNum (v.maxDelaySec * v.fs) ∧
    v.N = 2 * v.M + 2 ∧ fits p.vibMaxN v.N = true ∧ ceilNum (v.delaySec * v.fs) ≤ v.M ∧
    (1 ≤ v.blockSize ∧ v.blockSize ≤ 2147483647) ∧ v.rb.length = v.C ∧
    (∀ b ∈ v.rb, VibRing v.N b) ∧ (∀ a ∈ v.rb, ∀ b ∈ v.rb, a.w = b.w ∧ a.r = b.r) ∧
    (v.warmedUp = false → ∀ b ∈ v.rb, b.w = 0 ∧ b.r = 0 ∧ b.buf = []) ∧
    (v.warmedUp = true → ∀ b ∈ v.rb, imod ((b.w : Int) - b.r) v.N = v.M) ∧
    v.lfo.init = true ∧ v.lfo.wave = p.vibWaveform ∧ v.lfo.fref = p.vibLfoFref ∧ v.lfo.fs = v.fs ∧
    v.lfo.amp = v.delaySec * v.fs ∧ LfoLive p.lfoMaxL v.lfo

/-- R33: VIB is live, or every field is 0, there is no ring and the LFO is uninitialised. -/
abbrev VibInv (p : Params) (v : VIBState) : Prop :=
  (v.init = true → VibLive p v) ∧ (v.init = false → v = VIBState.reset)

/-- The block memories are in canonical form and hold `MAX_CH` channels of `BLK_MAX` frames (`10_state.md` R34). -/
abbrev BlockInv (p : Params) (m : Memory) : Prop :=
  Memory.wf m = true ∧ Memory.within m p.maxCh p.blkMax = true

/-- What keeps the block memories within their extent, in any numeric domain: no initialised unit has more channels than
there are, and both memories are within theirs. -/
abbrev BlocksInv (p : Params) (c : CoreState) : Prop :=
  (c.cf.init = true → c.cf.C ≤ p.maxCh) ∧ (c.vib.init = true → c.vib.C ≤ p.maxCh) ∧ BlockInv p c.inMem ∧
    BlockInv p c.outMem

/-- The state of the core is legal: every unit meets its invariant. -/
abbrev CoreInv (p : Params) (c : CoreState) : Prop :=
  RbInv p c.rb0 ∧ LfoInv p c.lfo0 ∧ CfInv p c.cf ∧ VibInv p c.vib ∧ BlockInv p c.inMem ∧ BlockInv p c.outMem

/-- The parameters are in their ranges and the core is legal. -/
abbrev Inv (s : State) : Prop := ValidParams s.params ∧ CoreInv s.params s.core

end Sys2Proof.Machine
end

