-- ==== Sys2Proof/Certificates/Slice0/Obligations.lean ====
section
/-!
DEFINITION. The statements for the provers, from the numbered rules of `spec/`, file by file. None of them is about a
program. Where a statement rests on a choice of the model, its docstring names the log entry.

A statement with `ν = s.params.numerics` holds in every numeric domain: what it says of numbers is said with the operations
of the parameter `NUM` (`00_scope.md` R4, R5), which are the usual ones in the reference domain
(`Obligations.ReferenceArithmeticIsExact`). A statement that needs the laws of arithmetic speaks of the exact domain, over
which the spec states its rules (R5).
-/

open Sys2Proof Sys2Proof.Machine

/-! ## The encoding: `30_encoding.md` -/

/-- R80 to R91: decoding the packet of a well-formed command gives the command back, with every operand, and leaves the
slots after it alone. -/
def Obligations.DecodeEncodeAgree : Prop :=
  ∀ (i : Instr) (rest : List Slot), WellFormed i → decode (encode i ++ rest) = .command i rest

/-- The other direction, for a packet whose slots have the kinds its header asks for (R81): the command decoded from it
encodes to those very slots, so no two packets spell one command. -/
def Obligations.EncodeDecodeAgree : Prop :=
  ∀ (h : Word) (f : Form) (ops rest : List Slot), decodeHeader h = some f → ops.map slotKind = f.kinds →
    ∃ i, decode (.word h :: ops ++ rest) = .command i rest ∧ encode i = .word h :: ops

/-- R10, R82, R90: whatever the slots are, a command that is decoded is well-formed, and its packet took the header and
exactly the slots R90 counts. -/
def Obligations.DecodedCommandsAreWellFormed : Prop :=
  ∀ (slots rest : List Slot) (i : Instr), decode slots = .command i rest →
    WellFormed i ∧ ∃ front, slots = front ++ rest ∧ front.length = 1 + slotCount i

/-- R88: a header is reserved exactly when its fields are none of those of R83 and R87; then a step answers
`(IllegalCall, 0)`, consumes the header and no operand slot, and changes no state. -/
def Obligations.ReservedHeaders : Prop :=
  (∀ h : Word, decodeHeader h = none ↔
    ¬ legalFields (hdrUnit h).toNat (hdrOp h).toNat (hdrSel h).toNat (hdrIdx h).toNat) ∧
  ∀ (s : State) (h : Word) (rest : List Slot), s.rst = false → s.pending = .word h :: rest → decodeHeader h = none →
    step s = .next { s with rx := [], cmd := rest, rsp := s.rsp ++ [⟨.illegalCall, .absent⟩] }

/-- Words written out from R86 and R91 decode to the commands they stand for. -/
def Obligations.DecodeSampleWords : Prop :=
  decode [.word 0x00000000#32] = .command .sysNop [] ∧
  decode [.word 0x10000000#32, .word 0xFFFFFFFC#32] = .command (.rbInit (-4)) [] ∧
  decode [.word 0x20020000#32, .num 3, .num 10] = .command (.lfoInitPulse 3 10) [] ∧
  decode [.word 0x30010000#32, .num 1, .num 8, .word 0x00000002#32] = .command (.cfInitIir 1 8 2) [] ∧
  decode [.word 0x42020000#32, .word 0x7FFFFFFF#32] = .command (.vibSetblock 2147483647) [] ∧
  decode [.word 0x50FF1234#32, .num 7, .word 0x51010008#32] =
    .command (.ioWrin 255 4660 7) [.word 0x51010008#32] ∧
  decode [.word 0x51010008#32] = .command (.ioRdout 1 8) [] ∧
  decode [.word 0x22020000#32, .num 1] = .reserved 0x22020000#32 [.num 1]

/-! ## The step: `00_scope.md`, `30_encoding.md`, `70_reset_and_hazards.md` -/

/-- R80: with `rst` released, a step executes the command that the slots received and the slots on the channel spell,
on the state without the slots of its packet. -/
def Obligations.StepRunsDecodedCommand : Prop :=
  ∀ (s : State) (i : Instr) (rest : List Slot), s.rst = false → decode s.pending = .command i rest →
    step s = exec i { s with rx := [], cmd := rest }

/-- R11, R81: with no command pending no state changes; a packet cut short is waited for: a step keeps what came and changes
neither the core nor the responses, and when more slots come, the next step does what it would have done had all of them
come at once. -/
def Obligations.CutPacketWaits : Prop :=
  (∀ s : State, s.rst = false → s.rx = [] → s.cmd = [] → step s = .next s) ∧
  ∀ s : State, s.rst = false → decode s.pending = .incomplete →
    ∃ u, step s = .next u ∧ u.core = s.core ∧ u.rsp = s.rsp ∧ u.pending = s.pending ∧
      ∀ more, step (u.send more) = step (s.send more)

/-- R240, R242: while `rst` is asserted a step takes the reset state, element by element as R242 lists it; a packet half
received is dropped, no command is accepted and no response is given. -/
def Obligations.PowerOnReset : Prop :=
  ∀ s : State, s.rst = true → ∃ t, step s = .next t ∧ t.rx = [] ∧ t.cmd = s.cmd ∧ t.rsp = s.rsp ∧
    t.core.rb0 = { init := false, N := 0, w := 0, r := 0, buf := [] } ∧
    t.core.lfo0 = { init := false, wave := .sine, fref := 0, fs := 0, L := 0, amp := 0, freq := 0, hop := 0, phase := 0,
                    tab := [] } ∧
    t.core.cf = { init := false, ftype := .fir, fs := 0, maxDelaySec := 0, C := 0, cap := 0, Ld := 0, delaySec := 0,
                  gain := 0, head := 0, dly := [] } ∧
    t.core.vib = { init := false, fs := 0, maxDelaySec := 0, C := 0, M := 0, N := 0, delaySec := 0, blockSize := 0,
                   warmedUp := false, rb := [], lfo := t.core.lfo0 } ∧
    (∀ c n, Memory.read t.core.inMem (c, n) = 0) ∧ ∀ c n, Memory.read t.core.outMem (c, n) = 0

/-- R242: what a host sees straight after reset. Every parameter `GET` answers `(Ok, 0)`, every `IO.RDOUT` in range
`(Ok, 0)`, every other command of a unit but an `INIT` answers `NotInitialized`, and every `INIT` whose operands are
legal answers `Ok`. -/
def Obligations.ResetIsObservable : Prop :=
  ∀ (i : Instr) (s : State), s.core = State.reset.core →
    ∃ t q, exec i s = .next t ∧ t.rsp = s.rsp ++ [q] ∧
      (isGet i = true → q.status = .ok ∧ valueNum q.value = 0 ∧ t.core = s.core) ∧
      (∀ c n, i = .ioRdout c n → c < s.params.maxCh → n < s.params.blkMax → q = ⟨.ok, .num 0⟩) ∧
      ((unitOf i).isSome = true → isInit i = false → isGet i = false → q = ⟨.notInitialized, .absent⟩) ∧
      (isInit i = true → invalidCause i s = false → q = ⟨.ok, .absent⟩)

/-- R264, R262: from a state with nothing pending, a host that sends a program gets the left fold of command execution:
as many steps as commands run it, every command is answered, in order, and nothing is left on the channel. -/
def Obligations.ProgramRunIsLeftFold : Prop :=
  ∀ (program : List Instr) (s : State), (∀ i ∈ program, WellFormed i) → s.rst = false → s.rx = [] → s.cmd = [] →
    ∃ t rs, runProgram program s = .next t ∧ t.rsp = s.rsp ++ rs ∧ rs.length = program.length ∧
      Host.Core.run { State := State, Fault := Fault, Refusal := Refusal, step := step, reset := State.reset }
        program.length (s.sendProgram program) = .next t

/-! ## Errors: `60_exceptions.md` -/

/-- R214, R210, R212, R229: every command ends, on every state and every operand, in a next state with exactly one
response more; where the status is not `Ok` the value is absent and every register, flag and memory element is as it was;
no command touches the channels, the reset input or the parameters; and no run of steps, from any state, is stopped. -/
def Obligations.EveryCommandAnswered : Prop :=
  (∀ (i : Instr) (s : State), ∃ (c : CoreState) (q : Response),
    exec i s = .next { s with core := c, rsp := s.rsp ++ [q] } ∧ (q.status ≠ .ok → c = s.core ∧ q.value = .absent)) ∧
  ∀ (n : Nat) (s : State), SafeRun n s

/-- R213: the front-end check. An `INIT` of an initialised unit ends with `IllegalCall`; on an uninitialised unit a
parameter `GET` answers `(Ok, 0)` and every other command but an `INIT` ends with `NotInitialized`. The SYS and IO
commands have no such check: they never end with either error. -/
def Obligations.FrontEndCheck : Prop :=
  (∀ (i : Instr) (s : State), unitOf i = none →
    exec i s ≠ .next (s.failed .notInitialized) ∧ exec i s ≠ .next (s.failed .illegalCall)) ∧
  ∀ (i : Instr) (u : UnitId) (s : State), unitOf i = some u →
    (isInit i = true → initFlag u s.core = true → exec i s = .next (s.failed .illegalCall)) ∧
    (isGet i = true → initFlag u s.core = false → ∃ v, valueNum v = 0 ∧ exec i s = .next (s.done s.core v)) ∧
    (isInit i = false → isGet i = false → initFlag u s.core = false → exec i s = .next (s.failed .notInitialized))

/-- R211, R215: the status of every command is the one its causes give, by the priority of R215; a reserved header, of
whatever slots follow it, is answered with `IllegalCall` before anything else is looked at. -/
def Obligations.StatusesAreExact : Prop :=
  (∀ (s : State) (h : Word) (rest : List Slot), s.rst = false → s.pending = .word h :: rest → decodeHeader h = none →
    ∃ t, step s = .next t ∧ t.rsp = s.rsp ++ [⟨.illegalCall, .absent⟩]) ∧
  ∀ (i : Instr) (s : State), ∃ t q, exec i s = .next t ∧ t.rsp = s.rsp ++ [q] ∧ q.status = statusOf i s

/-! ## The units are apart: `00_scope.md` R13, `44_sys_io.md` R201 -/

/-- R13, R201, R243: a command leaves every unit but its own as it was; only `IO.WRIN` writes `IN`, only the two `PROCESS`
commands write `OUT`; and every response before is kept. -/
def Obligations.OnlyItsOwnUnit : Prop :=
  ∀ (i : Instr) (s t : State), exec i s = .next t →
    (unitOf i ≠ some .rb0 → t.core.rb0 = s.core.rb0) ∧ (unitOf i ≠ some .lfo0 → t.core.lfo0 = s.core.lfo0) ∧
    (unitOf i ≠ some .cf → t.core.cf = s.core.cf) ∧ (unitOf i ≠ some .vib → t.core.vib = s.core.vib) ∧
    (isWrin i = false → t.core.inMem = s.core.inMem) ∧ (isProcess i = false → t.core.outMem = s.core.outMem) ∧
    t.params = s.params ∧ t.rst = s.rst ∧ t.rx = s.rx ∧ t.cmd = s.cmd ∧ s.rsp <+: t.rsp

/-- R13, R12: what a command does to its unit, what it answers and what it writes depends on nothing but its operands, the
parameters, the state of its unit, for a `PROCESS` command `IN`, and for `IO.RDOUT` the element of `OUT` it asks for: two
states that agree on those get the same response and the same unit state, and every element of `IN` and of `OUT` is either
written with the same value in both or kept in both. -/
def Obligations.UnitsDoNotInterfere : Prop :=
  ∀ (i : Instr) (s s' t t' : State), s.params = s'.params → sameView i s.core s'.core →
    exec i s = .next t → exec i s' = .next t' →
    sameUnit (unitOf i) t.core t'.core ∧ t.rsp.getLast? = t'.rsp.getLast? ∧
    (∀ a, Memory.read t.core.inMem a = Memory.read t'.core.inMem a ∨
      (Memory.read t.core.inMem a = Memory.read s.core.inMem a ∧
        Memory.read t'.core.inMem a = Memory.read s'.core.inMem a)) ∧
    ∀ a, Memory.read t.core.outMem a = Memory.read t'.core.outMem a ∨
      (Memory.read t.core.outMem a = Memory.read s.core.outMem a ∧
        Memory.read t'.core.outMem a = Memory.read s'.core.outMem a)

/-! ## Memories: `20_memory.md` -/

/-- R71, R63, R69: an element read is the value of the latest write to it; a write changes no other element; a new memory
reads 0 everywhere. -/
def Obligations.ReadSeesLatestWrite : Prop :=
  ∀ (m : Memory) (a b : Index) (v : NUM),
    Memory.read (Memory.write m a v) b = (if b = a then v else Memory.read m b) ∧ Memory.read [] b = 0

/-- The model's memories have one canonical form (log 5): a write keeps it, and two memories in it that read alike are
equal. -/
def Obligations.MemoryFormIsCanonical : Prop :=
  (∀ (m : Memory) (a : Index) (v : NUM), Memory.wf m = true → Memory.wf (Memory.write m a v) = true) ∧
  ∀ m m' : Memory, Memory.wf m = true → Memory.wf m' = true → (∀ a, Memory.read m a = Memory.read m' a) → m = m'

/-- R72: any order of the channels inside one frame, of CF or of VIB, gives the same state and the same outputs. -/
def Obligations.ChannelOrderDoesNotMatter : Prop :=
  ∀ (ν : Numerics) (k : CoreState) (n : Nat) (order : List Nat), Memory.wf k.outMem = true →
    (order.Perm (List.range k.cf.C) → Memory.wf k.cf.dly = true →
      order.foldl (cfChannel ν n) k = (List.range k.cf.C).foldl (cfChannel ν n) k) ∧
    (order.Perm (List.range k.vib.C) → ∀ v : NUM,
      order.foldl (vibChannel ν n v) k = (List.range k.vib.C).foldl (vibChannel ν n v) k)

/-! ## Numbers: `00_scope.md` -/

/-- R4, R5, R6: in the reference domain the operations and the comparisons are the exact ones, `floor` is the greatest integer
not above and `ceil` the least not below. That the values are rational numbers is the model's choice (log 1), and so is that
`State.reset` has the reference domain (log 2). -/
def Obligations.ReferenceArithmeticIsExact : Prop :=
  State.reset.params.num = .exact ∧ ∀ (p : Params) (ν : Numerics), p.num = .exact → ν = p.numerics →
    (∀ x y : NUM, ν.add x y = x + y ∧ ν.sub x y = x - y ∧ ν.mul x y = x * y ∧ ν.div x y = x / y ∧
      (ν.lt x y = true ↔ x < y) ∧ (ν.le x y = true ↔ x ≤ y)) ∧
    (∀ n : Int, ν.ofInt n = n) ∧
    ∀ (x : NUM) (n : Int), (n ≤ ν.floor x ↔ (n : NUM) ≤ x) ∧ (ν.ceil x ≤ n ↔ x ≤ (n : NUM))

/-- R7, R8: `imod(a, n)` is the `m` with `0 ≤ m < n` and `a - m` a multiple of `n`, and the only one; `fmod(x, l)` is `x -
l * floor(x / l)`, in `[0, l)`; `round(x)` is the integer with `round(x) ≤ x + 1/2 < round(x) + 1`; `fmod` and `round`
over exact arithmetic. -/
def Obligations.RemaindersAndRounding : Prop :=
  (∀ (a : Int) (n : Nat), 1 ≤ n → imod a n < n ∧ (n : Int) ∣ a - imod a n ∧
    ∀ m : Nat, m < n → (n : Int) ∣ a - m → m = imod a n) ∧
  (∀ (x : NUM) (l : Nat), 1 ≤ l →
    fmod .exact x l = x - (l : NUM) * ⌊x / (l : NUM)⌋ ∧ 0 ≤ fmod .exact x l ∧ fmod .exact x l < l) ∧
  ∀ x : NUM, ((roundNum .exact x : Int) : NUM) ≤ x + 1 / 2 ∧ x + 1 / 2 < (roundNum .exact x : NUM) + 1

/-- R9, R121: the shape functions over exact arithmetic. The sine has its rational values where R9 gives them and is at
most 1 in magnitude everywhere (its other values are free: log 3); sawtooth and pulse are as the table has them. -/
def Obligations.WaveformShapes : Prop :=
  ∀ i L : Nat, i < L →
    (2 * i = 0 ∨ 2 * i = L → shape .exact .sine i L = 0) ∧ (4 * i = L → shape .exact .sine i L = 1) ∧
    (4 * i = 3 * L → shape .exact .sine i L = -1) ∧ (12 * i = L ∨ 12 * i = 5 * L → shape .exact .sine i L = 1 / 2) ∧
    (12 * i = 7 * L ∨ 12 * i = 11 * L → shape .exact .sine i L = -1 / 2) ∧
    shape .exact .saw i L = 2 * (i : NUM) / L - 1 ∧ (2 * i < L → shape .exact .pulse i L = -1) ∧
    (L ≤ 2 * i → shape .exact .pulse i L = 1) ∧
    ∀ w, |shape .exact w i L| ≤ 1

/-! ## Commands that belong to no unit: `44_sys_io.md` -/

/-- R200: `SYS.NOP` does nothing and answers `Ok`. -/
def Obligations.NopDoesNothing : Prop :=
  ∀ (rest : List Slot) (s : State), decode (.word 0x00000000#32 :: rest) = .command .sysNop rest ∧
    exec .sysNop s = .next (s.done s.core .absent)

/-- R202: `IO.WRIN` writes one element of `IN` and no other, or is refused when the channel or the frame is outside. -/
def Obligations.WrinWritesOneSample : Prop :=
  (∀ (ch : BitVec 8) (n : BitVec 16) (x : NUM) (rest : List Slot),
    decode (.word (0x50#8 ++ ch ++ n) :: .num x :: rest) = .command (.ioWrin ch.toNat n.toNat x) rest) ∧
  ∀ (ch n : Nat) (x : NUM) (s : State),
    (s.params.maxCh ≤ ch ∨ s.params.blkMax ≤ n → exec (.ioWrin ch n x) s = .next (s.failed .invalidArguments)) ∧
    (ch < s.params.maxCh → n < s.params.blkMax → ∃ m,
      exec (.ioWrin ch n x) s = .next (s.done { s.core with inMem := m } .absent) ∧
      ∀ a, Memory.read m a = if a = (ch, n) then x else Memory.read s.core.inMem a)

/-- R203: `IO.RDOUT` answers one element of `OUT` and changes nothing, or is refused when out of range. -/
def Obligations.RdoutReadsOneSample : Prop :=
  (∀ (ch : BitVec 8) (n : BitVec 16) (rest : List Slot),
    decode (.word (0x51#8 ++ ch ++ n) :: rest) = .command (.ioRdout ch.toNat n.toNat) rest) ∧
  ∀ (ch n : Nat) (s : State),
    (s.params.maxCh ≤ ch ∨ s.params.blkMax ≤ n → exec (.ioRdout ch n) s = .next (s.failed .invalidArguments)) ∧
    (ch < s.params.maxCh → n < s.params.blkMax →
      exec (.ioRdout ch n) s = .next (s.done s.core (.num (Memory.read s.core.outMem (ch, n)))))

/-! ## Commands of one shape in several units -/

/-- R102, R124, R152, R173, R243: every unit reset, on an initialised unit and on an uninitialised one. All but
`LFO.RESET.KEEP` leave their unit in its reset state, and no other element of the state is touched. -/
def Obligations.UnitResets : Prop :=
  (∀ rest : List Slot, decode (.word 0x11000000#32 :: rest) = .command .rbReset rest ∧
    decode (.word 0x21000000#32 :: rest) = .command .lfoResetKeep rest ∧
    decode (.word 0x21010000#32 :: rest) = .command .lfoResetFree rest ∧
    decode (.word 0x31000000#32 :: rest) = .command .cfReset rest ∧
    decode (.word 0x41000000#32 :: rest) = .command .vibReset rest) ∧
  ∀ s : State,
    (s.core.rb0.init = true →
      exec .rbReset s = .next (s.done { s.core with rb0 := { init := false, N := 0, w := 0, r := 0, buf := [] } } .absent)) ∧
    (s.core.rb0.init = false → exec .rbReset s = .next (s.failed .notInitialized)) ∧
    (s.core.lfo0.init = true →
      exec .lfoResetFree s = .next (s.done { s.core with lfo0 := State.reset.core.lfo0 } .absent)) ∧
    (s.core.lfo0.init = true →
      exec .lfoResetKeep s = .next (s.done
        { s.core with lfo0 := { s.core.lfo0 with amp := 0, freq := 0, hop := 0, phase := 0, tab := [] } } .absent)) ∧
    (s.core.lfo0.init = false → exec .lfoResetFree s = .next (s.failed .notInitialized)) ∧
    (s.core.lfo0.init = false → exec .lfoResetKeep s = .next (s.failed .notInitialized)) ∧
    (s.core.cf.init = true → exec .cfReset s = .next (s.done { s.core with cf := State.reset.core.cf } .absent)) ∧
    (s.core.cf.init = false → exec .cfReset s = .next (s.failed .notInitialized)) ∧
    (s.core.vib.init = true → exec .vibReset s = .next (s.done { s.core with vib := State.reset.core.vib } .absent)) ∧
    (s.core.vib.init = false → exec .vibReset s = .next (s.failed .notInitialized))

/-- R35, R127, R128, R154, R156, R177, R178, R179: every parameter `GET` answers `Ok` with the register, or with 0 on an
uninitialised unit, and writes nothing. -/
def Obligations.ParameterReads : Prop :=
  (∀ rest : List Slot, decode (.word 0x23000000#32 :: rest) = .command .lfoGetamp rest ∧
    decode (.word 0x23010000#32 :: rest) = .command .lfoGetfreq rest ∧
    decode (.word 0x33000000#32 :: rest) = .command .cfGetgain rest ∧
    decode (.word 0x33010000#32 :: rest) = .command .cfGetdelay rest ∧
    decode (.word 0x43000000#32 :: rest) = .command .vibGetdelay rest ∧
    decode (.word 0x43010000#32 :: rest) = .command .vibGetfreq rest ∧
    decode (.word 0x43020000#32 :: rest) = .command .vibGetblock rest) ∧
  ∀ s : State,
    exec .lfoGetamp s = .next (s.done s.core (.num (if s.core.lfo0.init then s.core.lfo0.amp else 0))) ∧
    exec .lfoGetfreq s = .next (s.done s.core (.num (if s.core.lfo0.init then s.core.lfo0.freq else 0))) ∧
    exec .cfGetgain s = .next (s.done s.core (.num (if s.core.cf.init then s.core.cf.gain else 0))) ∧
    exec .cfGetdelay s = .next (s.done s.core (.num (if s.core.cf.init then s.core.cf.delaySec else 0))) ∧
    exec .vibGetdelay s = .next (s.done s.core (.num (if s.core.vib.init then s.core.vib.delaySec else 0))) ∧
    exec .vibGetfreq s = .next (s.done s.core (.num (if s.core.vib.init then s.core.vib.lfo.freq else 0))) ∧
    exec .vibGetblock s =
      .next (s.done s.core (.int (if s.core.vib.init then BitVec.ofInt 32 s.core.vib.blockSize else 0)))

/-- R130, R153, R176: the three commands that write one register, a `LFO.RESETPOS`, a `CF.SETGAIN` with any gain and a
`VIB.SETBLOCK` with any positive size: nothing else is touched, and they are refused on an uninitialised unit; a block size
below 1 is refused. -/
def Obligations.OneRegisterWrites : Prop :=
  (∀ rest : List Slot, decode (.word 0x25000000#32 :: rest) = .command .lfoResetpos rest) ∧
  (∀ (a : Slot) (rest : List Slot), decode (.word 0x32000000#32 :: a :: rest) = .command (.cfSetgain a.asNum) rest) ∧
  (∀ (a : Slot) (rest : List Slot), decode (.word 0x42020000#32 :: a :: rest) = .command (.vibSetblock a.asInt) rest) ∧
  ∀ (g : NUM) (n : Int) (s : State),
    (s.core.lfo0.init = false → exec .lfoResetpos s = .next (s.failed .notInitialized)) ∧
    (s.core.lfo0.init = true →
      exec .lfoResetpos s = .next (s.done { s.core with lfo0 := { s.core.lfo0 with phase := 0 } } .absent)) ∧
    (s.core.cf.init = false → exec (.cfSetgain g) s = .next (s.failed .notInitialized)) ∧
    (s.core.cf.init = true →
      exec (.cfSetgain g) s = .next (s.done { s.core with cf := { s.core.cf with gain := g } } .absent)) ∧
    (s.core.vib.init = false → exec (.vibSetblock n) s = .next (s.failed .notInitialized)) ∧
    (s.core.vib.init = true → n ≤ 0 → exec (.vibSetblock n) s = .next (s.failed .invalidArguments)) ∧
    (s.core.vib.init = true → 1 ≤ n →
      exec (.vibSetblock n) s = .next (s.done { s.core with vib := { s.core.vib with blockSize := n } } .absent))

/-! ## The ring buffer: `40_ringbuffer.md` -/

/-- R101: `RB.INIT`. -/
def Obligations.RbInitCreates : Prop :=
  (∀ (a : Slot) (rest : List Slot), decode (.word 0x10000000#32 :: a :: rest) = .command (.rbInit a.asInt) rest) ∧
  ∀ (n : Int) (s : State),
    (s.core.rb0.init = true → exec (.rbInit n) s = .next (s.failed .illegalCall)) ∧
    (s.core.rb0.init = false → n < 1 ∨ Exceeds s.params.rbMaxN n = true →
      exec (.rbInit n) s = .next (s.failed .invalidArguments)) ∧
    (s.core.rb0.init = false → 1 ≤ n → Exceeds s.params.rbMaxN n = false →
      exec (.rbInit n) s =
        .next (s.done { s.core with rb0 := { init := true, N := n.toNat, w := 0, r := 0, buf := [] } } .absent))

/-- R103: `RB.PUT` writes the element at `w` and no other, and moves `w`; `r` is untouched; it never fails for fullness. -/
def Obligations.RbPutWritesAtW : Prop :=
  (∀ (a : Slot) (rest : List Slot), decode (.word 0x12000000#32 :: a :: rest) = .command (.rbPut a.asNum) rest) ∧
  ∀ (x : NUM) (s : State),
    (s.core.rb0.init = false → exec (.rbPut x) s = .next (s.failed .notInitialized)) ∧
    (s.core.rb0.init = true → ∃ m,
      exec (.rbPut x) s = .next (s.done
        { s.core with rb0 := { s.core.rb0 with w := imod ((s.core.rb0.w : Int) + 1) s.core.rb0.N, buf := m } } .absent) ∧
      ∀ a, Memory.read m a = if a = (0, s.core.rb0.w) then x else Memory.read s.core.rb0.buf a)

/-- R104, R106: `RB.GETPI` answers the element at `r` and moves `r`, with `w` and the buffer untouched; `RB.GETWIDX` answers
the write cursor as a 32-bit integer and writes nothing. -/
def Obligations.RbCursorReads : Prop :=
  (∀ rest : List Slot, decode (.word 0x13000000#32 :: rest) = .command .rbGetpi rest ∧
    decode (.word 0x15000000#32 :: rest) = .command .rbGetwidx rest) ∧
  ∀ s : State,
    (s.core.rb0.init = false → exec .rbGetpi s = .next (s.failed .notInitialized)) ∧
    (s.core.rb0.init = true →
      exec .rbGetpi s = .next (s.done
        { s.core with rb0 := { s.core.rb0 with r := imod ((s.core.rb0.r : Int) + 1) s.core.rb0.N } }
        (.num (Memory.read s.core.rb0.buf (0, s.core.rb0.r))))) ∧
    (s.core.rb0.init = false → exec .rbGetwidx s = .next (s.failed .notInitialized)) ∧
    (s.core.rb0.init = true → exec .rbGetwidx s = .next (s.done s.core (.int (BitVec.ofInt 32 s.core.rb0.w))))

/-- R105, with the formula of R100: `RB.GET` answers the interpolation between lookbacks `floor(offset)` and
`floor(offset) + 1` for every offset, and moves no cursor. -/
def Obligations.RbGetInterpolates : Prop :=
  (∀ (a : Slot) (rest : List Slot), decode (.word 0x14000000#32 :: a :: rest) = .command (.rbGet a.asNum) rest) ∧
  ∀ (o : NUM) (s : State) (ν : Numerics), ν = s.params.numerics →
    (s.core.rb0.init = false → exec (.rbGet o) s = .next (s.failed .notInitialized)) ∧
    ∀ (k : Int) (f : NUM), s.core.rb0.init = true → k = ν.floor o → f = ν.sub o (ν.ofInt k) →
      exec (.rbGet o) s = .next (s.done s.core (.num (ν.add
        (ν.mul (ν.sub (ν.ofInt 1) f) (Memory.read s.core.rb0.buf (0, imod ((s.core.rb0.w : Int) - 1 - k) s.core.rb0.N)))
        (ν.mul f (Memory.read s.core.rb0.buf (0, imod ((s.core.rb0.w : Int) - 2 - k) s.core.rb0.N))))))

/-- R107: the properties of `rb_get` over exact arithmetic: it reads `w`, `N` and two elements; an integer offset is
exact; the latest put is lookback 0; between two neighbours, ends included, it is the affine mean, so it lies between them
and is continuous; it is circular with period `N`. -/
def Obligations.RbGetProperties : Prop :=
  ∀ b : RBState, 1 ≤ b.N →
    (∀ (d : RBState) (o : NUM), d.w = b.w → d.N = b.N → rbLookback d ⌊o⌋ = rbLookback b ⌊o⌋ →
      rbLookback d (⌊o⌋ + 1) = rbLookback b (⌊o⌋ + 1) → rbGet .exact d o = rbGet .exact b o) ∧
    (∀ k : Int, rbGet .exact b k = Memory.read b.buf (0, imod ((b.w : Int) - 1 - k) b.N)) ∧
    (b.w < b.N → ∀ v : NUM, rbGet .exact (rbPut b v) 0 = v) ∧
    (∀ (k : Int) (o : NUM), (k : NUM) ≤ o → o ≤ (k : NUM) + 1 →
      rbGet .exact b o = rbLookback b k + (o - k) * (rbLookback b (k + 1) - rbLookback b k) ∧
      min (rbLookback b k) (rbLookback b (k + 1)) ≤ rbGet .exact b o ∧
      rbGet .exact b o ≤ max (rbLookback b k) (rbLookback b (k + 1))) ∧
    ∀ o : NUM, rbGet .exact b (o + b.N) = rbGet .exact b o

/-- R65, R26: after `RB.INIT n` and any puts, lookback `j < n` is the `j`-th newest value put, or the 0 of creation when
fewer were put; the write cursor has gone round by their number; the read cursor has not moved. -/
def Obligations.LookbacksAreThePuts : Prop :=
  ∀ (n : Int) (vs : List NUM) (s : State), s.core.rb0.init = false → 1 ≤ n → Exceeds s.params.rbMaxN n = false →
    ∃ t, runProgram (.rbInit n :: vs.map .rbPut) s = .next t ∧
      t.core = { s.core with rb0 := t.core.rb0 } ∧ (t.core.rb0.N : Int) = n ∧ t.core.rb0.r = 0 ∧
      t.core.rb0.w = vs.length % t.core.rb0.N ∧
      (∀ j : Nat, (j : Int) < n → rbLookback t.core.rb0 j = vs.reverse.getD j 0) ∧
      ∀ k : Int, rbLookback t.core.rb0 (k + n) = rbLookback t.core.rb0 k

/-- R25: every step keeps the invariants of RB0: an initialised one has a capacity within its parameter, both cursors in
`[0, N)` and `N` elements; an uninitialised one is all zero. (That the elements are held in canonical form is the model's:
log 5.) -/
def Obligations.StepKeepsRingBuffer : Prop :=
  ∀ s t : State, RbInv s.params s.core.rb0 → step s = .next t → t.params = s.params ∧ RbInv t.params t.core.rb0

/-! ## The LFO: `41_lfo.md` -/

/-- R123: `LFO.INIT.SINE`, `LFO.INIT.SAW`, `LFO.INIT.PULSE`. Over exact arithmetic an accepted `n = ceil(fs / fref)` is at least
1, so that `L` is R123's; where the rounding of an implementation makes `n` negative, `L` is 0, which is the model's choice (log 1). -/
def Obligations.LfoInitCreates : Prop :=
  (∀ (a b : Slot) (rest : List Slot),
    decode (.word 0x20000000#32 :: a :: b :: rest) = .command (.lfoInitSine a.asNum b.asNum) rest ∧
    decode (.word 0x20010000#32 :: a :: b :: rest) = .command (.lfoInitSaw a.asNum b.asNum) rest ∧
    decode (.word 0x20020000#32 :: a :: b :: rest) = .command (.lfoInitPulse a.asNum b.asNum) rest) ∧
  ∀ (w : Waveform) (fref fs : NUM) (s : State) (ν : Numerics) (n : Int), ν = s.params.numerics → n = ν.ceil (ν.div fs fref) →
    (s.core.lfo0.init = true → exec (lfoInitOf w fref fs) s = .next (s.failed .illegalCall)) ∧
    (s.core.lfo0.init = false → ν.le fref 0 = true ∨ ν.le fs 0 = true →
      exec (lfoInitOf w fref fs) s = .next (s.failed .invalidArguments)) ∧
    (s.core.lfo0.init = false → ν.le fref 0 = false → ν.le fs 0 = false → Exceeds s.params.lfoMaxL n = true →
      exec (lfoInitOf w fref fs) s = .next (s.failed .invalidArguments)) ∧
    (s.core.lfo0.init = false → ν.le fref 0 = false → ν.le fs 0 = false → Exceeds s.params.lfoMaxL n = false →
      (s.params.num = .exact → 1 ≤ n) ∧
      exec (lfoInitOf w fref fs) s = .next (s.done
        { s.core with lfo0 := { init := true, wave := w, fref := fref, fs := fs, L := n.toNat, amp := 0,
                                freq := 0, hop := 0, phase := 0, tab := [] } } .absent))

/-- R125: `LFO.SETAMP` stores the amplitude and rewrites the whole table; frequency, hop and phase are untouched. -/
def Obligations.LfoSetampRebuildsTable : Prop :=
  (∀ (a : Slot) (rest : List Slot), decode (.word 0x22000000#32 :: a :: rest) = .command (.lfoSetamp a.asNum) rest) ∧
  ∀ (v : NUM) (s : State) (ν : Numerics), ν = s.params.numerics →
    (s.core.lfo0.init = false → exec (.lfoSetamp v) s = .next (s.failed .notInitialized)) ∧
    (s.core.lfo0.init = true → ∃ m,
      exec (.lfoSetamp v) s = .next (s.done { s.core with lfo0 := { s.core.lfo0 with amp := v, tab := m } } .absent) ∧
      (∀ i < s.core.lfo0.L, Memory.read m (0, i) = ν.mul (shape ν s.core.lfo0.wave i s.core.lfo0.L) v) ∧
      ∀ a, ¬ (a.1 = 0 ∧ a.2 < s.core.lfo0.L) → Memory.read m a = 0)

/-- R126: `LFO.SETFREQ` stores the frequency and the hop, or is refused with `IllegalCall` below the reference frequency. -/
def Obligations.LfoSetfreqSetsHop : Prop :=
  (∀ (a : Slot) (rest : List Slot), decode (.word 0x22010000#32 :: a :: rest) = .command (.lfoSetfreq a.asNum) rest) ∧
  ∀ (v : NUM) (s : State) (ν : Numerics), ν = s.params.numerics →
    (s.core.lfo0.init = false → exec (.lfoSetfreq v) s = .next (s.failed .notInitialized)) ∧
    (s.core.lfo0.init = true → ν.lt v s.core.lfo0.fref = true → exec (.lfoSetfreq v) s = .next (s.failed .illegalCall)) ∧
    (s.core.lfo0.init = true → ν.lt v s.core.lfo0.fref = false →
      exec (.lfoSetfreq v) s = .next (s.done
        { s.core with lfo0 := { s.core.lfo0 with freq := v, hop := ν.div v s.core.lfo0.fref } } .absent))

/-- R129: `LFO.GETVALUE` moves the phase by `hop`, wrapping at `L`, writes nothing else, and answers the interpolation
between bin `floor(phase)` and the next, wrapping at `L`. (A phase outside the table, which exact arithmetic never reaches
(R28), reads a free value: log 1.) -/
def Obligations.LfoGetvalueInterpolates : Prop :=
  (∀ rest : List Slot, decode (.word 0x24000000#32 :: rest) = .command .lfoGetvalue rest) ∧
  ∀ (s : State) (ν : Numerics), ν = s.params.numerics →
    (s.core.lfo0.init = false → exec .lfoGetvalue s = .next (s.failed .notInitialized)) ∧
    (s.core.lfo0.init = true → ∃ v,
      exec .lfoGetvalue s = .next (s.done
        { s.core with lfo0 := { s.core.lfo0 with
          phase := fmod ν (ν.add s.core.lfo0.phase s.core.lfo0.hop) s.core.lfo0.L } } (.num v)) ∧
      ∀ (i : Nat) (f : NUM), i < s.core.lfo0.L → (i : Int) = ν.floor s.core.lfo0.phase →
        f = ν.sub s.core.lfo0.phase (ν.ofInt i) →
        v = ν.add (ν.mul (ν.sub (ν.ofInt 1) f) (Memory.read s.core.lfo0.tab (0, i)))
          (ν.mul f (Memory.read s.core.lfo0.tab (0, imod ((i : Int) + 1) s.core.lfo0.L))))

/-- R131 (a), (b), (e), over exact arithmetic: the `k`-th of a row of `LFO.GETVALUE` after a phase of 0 reads at phase
`fmod(k * hop, L)`; at an integer phase the value is the table's element, so with `hop = 0` every value is `tab[0]`. -/
def Obligations.LfoValueSequence : Prop :=
  ∀ (n : Nat) (s : State), s.params.num = .exact → s.core.lfo0.init = true → s.core.lfo0.phase = 0 →
    1 ≤ s.core.lfo0.L →
    (∃ t, runProgram (List.replicate n .lfoGetvalue) s = .next t ∧
      t.rsp = s.rsp ++ (List.range n).map (fun k : Nat =>
        ⟨.ok, .num (lfoValue .exact { s.core.lfo0 with phase := fmod .exact (k * s.core.lfo0.hop) s.core.lfo0.L })⟩) ∧
      t.core = { s.core with lfo0 := { s.core.lfo0 with phase := fmod .exact (n * s.core.lfo0.hop) s.core.lfo0.L } }) ∧
    (∀ i : Nat, i < s.core.lfo0.L → lfoValue .exact { s.core.lfo0 with phase := i } = Memory.read s.core.lfo0.tab (0, i)) ∧
    (s.core.lfo0.hop = 0 → ∀ k : Nat,
      lfoValue .exact { s.core.lfo0 with phase := fmod .exact (k * s.core.lfo0.hop) s.core.lfo0.L } =
        Memory.read s.core.lfo0.tab (0, 0))

/-- R131 (c), (d), over exact arithmetic: the value of a legal LFO is at most `|amp|` in magnitude, for every waveform,
and half way across the wrap it is the mean of the last and the first element. -/
def Obligations.LfoValueIsBounded : Prop :=
  ∀ (bound : Option Nat) (l : LFOState), LfoLive bound l →
    |lfoValue .exact l| ≤ |l.amp| ∧
    (l.phase = (l.L : NUM) - 1 / 2 →
      lfoValue .exact l = (Memory.read l.tab (0, l.L - 1) + Memory.read l.tab (0, 0)) / 2)

/-- R28: over exact arithmetic every step keeps the invariants of LFO0: while initialised `tab[i] = shape(wave, i, L) *
amp`, `hop = freq / fref`, `0 ≤ phase < L`, `L = ceil(fs / fref) ≥ 1`; while not, every field is 0. (The canonical form of
the table is the model's: log 5.) -/
def Obligations.StepKeepsLfo : Prop :=
  ∀ s t : State, s.params.num = .exact → LfoInv s.params s.core.lfo0 → step s = .next t → LfoInv t.params t.core.lfo0

/-! ## The comb filter: `42_combfilter.md` -/

/-- R151: `CF.INIT.FIR` and `CF.INIT.IIR`. -/
def Obligations.CfInitCreates : Prop :=
  (∀ (a b c : Slot) (rest : List Slot),
    decode (.word 0x30000000#32 :: a :: b :: c :: rest) = .command (.cfInitFir a.asNum b.asNum c.asInt) rest ∧
    decode (.word 0x30010000#32 :: a :: b :: c :: rest) = .command (.cfInitIir a.asNum b.asNum c.asInt) rest) ∧
  ∀ (ft : FilterType) (d fs : NUM) (n cap : Int) (s : State) (ν : Numerics), ν = s.params.numerics →
    cap = ν.floor (ν.add (ν.mul fs d) (ν.div (ν.ofInt 1) (ν.ofInt 2))) →
    (s.core.cf.init = true → exec (cfInitOf ft d fs n) s = .next (s.failed .illegalCall)) ∧
    (s.core.cf.init = false →
      (n < 1 ∨ (s.params.maxCh : Int) < n ∨ ν.le fs 0 = true ∨ cap < 1 ∨ Exceeds s.params.cfMaxCap cap = true) →
      exec (cfInitOf ft d fs n) s = .next (s.failed .invalidArguments)) ∧
    (s.core.cf.init = false → 1 ≤ n → n ≤ s.params.maxCh → ν.le fs 0 = false → 1 ≤ cap →
      Exceeds s.params.cfMaxCap cap = false →
      exec (cfInitOf ft d fs n) s = .next (s.done
        { s.core with cf := { init := true, ftype := ft, fs := fs, maxDelaySec := d, C := n.toNat,
                              cap := cap.toNat, Ld := cap.toNat, delaySec := d, gain := 0,
                              head := 0, dly := [] } } .absent))

/-- R155, R160: `CF.SETDELAY` writes `delaySec` and `Ld` only, for a delay within the maximum that rounds to 1 or more. -/
def Obligations.CfSetdelaySetsLength : Prop :=
  (∀ (a : Slot) (rest : List Slot), decode (.word 0x32010000#32 :: a :: rest) = .command (.cfSetdelay a.asNum) rest) ∧
  ∀ (x : NUM) (n : Int) (s : State) (ν : Numerics), ν = s.params.numerics →
    n = ν.floor (ν.add (ν.mul x s.core.cf.fs) (ν.div (ν.ofInt 1) (ν.ofInt 2))) →
    (s.core.cf.init = false → exec (.cfSetdelay x) s = .next (s.failed .notInitialized)) ∧
    (s.core.cf.init = true → ν.lt s.core.cf.maxDelaySec x = true ∨ n < 1 →
      exec (.cfSetdelay x) s = .next (s.failed .invalidArguments)) ∧
    (s.core.cf.init = true → ν.lt s.core.cf.maxDelaySec x = false → 1 ≤ n →
      exec (.cfSetdelay x) s = .next (s.done
        { s.core with cf := { s.core.cf with delaySec := x, Ld := n.toNat } } .absent)) ∧
    (s.params.num = .exact → CfLive s.params s.core.cf → x ≤ s.core.cf.maxDelaySec → n ≤ s.core.cf.cap)

/-- R157, R66, R160: `CF.PROCESS` handles frames `0 .. frameCount - 1` in order and answers `Ok`; it writes `OUT` only on
the unit's channels at the frames handled, the delay elements and the head, and nothing else; 0 frames change nothing. -/
def Obligations.CfProcessHandlesFrames : Prop :=
  (∀ (a : Slot) (rest : List Slot), decode (.word 0x34000000#32 :: a :: rest) = .command (.cfProcess a.asInt) rest) ∧
  ∀ (n : Int) (s : State),
    (s.core.cf.init = false → exec (.cfProcess n) s = .next (s.failed .notInitialized)) ∧
    (s.core.cf.init = true → n < 0 ∨ (s.params.blkMax : Int) < n →
      exec (.cfProcess n) s = .next (s.failed .invalidArguments)) ∧
    (s.core.cf.init = true → 0 ≤ n → n ≤ s.params.blkMax → ∃ k : CoreState,
      exec (.cfProcess n) s = .next (s.done k .absent) ∧ k = (List.range n.toNat).foldl (cfFrame s.params.numerics) s.core ∧
      k = { s.core with outMem := k.outMem, cf := { s.core.cf with dly := k.cf.dly, head := k.cf.head } } ∧
      (∀ a, ¬ (a.1 < s.core.cf.C ∧ a.2 < n.toNat) → Memory.read k.outMem a = Memory.read s.core.outMem a) ∧
      (∀ a, s.core.cf.C ≤ a.1 → Memory.read k.cf.dly a = Memory.read s.core.cf.dly a) ∧
      (1 ≤ n → 1 ≤ s.core.cf.Ld → k.cf.head < s.core.cf.Ld))

/-- R158: the frame step. In every channel the output is `x + gain * d`, with `d` the delay element at the head before it is
overwritten; FIR stores the input there, IIR the output; then the head advances modulo `Ld`; no other element changes. -/
def Obligations.CfFrameStep : Prop :=
  ∀ (ν : Numerics) (k : CoreState) (n : Nat), ∃ out dly,
    cfFrame ν k n = { k with
      outMem := out, cf := { k.cf with dly := dly, head := imod ((k.cf.head : Int) + 1) k.cf.Ld } } ∧
    (∀ c p, Memory.read out (c, p) =
      if c < k.cf.C ∧ p = n then ν.add (Memory.read k.inMem (c, n)) (ν.mul k.cf.gain (Memory.read k.cf.dly (c, k.cf.head)))
      else Memory.read k.outMem (c, p)) ∧
    ∀ c p, Memory.read dly (c, p) =
      if c < k.cf.C ∧ p = k.cf.head then
        (if k.cf.ftype = .fir then Memory.read k.inMem (c, n) else Memory.read out (c, n))
      else Memory.read k.cf.dly (c, p)

/-- R159: the difference equations. Whatever came before, as long as `Ld` keeps one value `D` since `INIT`, each
`CF.PROCESS` gives `y[t] = x[t] + gain * x[t - D]` (FIR) or `y[t] = x[t] + gain * y[t - D]` (IIR), counting frames across
commands, with 0 before frame 0; what the delay line then holds is the stream, so the next command goes on from there; and
a fresh filter holds the empty stream. -/
def Obligations.CfDifferenceEquation : Prop :=
  (∀ (ft : FilterType) (d fs : NUM) (n : Int) (s t : State) (h : Nat → Nat → NUM), s.core.cf.init = false →
    exec (cfInitOf ft d fs n) s = .next t → t.core.cf.init = true → CfHolds h 0 t.core.cf) ∧
  ∀ (n : Int) (s : State) (x y : Nat → Nat → NUM) (t : Nat), s.core.cf.init = true → 0 ≤ n → n ≤ s.params.blkMax →
    CfHolds (if s.core.cf.ftype = .fir then x else y) t s.core.cf →
    (∀ c < s.core.cf.C, ∀ i < n.toNat, Memory.read s.core.inMem (c, i) = x c (t + i) ∧
      y c (t + i) = s.params.numerics.add (x c (t + i)) (s.params.numerics.mul s.core.cf.gain
        (past (if s.core.cf.ftype = .fir then x else y) c (t + i) s.core.cf.Ld))) →
    ∃ u, exec (.cfProcess n) s = .next u ∧
      (∀ c < s.core.cf.C, ∀ i < n.toNat, Memory.read u.core.outMem (c, i) = y c (t + i)) ∧
      CfHolds (if u.core.cf.ftype = .fir then x else y) (t + n.toNat) u.core.cf

/-- R159, and the document's "Idempotent silence", over exact arithmetic: with gain 0 the output is the input, for both
types; with every delay element 0 and all-zero input the output is all zero. -/
def Obligations.CfPassesThroughAndStaysSilent : Prop :=
  ∀ (n : Int) (s : State), s.params.num = .exact → s.core.cf.init = true → 0 ≤ n → n ≤ s.params.blkMax →
    ∃ u, exec (.cfProcess n) s = .next u ∧
      (s.core.cf.gain = 0 → ∀ c < s.core.cf.C, ∀ i < n.toNat,
        Memory.read u.core.outMem (c, i) = Memory.read s.core.inMem (c, i)) ∧
      ((∀ a, Memory.read s.core.cf.dly a = 0) → (∀ c < s.core.cf.C, ∀ i < n.toNat, Memory.read s.core.inMem (c, i) = 0) →
        (∀ c < s.core.cf.C, ∀ i < n.toNat, Memory.read u.core.outMem (c, i) = 0) ∧ ∀ a, Memory.read u.core.cf.dly a = 0)

/-- R31: over exact arithmetic every step keeps the invariants of CF, and its memory within `C` channels of `cap`
elements. -/
def Obligations.StepKeepsCombFilter : Prop :=
  ∀ s t : State, s.params.num = .exact → CfInv s.params s.core.cf → step s = .next t →
    CfInv t.params t.core.cf

/-! ## The vibrato: `43_vibrato.md` -/

/-- R171, R172: `VIB.INIT`. Over exact arithmetic, with `VIB_LFO_FREF` above 0, an accepted `m = ceil(maxDelaySec * fs)` and
`l = ceil(fs / VIB_LFO_FREF)` are not negative, so that `M`, `N` and the LFO's `L` are those of R171; where the rounding of an
implementation makes `m` or `l` negative, 0 stands for it in them, which is the model's choice (log 1). -/
def Obligations.VibInitCreates : Prop :=
  (∀ (a b c : Slot) (rest : List Slot),
    decode (.word 0x40000000#32 :: a :: b :: c :: rest) = .command (.vibInit a.asNum b.asNum c.asInt) rest) ∧
  ∀ (d fs : NUM) (n m l : Int) (s : State) (ν : Numerics), ν = s.params.numerics →
    m = ν.ceil (ν.mul d fs) → l = ν.ceil (ν.div fs s.params.vibLfoFref) →
    (s.core.vib.init = true → exec (.vibInit d fs n) s = .next (s.failed .illegalCall)) ∧
    (s.core.vib.init = false →
      (n < 1 ∨ (s.params.maxCh : Int) < n ∨ ν.le fs 0 = true ∨ ν.lt d 0 = true ∨
        Exceeds s.params.vibMaxN (2 * m + 2) = true ∨ Exceeds s.params.lfoMaxL l = true) →
      exec (.vibInit d fs n) s = .next (s.failed .invalidArguments)) ∧
    (s.core.vib.init = false → 1 ≤ n → n ≤ s.params.maxCh → ν.le fs 0 = false → ν.lt d 0 = false →
      Exceeds s.params.vibMaxN (2 * m + 2) = false → Exceeds s.params.lfoMaxL l = false →
      exec (.vibInit d fs n) s = .next (s.done
        { s.core with vib :=
          { init := true, fs := fs, maxDelaySec := d, C := n.toNat, M := m.toNat, N := 2 * m.toNat + 2,
            delaySec := 0, blockSize := 2 ^ 31 - 1, warmedUp := false,
            rb := List.replicate n.toNat { init := true, N := 2 * m.toNat + 2, w := 0, r := 0, buf := [] },
            lfo := { init := true, wave := s.params.vibWaveform, fref := s.params.vibLfoFref, fs := fs,
                     L := l.toNat, amp := 0, freq := 0, hop := 0, phase := 0, tab := [] } } }
        .absent))

/-- R174: `VIB.SETDELAY` stores the depth and sets the LFO's amplitude in samples, rewriting its table; a negative depth is
accepted; phase, frequency and rings are untouched. -/
def Obligations.VibSetdelaySetsAmplitude : Prop :=
  (∀ (a : Slot) (rest : List Slot), decode (.word 0x42000000#32 :: a :: rest) = .command (.vibSetdelay a.asNum) rest) ∧
  ∀ (x amp : NUM) (s : State) (ν : Numerics), ν = s.params.numerics → amp = ν.mul x s.core.vib.fs →
    (s.core.vib.init = false → exec (.vibSetdelay x) s = .next (s.failed .notInitialized)) ∧
    (s.core.vib.init = true → (s.core.vib.M : Int) < ν.ceil amp →
      exec (.vibSetdelay x) s = .next (s.failed .invalidArguments)) ∧
    (s.core.vib.init = true → ν.ceil amp ≤ s.core.vib.M → ∃ m,
      exec (.vibSetdelay x) s = .next (s.done
        { s.core with vib := { s.core.vib with
          delaySec := x, lfo := { s.core.vib.lfo with amp := amp, tab := m } } } .absent) ∧
      (∀ i < s.core.vib.lfo.L,
        Memory.read m (0, i) = ν.mul (shape ν s.core.vib.lfo.wave i s.core.vib.lfo.L) amp) ∧
      ∀ a, ¬ (a.1 = 0 ∧ a.2 < s.core.vib.lfo.L) → Memory.read m a = 0)

/-- R175: `VIB.SETFREQ` sets the LFO's frequency and hop, or is refused with `IllegalCall` below the LFO's floor. -/
def Obligations.VibSetfreqSetsHop : Prop :=
  (∀ (a : Slot) (rest : List Slot), decode (.word 0x42010000#32 :: a :: rest) = .command (.vibSetfreq a.asNum) rest) ∧
  ∀ (hz : NUM) (s : State) (ν : Numerics), ν = s.params.numerics →
    (s.core.vib.init = false → exec (.vibSetfreq hz) s = .next (s.failed .notInitialized)) ∧
    (s.core.vib.init = true → ν.lt hz s.core.vib.lfo.fref = true → exec (.vibSetfreq hz) s = .next (s.failed .illegalCall)) ∧
    (s.core.vib.init = true → ν.lt hz s.core.vib.lfo.fref = false →
      exec (.vibSetfreq hz) s = .next (s.done
        { s.core with vib := { s.core.vib with
          lfo := { s.core.vib.lfo with freq := hz, hop := ν.div hz s.core.vib.lfo.fref } } } .absent))

/-- R180, R66: `VIB.PROCESS` pre-rolls a cold unit, then handles frames `0 .. min(blockSize, frameCount) - 1` in order and
answers `Ok`; it writes `OUT` only on the unit's channels at the frames handled, the rings, the phase and `warmedUp`. -/
def Obligations.VibProcessHandlesFrames : Prop :=
  (∀ (a : Slot) (rest : List Slot), decode (.word 0x44000000#32 :: a :: rest) = .command (.vibProcess a.asInt) rest) ∧
  ∀ (n : Int) (s : State),
    (s.core.vib.init = false → exec (.vibProcess n) s = .next (s.failed .notInitialized)) ∧
    (s.core.vib.init = true → n < 0 ∨ (s.params.blkMax : Int) < n →
      exec (.vibProcess n) s = .next (s.failed .invalidArguments)) ∧
    (s.core.vib.init = true → 0 ≤ n → n ≤ s.params.blkMax → ∃ k : CoreState,
      exec (.vibProcess n) s = .next (s.done k .absent) ∧
      k = (List.range (min s.core.vib.blockSize n).toNat).foldl (vibFrame s.params.numerics)
        (if s.core.vib.warmedUp then s.core else { s.core with vib := vibPreroll s.core.vib }) ∧
      k = { s.core with
        outMem := k.outMem
        vib := { s.core.vib with
          warmedUp := true, rb := k.vib.rb, lfo := { s.core.vib.lfo with phase := k.vib.lfo.phase } } } ∧
      ∀ a, ¬ (a.1 < s.core.vib.C ∧ (a.2 : Int) < min s.core.vib.blockSize n) →
        Memory.read k.outMem a = Memory.read s.core.outMem a)

/-- R181: the pre-roll. In every channel the read cursor moves `N - M` positions and nothing else does; on the rings of
`INIT` it then stands at `M + 2` modulo `N`, `M` behind the write cursor; the unit is warm. -/
def Obligations.VibPrerollMovesReadCursors : Prop :=
  ∀ v : VIBState, v.rb.length = v.C → (∀ b ∈ v.rb, b.N = v.N ∧ b.r < v.N) →
    vibPreroll v = { v with rb := (vibPreroll v).rb, warmedUp := true } ∧ (vibPreroll v).rb.length = v.C ∧
    (∀ c < v.C, vibRingOf (vibPreroll v) c =
      { vibRingOf v c with r := imod (((vibRingOf v c).r : Int) + ((v.N - v.M : Nat) : Int)) v.N }) ∧
    (v.N = 2 * v.M + 2 → ∀ c < v.C, (vibRingOf v c).w = 0 → (vibRingOf v c).r = 0 →
      (vibRingOf (vibPreroll v) c).r = (v.M + 2) % v.N ∧
      imod (0 - ((vibRingOf (vibPreroll v) c).r : Int)) v.N = v.M)

/-- R182, R183: the frame step. One LFO value for all channels; in every channel the input is put, the output is the
interpolated read at `M + v` of the ring after that put, and the read cursor moves by one; no other element changes. -/
def Obligations.VibFrameStep : Prop :=
  ∀ (ν : Numerics) (k : CoreState) (i : Nat), k.vib.rb.length = k.vib.C → ∃ out rb,
    vibFrame ν k i = { k with
      outMem := out
      vib := { k.vib with
        rb := rb, lfo := { k.vib.lfo with phase := fmod ν (ν.add k.vib.lfo.phase k.vib.lfo.hop) k.vib.lfo.L } } } ∧
    rb.length = k.vib.C ∧
    (∀ c < k.vib.C, ∃ b, b = rbPut (vibRingOf k.vib c) (Memory.read k.inMem (c, i)) ∧
      rb.getD c RBState.reset = { b with r := imod ((b.r : Int) + 1) b.N } ∧
      Memory.read out (c, i) = rbGet ν b (ν.add (ν.ofInt k.vib.M) (lfoValue ν k.vib.lfo))) ∧
    ∀ a, ¬ (a.1 < k.vib.C ∧ a.2 = i) → Memory.read out a = Memory.read k.outMem a

/-- R184, with (a) block-size invariance: however the frames are split over commands, the output of frame `t` since `INIT`
is `(1 - f) * x[t - k] + f * x[t - k - 1]` for `k = floor(M + v[t])` and `f` the rest, as long as `0 ≤ k` and `k + 1 < N`
(over exact arithmetic this is `0 ≤ M + v[t] < N - 1`); what the rings then hold is the stream, so the next command goes
on from there; and a fresh vibrato holds the empty stream. -/
def Obligations.VibIsAModulatedDelay : Prop :=
  (∀ (d fs : NUM) (n : Int) (s t : State) (x : Nat → Nat → NUM), s.core.vib.init = false →
    exec (.vibInit d fs n) s = .next t → t.core.vib.init = true → VibHolds x 0 t.core.vib) ∧
  ∀ (n : Int) (s : State) (x : Nat → Nat → NUM) (t : Nat) (ν : Numerics), ν = s.params.numerics →
    s.core.vib.init = true → 0 ≤ n → n ≤ s.params.blkMax → VibHolds x t s.core.vib →
    (∀ c < s.core.vib.C, ∀ i : Nat, (i : Int) < min s.core.vib.blockSize n → Memory.read s.core.inMem (c, i) = x c (t + i)) →
    ∃ u, exec (.vibProcess n) s = .next u ∧ VibHolds x (t + (min s.core.vib.blockSize n).toNat) u.core.vib ∧
      u.core.vib.lfo = (lfoAdvance ν)^[(min s.core.vib.blockSize n).toNat] s.core.vib.lfo ∧
      ∀ c < s.core.vib.C, ∀ i : Nat, (i : Int) < min s.core.vib.blockSize n → ∀ (o f : NUM) (k : Nat),
        o = ν.add (ν.ofInt s.core.vib.M) (lfoValue ν ((lfoAdvance ν)^[i] s.core.vib.lfo)) → (k : Int) = ν.floor o →
        f = ν.sub o (ν.ofInt k) → k + 1 < s.core.vib.N →
        Memory.read u.core.outMem (c, i) =
          ν.add (ν.mul (ν.sub (ν.ofInt 1) f) (past x c (t + i) k)) (ν.mul f (past x c (t + i) (k + 1)))

/-- R184 (b), (c), of a legal vibrato over exact arithmetic: with a table of zeros the input comes out unchanged, `M`
frames late; all-zero input after all-zero input gives all-zero output, whatever the modulation. -/
def Obligations.VibPureDelayAndSilence : Prop :=
  ∀ (n : Int) (s : State) (x : Nat → Nat → NUM) (t : Nat), s.params.num = .exact → s.core.vib.init = true → 0 ≤ n →
    n ≤ s.params.blkMax → VibInv s.params s.core.vib → VibHolds x t s.core.vib →
    (∀ c < s.core.vib.C, ∀ i : Nat, (i : Int) < min s.core.vib.blockSize n → Memory.read s.core.inMem (c, i) = x c (t + i)) →
    ∃ u, exec (.vibProcess n) s = .next u ∧
      ((∀ a, Memory.read s.core.vib.lfo.tab a = 0) →
        ∀ c < s.core.vib.C, ∀ i : Nat, (i : Int) < min s.core.vib.blockSize n →
          Memory.read u.core.outMem (c, i) = past x c (t + i) s.core.vib.M) ∧
      ((∀ c j, x c j = 0) → ∀ c < s.core.vib.C, ∀ i : Nat, (i : Int) < min s.core.vib.blockSize n →
        Memory.read u.core.outMem (c, i) = 0)

/-- R184 (d), R254, over exact arithmetic: with an amplitude of at most `M` in magnitude the offset `M + v` of every frame
lies in `[0, 2 * M]`, below `N - 1`; from above the amplitude of a legal unit never exceeds `M`. -/
def Obligations.VibOffsetsStayInRange : Prop :=
  ∀ (p : Params) (v : VIBState), VibLive p v →
    v.lfo.amp ≤ v.M ∧
    (-(v.M : NUM) ≤ v.lfo.amp →
      0 ≤ (v.M : NUM) + lfoValue .exact v.lfo ∧ (v.M : NUM) + lfoValue .exact v.lfo ≤ 2 * v.M ∧
      2 * (v.M : NUM) < (v.N : NUM) - 1)

/-- R33: over exact arithmetic every step keeps the invariants of VIB: `N = 2 * M + 2`; every ring has capacity `N` and
the same cursors; the amplitude is `delaySec * fs`; a cold unit's rings are fresh; a warm unit's read cursor trails the
write cursor by `M`. -/
def Obligations.StepKeepsVibrato : Prop :=
  ∀ s t : State, s.params.num = .exact → ValidParams s.params → VibInv s.params s.core.vib → step s = .next t →
    VibInv t.params t.core.vib

/-! ## The whole machine -/

/-- R34, R60, R62: every step keeps `IN` and `OUT` within `MAX_CH` channels of `BLK_MAX` frames, and the channels of CF
and VIB within `MAX_CH`, in every numeric domain. (The canonical form of the memories is the model's: log 5.) -/
def Obligations.StepKeepsBlockMemories : Prop :=
  ∀ s t : State, BlocksInv s.params s.core → step s = .next t → BlocksInv t.params t.core

/-- The reset state is legal, with the reference parameters that the model chose for it (log 2) and with every setting of the
parameters within their ranges. -/
def Obligations.ResetIsLegal : Prop :=
  Inv State.reset ∧ ∀ p : Params, ValidParams p → Inv { State.reset with params := p }
end

