-- ==== Sys2Proof/Laws/State.lean ====
section
/-!
SUPPORT. One lemma per field per update of the state, true by rfl, so that no later proof unfolds a record update.
-/

namespace Sys2Proof.Machine

section done
variable (s : State) (c : CoreState) (v : Value)
@[simp] theorem done_params : (s.done c v).params = s.params := rfl
@[simp] theorem done_core : (s.done c v).core = c := rfl
@[simp] theorem done_rst : (s.done c v).rst = s.rst := rfl
@[simp] theorem done_rx : (s.done c v).rx = s.rx := rfl
@[simp] theorem done_cmd : (s.done c v).cmd = s.cmd := rfl
@[simp] theorem done_rsp : (s.done c v).rsp = s.rsp ++ [⟨.ok, v⟩] := rfl
@[simp] theorem done_cp : (s.done c v).cp = s.cp + 1 := by simp [State.cp]
end done

section failed
variable (s : State) (e : Status)
@[simp] theorem failed_params : (s.failed e).params = s.params := rfl
@[simp] theorem failed_core : (s.failed e).core = s.core := rfl
@[simp] theorem failed_rst : (s.failed e).rst = s.rst := rfl
@[simp] theorem failed_rx : (s.failed e).rx = s.rx := rfl
@[simp] theorem failed_cmd : (s.failed e).cmd = s.cmd := rfl
@[simp] theorem failed_rsp : (s.failed e).rsp = s.rsp ++ [⟨e, .absent⟩] := rfl
@[simp] theorem failed_cp : (s.failed e).cp = s.cp + 1 := by simp [State.cp]
end failed

section consumed
variable (s : State) (rest : List Slot)
@[simp] theorem consumed_params : (s.consumed rest).params = s.params := rfl
@[simp] theorem consumed_core : (s.consumed rest).core = s.core := rfl
@[simp] theorem consumed_rst : (s.consumed rest).rst = s.rst := rfl
@[simp] theorem consumed_rx : (s.consumed rest).rx = [] := rfl
@[simp] theorem consumed_cmd : (s.consumed rest).cmd = rest := rfl
@[simp] theorem consumed_rsp : (s.consumed rest).rsp = s.rsp := rfl
end consumed

section waiting
variable (s : State)
@[simp] theorem waitForSlots_params : (waitForSlots s).params = s.params := rfl
@[simp] theorem waitForSlots_core : (waitForSlots s).core = s.core := rfl
@[simp] theorem waitForSlots_rst : (waitForSlots s).rst = s.rst := rfl
@[simp] theorem waitForSlots_rx : (waitForSlots s).rx = s.pending := rfl
@[simp] theorem waitForSlots_cmd : (waitForSlots s).cmd = [] := rfl
@[simp] theorem waitForSlots_rsp : (waitForSlots s).rsp = s.rsp := rfl
@[simp] theorem waitForSlots_pending : (waitForSlots s).pending = s.pending := by simp [State.pending, waitForSlots]
@[simp] theorem powerOnReset_params : (powerOnReset s).params = s.params := rfl
@[simp] theorem powerOnReset_core : (powerOnReset s).core = CoreState.reset := rfl
@[simp] theorem powerOnReset_rst : (powerOnReset s).rst = s.rst := rfl
@[simp] theorem powerOnReset_rx : (powerOnReset s).rx = [] := rfl
@[simp] theorem powerOnReset_cmd : (powerOnReset s).cmd = s.cmd := rfl
@[simp] theorem powerOnReset_rsp : (powerOnReset s).rsp = s.rsp := rfl
end waiting

section send
variable (s : State) (slots : List Slot)
@[simp] theorem send_params : (s.send slots).params = s.params := rfl
@[simp] theorem send_core : (s.send slots).core = s.core := rfl
@[simp] theorem send_rst : (s.send slots).rst = s.rst := rfl
@[simp] theorem send_rx : (s.send slots).rx = s.rx := rfl
@[simp] theorem send_cmd : (s.send slots).cmd = s.cmd ++ slots := rfl
@[simp] theorem send_rsp : (s.send slots).rsp = s.rsp := rfl
@[simp] theorem send_pending : (s.send slots).pending = s.pending ++ slots := by simp [State.pending]
end send

section ring
variable (b : RBState) (v : NUM)
@[simp] theorem rbPut_init : (rbPut b v).init = b.init := rfl
@[simp] theorem rbPut_N : (rbPut b v).N = b.N := rfl
@[simp] theorem rbPut_w : (rbPut b v).w = imod ((b.w : Int) + 1) b.N := rfl
@[simp] theorem rbPut_r : (rbPut b v).r = b.r := rfl
@[simp] theorem rbPut_buf : (rbPut b v).buf = Memory.write b.buf (0, b.w) v := rfl
@[simp] theorem rbAdvance_init : (rbAdvance b).init = b.init := rfl
@[simp] theorem rbAdvance_N : (rbAdvance b).N = b.N := rfl
@[simp] theorem rbAdvance_w : (rbAdvance b).w = b.w := rfl
@[simp] theorem rbAdvance_r : (rbAdvance b).r = imod ((b.r : Int) + 1) b.N := rfl
@[simp] theorem rbAdvance_buf : (rbAdvance b).buf = b.buf := rfl
@[simp] theorem rbDestroy_eq : rbDestroy b = RBState.reset := rfl
end ring

section lfo
variable (ν : Numerics) (l : LFOState) (v : NUM)
@[simp] theorem lfoSetAmp_init : (lfoSetAmp ν l v).init = l.init := rfl
@[simp] theorem lfoSetAmp_wave : (lfoSetAmp ν l v).wave = l.wave := rfl
@[simp] theorem lfoSetAmp_fref : (lfoSetAmp ν l v).fref = l.fref := rfl
@[simp] theorem lfoSetAmp_fs : (lfoSetAmp ν l v).fs = l.fs := rfl
@[simp] theorem lfoSetAmp_L : (lfoSetAmp ν l v).L = l.L := rfl
@[simp] theorem lfoSetAmp_amp : (lfoSetAmp ν l v).amp = v := rfl
@[simp] theorem lfoSetAmp_freq : (lfoSetAmp ν l v).freq = l.freq := rfl
@[simp] theorem lfoSetAmp_hop : (lfoSetAmp ν l v).hop = l.hop := rfl
@[simp] theorem lfoSetAmp_phase : (lfoSetAmp ν l v).phase = l.phase := rfl
@[simp] theorem lfoSetFreq_init : (lfoSetFreq ν l v).init = l.init := rfl
@[simp] theorem lfoSetFreq_wave : (lfoSetFreq ν l v).wave = l.wave := rfl
@[simp] theorem lfoSetFreq_fref : (lfoSetFreq ν l v).fref = l.fref := rfl
@[simp] theorem lfoSetFreq_fs : (lfoSetFreq ν l v).fs = l.fs := rfl
@[simp] theorem lfoSetFreq_L : (lfoSetFreq ν l v).L = l.L := rfl
@[simp] theorem lfoSetFreq_amp : (lfoSetFreq ν l v).amp = l.amp := rfl
@[simp] theorem lfoSetFreq_freq : (lfoSetFreq ν l v).freq = v := rfl
@[simp] theorem lfoSetFreq_hop : (lfoSetFreq ν l v).hop = ν.div v l.fref := rfl
@[simp] theorem lfoSetFreq_phase : (lfoSetFreq ν l v).phase = l.phase := rfl
@[simp] theorem lfoSetFreq_tab : (lfoSetFreq ν l v).tab = l.tab := rfl
@[simp] theorem lfoAdvance_init : (lfoAdvance ν l).init = l.init := rfl
@[simp] theorem lfoAdvance_wave : (lfoAdvance ν l).wave = l.wave := rfl
@[simp] theorem lfoAdvance_fref : (lfoAdvance ν l).fref = l.fref := rfl
@[simp] theorem lfoAdvance_fs : (lfoAdvance ν l).fs = l.fs := rfl
@[simp] theorem lfoAdvance_L : (lfoAdvance ν l).L = l.L := rfl
@[simp] theorem lfoAdvance_amp : (lfoAdvance ν l).amp = l.amp := rfl
@[simp] theorem lfoAdvance_freq : (lfoAdvance ν l).freq = l.freq := rfl
@[simp] theorem lfoAdvance_hop : (lfoAdvance ν l).hop = l.hop := rfl
@[simp] theorem lfoAdvance_phase : (lfoAdvance ν l).phase = fmod ν (ν.add l.phase l.hop) l.L := rfl
@[simp] theorem lfoAdvance_tab : (lfoAdvance ν l).tab = l.tab := rfl
@[simp] theorem lfoResetPos_init : (lfoResetPos l).init = l.init := rfl
@[simp] theorem lfoResetPos_wave : (lfoResetPos l).wave = l.wave := rfl
@[simp] theorem lfoResetPos_fref : (lfoResetPos l).fref = l.fref := rfl
@[simp] theorem lfoResetPos_fs : (lfoResetPos l).fs = l.fs := rfl
@[simp] theorem lfoResetPos_L : (lfoResetPos l).L = l.L := rfl
@[simp] theorem lfoResetPos_amp : (lfoResetPos l).amp = l.amp := rfl
@[simp] theorem lfoResetPos_freq : (lfoResetPos l).freq = l.freq := rfl
@[simp] theorem lfoResetPos_hop : (lfoResetPos l).hop = l.hop := rfl
@[simp] theorem lfoResetPos_phase : (lfoResetPos l).phase = 0 := rfl
@[simp] theorem lfoResetPos_tab : (lfoResetPos l).tab = l.tab := rfl
@[simp] theorem lfoReset_free : lfoReset l true = LFOState.reset := rfl
end lfo

section frames
variable (ν : Numerics) (n c : Nat) (v : NUM) (k : CoreState)
@[simp] theorem cfChannel_rb0 : (cfChannel ν n k c).rb0 = k.rb0 := rfl
@[simp] theorem cfChannel_lfo0 : (cfChannel ν n k c).lfo0 = k.lfo0 := rfl
@[simp] theorem cfChannel_vib : (cfChannel ν n k c).vib = k.vib := rfl
@[simp] theorem cfChannel_inMem : (cfChannel ν n k c).inMem = k.inMem := rfl
@[simp] theorem cfChannel_cf_init : (cfChannel ν n k c).cf.init = k.cf.init := rfl
@[simp] theorem cfChannel_cf_ftype : (cfChannel ν n k c).cf.ftype = k.cf.ftype := rfl
@[simp] theorem cfChannel_cf_fs : (cfChannel ν n k c).cf.fs = k.cf.fs := rfl
@[simp] theorem cfChannel_cf_maxDelaySec : (cfChannel ν n k c).cf.maxDelaySec = k.cf.maxDelaySec := rfl
@[simp] theorem cfChannel_cf_C : (cfChannel ν n k c).cf.C = k.cf.C := rfl
@[simp] theorem cfChannel_cf_cap : (cfChannel ν n k c).cf.cap = k.cf.cap := rfl
@[simp] theorem cfChannel_cf_Ld : (cfChannel ν n k c).cf.Ld = k.cf.Ld := rfl
@[simp] theorem cfChannel_cf_delaySec : (cfChannel ν n k c).cf.delaySec = k.cf.delaySec := rfl
@[simp] theorem cfChannel_cf_gain : (cfChannel ν n k c).cf.gain = k.cf.gain := rfl
@[simp] theorem cfChannel_cf_head : (cfChannel ν n k c).cf.head = k.cf.head := rfl
@[simp] theorem vibChannel_rb0 : (vibChannel ν n v k c).rb0 = k.rb0 := rfl
@[simp] theorem vibChannel_lfo0 : (vibChannel ν n v k c).lfo0 = k.lfo0 := rfl
@[simp] theorem vibChannel_cf : (vibChannel ν n v k c).cf = k.cf := rfl
@[simp] theorem vibChannel_inMem : (vibChannel ν n v k c).inMem = k.inMem := rfl
@[simp] theorem vibChannel_vib_init : (vibChannel ν n v k c).vib.init = k.vib.init := rfl
@[simp] theorem vibChannel_vib_fs : (vibChannel ν n v k c).vib.fs = k.vib.fs := rfl
@[simp] theorem vibChannel_vib_maxDelaySec : (vibChannel ν n v k c).vib.maxDelaySec = k.vib.maxDelaySec := rfl
@[simp] theorem vibChannel_vib_C : (vibChannel ν n v k c).vib.C = k.vib.C := rfl
@[simp] theorem vibChannel_vib_M : (vibChannel ν n v k c).vib.M = k.vib.M := rfl
@[simp] theorem vibChannel_vib_N : (vibChannel ν n v k c).vib.N = k.vib.N := rfl
@[simp] theorem vibChannel_vib_delaySec : (vibChannel ν n v k c).vib.delaySec = k.vib.delaySec := rfl
@[simp] theorem vibChannel_vib_blockSize : (vibChannel ν n v k c).vib.blockSize = k.vib.blockSize := rfl
@[simp] theorem vibChannel_vib_warmedUp : (vibChannel ν n v k c).vib.warmedUp = k.vib.warmedUp := rfl
@[simp] theorem vibChannel_vib_lfo : (vibChannel ν n v k c).vib.lfo = k.vib.lfo := rfl
end frames

end Sys2Proof.Machine
end

