-- ==== Sys2Proof/Laws/Memory.lean ====
section
/-!
SUPPORT. The laws of the memories: reading after writing, the canonical form, and that it makes equal memories equal
data.
-/

namespace Sys2Proof.Machine

@[simp] theorem unlisted_eq : Memory.unlisted = 0 := rfl

@[simp] theorem read_nil (a : Index) : Memory.read [] a = 0 := rfl

theorem before_iff (a b : Index) : Index.before a b = true ↔ a.1 < b.1 ∨ (a.1 = b.1 ∧ a.2 < b.2) := by
  simp [Index.before]

theorem before_irrefl (a : Index) : Index.before a a = false := by simp [Index.before]

theorem before_trans {a b c : Index} (hab : Index.before a b = true) (hbc : Index.before b c = true) :
    Index.before a c = true := by
  rw [before_iff] at *; omega

theorem before_total {a b : Index} (hne : a ≠ b) (h : Index.before a b = false) : Index.before b a = true := by
  have h' : ¬ (a.1 < b.1 ∨ (a.1 = b.1 ∧ a.2 < b.2)) := by rw [← before_iff]; simp [h]
  have : ¬ (a.1 = b.1 ∧ a.2 = b.2) := fun e => hne (Prod.ext e.1 e.2)
  rw [before_iff]; omega

theorem read_erase (m : Memory) (a b : Index) : Memory.read (Memory.erase m a) b = if b = a then 0 else Memory.read m b := by
  induction m with
  | nil => simp [Memory.erase]
  | cons c m ih =>
    obtain ⟨d, u⟩ := c
    by_cases h : a = d <;> by_cases h' : b = d <;> simp_all [Memory.erase, Memory.read]
    intro e; exact absurd e.symm (by simpa using h)

theorem read_place_same (m : Memory) (a : Index) (v : NUM) (h : ∀ c ∈ m, c.1 ≠ a) :
    Memory.read (Memory.place m a v) a = v := by
  induction m with
  | nil => simp [Memory.place, Memory.read]
  | cons c m ih =>
    obtain ⟨d, u⟩ := c
    have hd : a ≠ d := fun e => h (d, u) (by simp) e.symm
    have hm : ∀ c ∈ m, c.1 ≠ a := fun c hc => h c (by simp [hc])
    by_cases hb : Index.before a d = true
    · simp [Memory.place, hb, Memory.read]
    · simp [Memory.place, hb, Memory.read, hd, ih hm]

theorem read_place_other (m : Memory) (a b : Index) (v : NUM) (h : b ≠ a) :
    Memory.read (Memory.place m a v) b = Memory.read m b := by
  induction m with
  | nil => simp [Memory.place, Memory.read, h]
  | cons c m ih =>
    obtain ⟨d, u⟩ := c
    by_cases hb : Index.before a d = true
    · simp [Memory.place, hb, Memory.read, h]
    · by_cases hd : b = d <;> simp [Memory.place, hb, Memory.read, hd, ih]

theorem erase_sub (m : Memory) (a : Index) (c : Index × NUM) (hc : c ∈ Memory.erase m a) : c ∈ m ∧ c.1 ≠ a := by
  induction m with
  | nil => simp [Memory.erase] at hc
  | cons d m ih =>
    obtain ⟨e, u⟩ := d
    by_cases h : a = e
    · simp only [Memory.erase, h, if_true] at hc
      subst h
      exact ⟨List.mem_cons_of_mem _ (ih hc).1, (ih hc).2⟩
    · simp only [Memory.erase, h, if_false, List.mem_cons] at hc
      rcases hc with rfl | hc
      · exact ⟨by simp, fun e => h e.symm⟩
      · exact ⟨List.mem_cons_of_mem _ (ih hc).1, (ih hc).2⟩

/-- Reading after writing, for every memory: the written element reads as written, every other as before. -/
@[simp] theorem read_write (m : Memory) (a b : Index) (v : NUM) :
    Memory.read (Memory.write m a v) b = if b = a then v else Memory.read m b := by
  have hfresh : ∀ c ∈ Memory.erase m a, c.1 ≠ a := fun c hc => (erase_sub m a c hc).2
  by_cases hv : v = 0 <;> by_cases hb : b = a
  · simp [Memory.write, hv, read_erase, hb]
  · simp [Memory.write, hv, read_erase, hb]
  · subst hb; simp [Memory.write, hv, read_place_same _ _ _ hfresh]
  · simp [Memory.write, hv, read_place_other _ _ _ _ hb, read_erase, hb]

theorem read_write_same (m : Memory) (a : Index) (v : NUM) : Memory.read (Memory.write m a v) a = v := by simp

theorem read_write_other (m : Memory) {a b : Index} (v : NUM) (h : b ≠ a) :
    Memory.read (Memory.write m a v) b = Memory.read m b := by simp [h]

/-! ### The canonical form -/

theorem wf_cons (a : Index) (v : NUM) (m : Memory) :
    Memory.wf ((a, v) :: m) = true ↔ v ≠ 0 ∧ (∀ c ∈ m, Index.before a c.1 = true) ∧ Memory.wf m = true := by
  rw [Memory.wf, Bool.and_eq_true, Bool.and_eq_true, decide_eq_true_iff, List.all_eq_true, and_assoc]
  rfl

theorem wf_erase (m : Memory) (a : Index) (h : Memory.wf m = true) : Memory.wf (Memory.erase m a) = true := by
  induction m with
  | nil => simp [Memory.erase, Memory.wf]
  | cons c m ih =>
    obtain ⟨d, u⟩ := c
    obtain ⟨hu, hlt, hm⟩ := (wf_cons d u m).mp h
    by_cases had : a = d
    · simpa [Memory.erase, had] using (had ▸ ih hm)
    · simp only [Memory.erase, had, if_false]
      exact (wf_cons d u _).mpr ⟨hu, fun c hc => hlt c (erase_sub m a c hc).1, ih hm⟩

theorem mem_place (m : Memory) (a : Index) (v : NUM) (c : Index × NUM) :
    c ∈ Memory.place m a v ↔ c = (a, v) ∨ c ∈ m := by
  induction m with
  | nil => simp [Memory.place]
  | cons d m ih =>
    obtain ⟨e, u⟩ := d
    by_cases hb : Index.before a e = true
    · simp [Memory.place, hb]
    · simp only [Memory.place, hb]
      simp only [Bool.false_eq_true, if_false, List.mem_cons, ih]
      tauto

theorem wf_place (m : Memory) (a : Index) (v : NUM) (hv : v ≠ 0) (hfresh : ∀ c ∈ m, c.1 ≠ a)
    (h : Memory.wf m = true) : Memory.wf (Memory.place m a v) = true := by
  induction m with
  | nil => simp [Memory.place, Memory.wf, hv]
  | cons c m ih =>
    obtain ⟨d, u⟩ := c
    obtain ⟨hu, hlt, hm⟩ := (wf_cons d u m).mp h
    by_cases hb : Index.before a d = true
    · simp only [Memory.place, hb, if_true]
      refine (wf_cons a v _).mpr ⟨hv, ?_, h⟩
      intro c hc
      rcases List.mem_cons.mp hc with rfl | hc
      · exact hb
      · exact before_trans hb (hlt c hc)
    · have hda : Index.before d a = true :=
        before_total (fun e => hfresh (d, u) (by simp) e.symm) (by simpa using hb)
      simp only [Memory.place, hb]
      refine (wf_cons d u _).mpr ⟨hu, ?_, ih (fun c hc => hfresh c (by simp [hc])) hm⟩
      intro c hc
      rcases (mem_place m a v c).mp hc with rfl | hc
      · exact hda
      · exact hlt c hc

/-- Every write keeps the canonical form. -/
theorem wf_write (m : Memory) (a : Index) (v : NUM) (h : Memory.wf m = true) :
    Memory.wf (Memory.write m a v) = true := by
  by_cases hv : v = 0
  · simpa [Memory.write, hv] using wf_erase m a h
  · simpa [Memory.write, hv] using
      wf_place _ a v hv (fun c hc => (erase_sub m a c hc).2) (wf_erase m a h)

@[simp] theorem wf_nil : Memory.wf [] = true := rfl

theorem within_iff (m : Memory) (C n : Nat) :
    Memory.within m C n = true ↔ ∀ c ∈ m, c.1.1 < C ∧ c.1.2 < n := by
  simp [Memory.within]

@[simp] theorem within_nil (C n : Nat) : Memory.within [] C n = true := rfl

/-- A write inside the extent keeps the extent. -/
theorem within_write (m : Memory) (C n : Nat) (a : Index) (v : NUM) (h : Memory.within m C n = true)
    (ha : a.1 < C ∧ a.2 < n) : Memory.within (Memory.write m a v) C n = true := by
  rw [within_iff] at *
  intro c hc
  by_cases hv : v = 0
  · simp only [Memory.write, hv, unlisted_eq, if_true] at hc
    exact h c (erase_sub m a c hc).1
  · simp only [Memory.write, hv, unlisted_eq, if_false] at hc
    rcases (mem_place _ a v c).mp hc with rfl | hc
    · exact ha
    · exact h c (erase_sub m a c hc).1

theorem within_mono {m : Memory} {C n C' n' : Nat} (h : Memory.within m C n = true) (hC : C ≤ C') (hn : n ≤ n') :
    Memory.within m C' n' = true := by
  rw [within_iff] at *
  intro c hc
  have := h c hc
  omega

/-- Outside its extent a memory reads as 0. -/
theorem read_outside {m : Memory} {C n : Nat} (h : Memory.within m C n = true) (a : Index)
    (ha : ¬ (a.1 < C ∧ a.2 < n)) : Memory.read m a = 0 := by
  induction m with
  | nil => rfl
  | cons c m ih =>
    obtain ⟨d, u⟩ := c
    rw [within_iff] at h
    have hd := h (d, u) (by simp)
    have hne : a ≠ d := fun e => ha (e ▸ hd)
    have hm : Memory.within m C n = true := (within_iff m C n).mpr fun c hc => h c (by simp [hc])
    simp [Memory.read, hne, ih hm]

theorem read_below (m : Memory) (a : Index) (h : ∀ c ∈ m, Index.before a c.1 = true) : Memory.read m a = 0 := by
  induction m with
  | nil => rfl
  | cons c m ih =>
    obtain ⟨d, u⟩ := c
    have hd := h (d, u) (by simp)
    have hne : a ≠ d := fun e => by simp [e, before_irrefl] at hd
    simp [Memory.read, hne, ih (fun c hc => h c (by simp [hc]))]

/-- In canonical form equal memories are equal data. -/
theorem wf_ext {m m' : Memory} (h : Memory.wf m = true) (h' : Memory.wf m' = true)
    (e : ∀ a, Memory.read m a = Memory.read m' a) : m = m' := by
  induction m generalizing m' with
  | nil =>
    cases m' with
    | nil => rfl
    | cons c m' =>
      obtain ⟨d, u⟩ := c
      exact absurd (by simpa [Memory.read] using (e d).symm) ((wf_cons d u m').mp h').1
  | cons c m ih =>
    obtain ⟨a, v⟩ := c
    obtain ⟨hv, hlt, hm⟩ := (wf_cons a v m).mp h
    cases m' with
    | nil => exact absurd (by simpa [Memory.read] using e a) hv
    | cons c' m' =>
      obtain ⟨d, u⟩ := c'
      obtain ⟨hu, hlt', hm'⟩ := (wf_cons d u m').mp h'
      have had : a = d := by
        by_contra hne
        rcases Bool.eq_false_or_eq_true (Index.before a d) with hb | hb
        · have h0 : Memory.read ((d, u) :: m') a = 0 :=
            read_below _ a fun c hc => by
              rcases List.mem_cons.mp hc with rfl | hc
              · exact hb
              · exact before_trans hb (hlt' c hc)
          have := e a; rw [h0] at this; exact hv (by simpa [Memory.read] using this)
        · have hb' := before_total hne hb
          have h0 : Memory.read ((a, v) :: m) d = 0 :=
            read_below _ d fun c hc => by
              rcases List.mem_cons.mp hc with rfl | hc
              · exact hb'
              · exact before_trans hb' (hlt c hc)
          have := e d; rw [h0] at this; exact hu (by simpa [Memory.read] using this.symm)
      subst had
      have huv : v = u := by simpa [Memory.read] using e a
      subst huv
      rw [ih hm hm' fun b => ?_]
      by_cases hb : b = a
      · subst hb; rw [read_below m b hlt, read_below m' b hlt']
      · simpa [Memory.read, hb] using e b

/-! ### A whole table written -/

theorem mem_tabulate (n : Nat) (f : Nat → NUM) (c : Index × NUM) :
    c ∈ Memory.tabulate n f ↔ ∃ i < n, f i ≠ 0 ∧ c = ((0, i), f i) := by
  simp only [Memory.tabulate, List.mem_filterMap, List.mem_range, unlisted_eq]
  constructor
  · rintro ⟨i, hi, h⟩
    by_cases hf : f i = 0
    · simp [hf] at h
    · simp only [hf, if_false, Option.some.injEq] at h
      exact ⟨i, hi, hf, h.symm⟩
  · rintro ⟨i, hi, hf, rfl⟩
    exact ⟨i, hi, by simp [hf]⟩

theorem tabulate_succ (n : Nat) (f : Nat → NUM) :
    Memory.tabulate (n + 1) f = Memory.tabulate n f ++ (if f n = 0 then [] else [((0, n), f n)]) := by
  by_cases h : f n = 0 <;> simp [Memory.tabulate, List.range_succ, h]

theorem read_append (m m' : Memory) (a : Index) :
    Memory.read (m ++ m') a = if (∃ c ∈ m, c.1 = a) then Memory.read m a else Memory.read m' a := by
  induction m with
  | nil => simp
  | cons c m ih =>
    obtain ⟨d, u⟩ := c
    by_cases h : a = d
    · simp [Memory.read, h]
    · have hiff : (∃ c ∈ (d, u) :: m, c.1 = a) ↔ ∃ c ∈ m, c.1 = a := by
        simp [show ¬ d = a from fun e => h e.symm]
      have hread : ∀ m'' : Memory, Memory.read ((d, u) :: m'') a = Memory.read m'' a := fun m'' => by
        simp [Memory.read, h]
      rw [if_congr hiff rfl rfl, hread m, ← ih]
      exact hread (m ++ m')

/-- Element `i` of a table reads as it was written; there is nothing past the end. -/
theorem read_tabulate (n : Nat) (f : Nat → NUM) (i : Nat) :
    Memory.read (Memory.tabulate n f) (0, i) = if i < n then f i else 0 := by
  induction n with
  | zero => simp [Memory.tabulate]
  | succ n ih =>
    rw [tabulate_succ, read_append]
    by_cases h : ∃ c ∈ Memory.tabulate n f, c.1 = (0, i)
    · obtain ⟨c, hc, hi⟩ := h
      have hc' := hc
      rw [mem_tabulate] at hc'
      obtain ⟨j, hj, -, rfl⟩ := hc'
      simp only [Prod.mk.injEq, true_and] at hi
      subst hi
      rw [if_pos ⟨_, hc, rfl⟩, ih, if_pos hj, if_pos (by omega)]
    · rw [if_neg h]
      by_cases hin : i = n
      · subst hin
        by_cases hf : f i = 0 <;> simp [hf, Memory.read]
      · have h0 : (if i < n then f i else 0) = if i < n + 1 then f i else 0 := by
          by_cases hi : i < n
          · simp [hi, show i < n + 1 by omega]
          · simp [hi, show ¬ i < n + 1 by omega]
        rw [← h0]
        by_cases hi : i < n
        · have hf : f i = 0 := by
            by_contra hf
            exact h ⟨_, (mem_tabulate n f _).mpr ⟨i, hi, hf, rfl⟩, rfl⟩
          by_cases hfn : f n = 0 <;> simp [hi, hf, hfn, Memory.read, hin]
        · by_cases hfn : f n = 0 <;> simp [hi, hfn, Memory.read, hin]

theorem within_tabulate (n : Nat) (f : Nat → NUM) : Memory.within (Memory.tabulate n f) 1 n = true := by
  rw [within_iff]
  intro c hc
  obtain ⟨i, hi, -, rfl⟩ := (mem_tabulate n f c).mp hc
  exact ⟨by simp, hi⟩

theorem wf_append_last (m : Memory) (a : Index) (v : NUM) (h : Memory.wf m = true) (hv : v ≠ 0)
    (hlt : ∀ c ∈ m, Index.before c.1 a = true) : Memory.wf (m ++ [(a, v)]) = true := by
  induction m with
  | nil => simp [Memory.wf, hv]
  | cons c m ih =>
    obtain ⟨d, u⟩ := c
    obtain ⟨hu, hd, hm⟩ := (wf_cons d u m).mp h
    refine (wf_cons d u _).mpr ⟨hu, ?_, ih hm fun c hc => hlt c (by simp [hc])⟩
    intro c hc
    rcases List.mem_append.mp hc with hc | hc
    · exact hd c hc
    · simp only [List.mem_singleton] at hc
      subst hc
      exact hlt (d, u) (by simp)

theorem wf_tabulate (n : Nat) (f : Nat → NUM) : Memory.wf (Memory.tabulate n f) = true := by
  induction n with
  | zero => rfl
  | succ n ih =>
    rw [tabulate_succ]
    by_cases hf : f n = 0
    · simpa [hf] using ih
    · simp only [hf, if_false]
      refine wf_append_last _ _ _ ih hf fun c hc => ?_
      obtain ⟨i, hi, -, rfl⟩ := (mem_tabulate n f c).mp hc
      simp [Index.before, hi]

end Sys2Proof.Machine
end

