-- ==== Sys2Proof/Laws/Num.lean ====
section
/-!
SUPPORT. The laws of the numeric primitives (`00_scope.md` R6 to R9), of the shape functions and of interpolation.
-/

namespace Sys2Proof.Machine

/-! ### Exact arithmetic: the operations of the reference domain (R5) -/

@[simp] theorem exact_add (x y : NUM) : Numerics.exact.add x y = x + y := rfl

@[simp] theorem exact_sub (x y : NUM) : Numerics.exact.sub x y = x - y := rfl

@[simp] theorem exact_mul (x y : NUM) : Numerics.exact.mul x y = x * y := rfl

@[simp] theorem exact_div (x y : NUM) : Numerics.exact.div x y = x / y := rfl

@[simp] theorem exact_lt (x y : NUM) : Numerics.exact.lt x y = decide (x < y) := rfl

@[simp] theorem exact_le (x y : NUM) : Numerics.exact.le x y = decide (x ≤ y) := rfl

@[simp] theorem exact_floor (x : NUM) : Numerics.exact.floor x = floorNum x := rfl

@[simp] theorem exact_ceil (x : NUM) : Numerics.exact.ceil x = ceilNum x := rfl

@[simp] theorem exact_ofInt (n : Int) : Numerics.exact.ofInt n = (n : NUM) := rfl

@[simp] theorem exact_sinTurn (i L : Nat) : Numerics.exact.sinTurn i L = sinTurn i L := rfl

@[simp] theorem ofInt_zero (ν : Numerics) : ν.ofInt 0 = 0 := ν.ofInt_zero

/-- A machine whose parameter `NUM` is the reference computes exactly. -/
theorem numerics_exact {p : Params} (h : p.num = .exact) : p.numerics = .exact := by
  simp [Params.numerics, h, NumDomain.numerics]

@[simp] theorem numerics_reference : Params.reference.numerics = .exact := rfl

theorem roundNum_exact (x : NUM) : roundNum .exact x = floorNum (x + 1 / 2) := by simp [roundNum]

theorem fmod_exact (x : NUM) (l : Nat) : fmod .exact x l = x - (l : NUM) * (floorNum (x / (l : NUM)) : NUM) := by
  simp [fmod]

theorem lerp_exact (f a b : NUM) : lerp .exact f a b = (1 - f) * a + f * b := by simp [lerp]

theorem shape_saw_exact (i L : Nat) : shape .exact .saw i L = 2 * (i : NUM) / (L : NUM) - 1 := by simp [shape]

/-! ### floor, ceil, round -/

theorem floorNum_le (x : NUM) : (floorNum x : NUM) ≤ x := Int.floor_le x

theorem lt_floorNum_add_one (x : NUM) : x < (floorNum x : NUM) + 1 := Int.lt_floor_add_one x

@[simp] theorem floorNum_intCast (k : Int) : floorNum (k : NUM) = k := Int.floor_intCast k

@[simp] theorem floorNum_natCast (k : Nat) : floorNum (k : NUM) = k := Int.floor_natCast k

@[simp] theorem floorNum_zero : floorNum 0 = 0 := Int.floor_zero

theorem floorNum_add_intCast (x : NUM) (k : Int) : floorNum (x + (k : NUM)) = floorNum x + k := Int.floor_add_intCast x k

theorem floorNum_eq_iff (x : NUM) (k : Int) : floorNum x = k ↔ (k : NUM) ≤ x ∧ x < (k : NUM) + 1 := Int.floor_eq_iff

theorem floorNum_nonneg {x : NUM} (h : 0 ≤ x) : 0 ≤ floorNum x := Int.floor_nonneg.mpr h

theorem floorNum_lt_iff (x : NUM) (k : Int) : floorNum x < k ↔ x < (k : NUM) := Int.floor_lt

theorem le_ceilNum (x : NUM) : x ≤ (ceilNum x : NUM) := Int.le_ceil x

theorem ceilNum_le_iff (x : NUM) (k : Int) : ceilNum x ≤ k ↔ x ≤ (k : NUM) := Int.ceil_le

theorem ceilNum_pos {x : NUM} (h : 0 < x) : 0 < ceilNum x := Int.ceil_pos.mpr h

theorem ceilNum_nonneg {x : NUM} (h : 0 ≤ x) : 0 ≤ ceilNum x := Int.ceil_nonneg h

@[simp] theorem ceilNum_zero : ceilNum 0 = 0 := Int.ceil_zero

theorem roundNum_mono {x y : NUM} (h : x ≤ y) : roundNum .exact x ≤ roundNum .exact y := by
  rw [roundNum_exact, roundNum_exact]
  exact Int.floor_le_floor (by linarith)

/-! ### imod and fmod -/

theorem imod_eq_emod (a : Int) {n : Nat} (hn : 1 ≤ n) : ((imod a n : Nat) : Int) = a % (n : Int) :=
  Int.toNat_of_nonneg (Int.emod_nonneg a (by omega))

theorem imod_lt (a : Int) {n : Nat} (hn : 1 ≤ n) : imod a n < n := by
  have h := imod_eq_emod a hn
  have := Int.emod_lt_of_pos a (show (0 : Int) < n by omega)
  omega

theorem imod_of_lt {a : Int} {n : Nat} (h0 : 0 ≤ a) (h : a < n) : imod a n = a.toNat := by
  simp [imod, Int.emod_eq_of_lt h0 h]

theorem imod_natCast (a n : Nat) : imod (a : Int) n = a % n := by
  simp only [imod, ← Int.natCast_mod, Int.toNat_natCast]

theorem imod_congr {a b : Int} {n : Nat} (h : a % (n : Int) = b % (n : Int)) : imod a n = imod b n := by
  simp [imod, h]

theorem imod_sub_imod (a b : Int) (n : Nat) (hn : 1 ≤ n) : imod (a - (imod b n : Nat)) n = imod (a - b) n := by
  apply imod_congr
  rw [imod_eq_emod b hn]
  simp

theorem imod_imod_sub (a b : Int) (n : Nat) (hn : 1 ≤ n) : imod ((imod a n : Nat) - b) n = imod (a - b) n := by
  apply imod_congr
  rw [imod_eq_emod a hn]
  simp

theorem imod_imod_add (a b : Int) (n : Nat) (hn : 1 ≤ n) : imod ((imod a n : Nat) + b) n = imod (a + b) n := by
  apply imod_congr
  rw [imod_eq_emod a hn]
  simp

theorem fmod_nonneg (x : NUM) {l : Nat} (hl : 1 ≤ l) : 0 ≤ fmod .exact x l := by
  have hl' : (0 : NUM) < l := by exact_mod_cast hl
  have h := floorNum_le (x / l)
  rw [le_div_iff₀ hl'] at h
  simp only [fmod_exact]; nlinarith

theorem fmod_lt (x : NUM) {l : Nat} (hl : 1 ≤ l) : fmod .exact x l < l := by
  have hl' : (0 : NUM) < l := by exact_mod_cast hl
  have h := lt_floorNum_add_one (x / l)
  rw [div_lt_iff₀ hl'] at h
  simp only [fmod_exact]; nlinarith

theorem fmod_add_mul (x : NUM) {l : Nat} (hl : 1 ≤ l) (k : Int) : fmod .exact (x + (l : NUM) * (k : NUM)) l = fmod .exact x l := by
  have hl' : (l : NUM) ≠ 0 := by positivity
  have h : (x + (l : NUM) * (k : NUM)) / (l : NUM) = x / (l : NUM) + (k : NUM) := by field_simp
  simp only [fmod_exact, h, floorNum_add_intCast]
  push_cast; ring

/-- Wrapping once and adding is adding and wrapping. -/
theorem fmod_fmod_add (x y : NUM) {l : Nat} (hl : 1 ≤ l) : fmod .exact (fmod .exact x l + y) l = fmod .exact (x + y) l := by
  have h : fmod .exact x l + y = x + y + (l : NUM) * ((-floorNum (x / l) : Int) : NUM) := by
    simp only [fmod_exact]; push_cast; ring
  rw [h, fmod_add_mul _ hl]

theorem fmod_of_lt {x : NUM} {l : Nat} (h0 : 0 ≤ x) (h : x < l) : fmod .exact x l = x := by
  have hl' : (0 : NUM) < l := lt_of_le_of_lt h0 h
  have : floorNum (x / l) = 0 := by
    rw [floorNum_eq_iff]
    refine ⟨by simpa using div_nonneg h0 hl'.le, ?_⟩
    rw [div_lt_iff₀ hl']; simpa using h
  simp [fmod_exact, this]

/-! ### Interpolation -/

@[simp] theorem lerp_zero (a b : NUM) : lerp .exact 0 a b = a := by simp [lerp_exact]

@[simp] theorem lerp_same (f a : NUM) : lerp .exact f a a = a := by simp [lerp_exact]; ring

/-- A weighted mean lies between its two ends. -/
theorem lerp_mem {f a b : NUM} (h0 : 0 ≤ f) (h1 : f ≤ 1) : min a b ≤ lerp .exact f a b ∧ lerp .exact f a b ≤ max a b := by
  have h2 : 0 ≤ 1 - f := by linarith
  have e : (1 - f) * min a b + f * min a b = min a b := by ring
  have e' : (1 - f) * max a b + f * max a b = max a b := by ring
  constructor
  · rw [← e]
    exact add_le_add (mul_le_mul_of_nonneg_left (min_le_left a b) h2) (mul_le_mul_of_nonneg_left (min_le_right a b) h0)
  · rw [← e']
    exact add_le_add (mul_le_mul_of_nonneg_left (le_max_left a b) h2) (mul_le_mul_of_nonneg_left (le_max_right a b) h0)

theorem abs_lerp_le {f a b c : NUM} (h0 : 0 ≤ f) (h1 : f ≤ 1) (ha : |a| ≤ c) (hb : |b| ≤ c) : |lerp .exact f a b| ≤ c := by
  obtain ⟨h, h'⟩ := lerp_mem (a := a) (b := b) h0 h1
  rw [abs_le] at *
  exact ⟨le_trans (le_min ha.1 hb.1) h, le_trans h' (max_le ha.2 hb.2)⟩

/-! ### Shapes -/

theorem abs_clampUnit_le (v : NUM) : |clampUnit v| ≤ 1 := by
  unfold clampUnit
  split_ifs with h h'
  · simp
  · simp
  · rw [abs_le]; exact ⟨not_lt.mp h, not_lt.mp h'⟩

/-- `|sinTurn(i, L)| ≤ 1` (R9). -/
theorem abs_sinTurn_le (i L : Nat) : |sinTurn i L| ≤ 1 := by
  unfold sinTurn
  split_ifs
  · simp
  · simp
  · simp
  · rw [abs_of_pos] <;> norm_num
  · rw [abs_of_neg] <;> norm_num
  · exact abs_clampUnit_le _

/-- Every shape value has magnitude at most 1 (`41_lfo.md` R131 (d)). -/
theorem abs_shape_le (wave : Waveform) {i L : Nat} (h : i < L) : |shape .exact wave i L| ≤ 1 := by
  have hL : (0 : NUM) < L := by exact_mod_cast Nat.lt_of_le_of_lt (Nat.zero_le i) h
  have hi : (i : NUM) ≤ L := by exact_mod_cast h.le
  have hi0 : (0 : NUM) ≤ i := by positivity
  cases wave with
  | sine => exact abs_sinTurn_le i L
  | saw =>
    rw [shape_saw_exact]
    have h1 : 0 ≤ 2 * (i : NUM) / L := by positivity
    have h2 : 2 * (i : NUM) / L ≤ 2 := by rw [div_le_iff₀ hL]; linarith
    rw [abs_le]; constructor <;> linarith
  | pulse => simp only [shape, exact_ofInt]; split_ifs <;> simp

/-! ### Capacities -/

theorem fits_none (n : Int) : fits none n = true := rfl

theorem fits_some (b : Nat) (n : Int) : fits (some b) n = true ↔ n ≤ (b : Int) := by simp [fits]

end Sys2Proof.Machine
end

