-- ==== Sys2Proof/Laws/Ops.lean ====
section
/-!
SUPPORT. What the shared operations of Machine/Ops.lean do, said once: the ends of a command, the front-end check, and
that each is an answer with no state change on an error.
-/

namespace Sys2Proof.Machine

/-! ### The ends of a command -/

@[simp] theorem raise_eq (e : Status) (s : State) : raise e s = .next (s.failed e) := rfl

@[simp] theorem answer_eq (v : Value) (s : State) : answer v s = .next (s.done s.core v) := rfl

@[simp] theorem commit_eq (c : CoreState) (v : Value) (s : State) : commit c v s = .next (s.done c v) := rfl

theorem guardInit_of_init {u : UnitId} {s : State} (h : initFlag u s.core = true) (body : Result) :
    guardInit u s body = .next (s.failed .illegalCall) := by simp [guardInit, h]

theorem guardInit_of_not_init {u : UnitId} {s : State} (h : initFlag u s.core = false) (body : Result) :
    guardInit u s body = body := by simp [guardInit, h]

theorem guardUse_of_init {u : UnitId} {s : State} (h : initFlag u s.core = true) (body : Result) :
    guardUse u s body = body := by simp [guardUse, h]

theorem guardUse_of_not_init {u : UnitId} {s : State} (h : initFlag u s.core = false) (body : Result) :
    guardUse u s body = .next (s.failed .notInitialized) := by simp [guardUse, h]

theorem query_of_init {u : UnitId} {s : State} (h : initFlag u s.core = true) (neutral v : Value) :
    query u neutral v s = .next (s.done s.core v) := by simp [query, h]

theorem query_of_not_init {u : UnitId} {s : State} (h : initFlag u s.core = false) (neutral v : Value) :
    query u neutral v s = .next (s.done s.core neutral) := by simp [query, h]

@[simp] theorem initFlag_rb0 (c : CoreState) : initFlag .rb0 c = c.rb0.init := rfl
@[simp] theorem initFlag_lfo0 (c : CoreState) : initFlag .lfo0 c = c.lfo0.init := rfl
@[simp] theorem initFlag_cf (c : CoreState) : initFlag .cf c = c.cf.init := rfl
@[simp] theorem initFlag_vib (c : CoreState) : initFlag .vib c = c.vib.init := rfl

/-! ### The tests of the arguments -/

theorem frameCountOk_iff (n : Int) (s : State) : frameCountOk n s = true ↔ 0 ≤ n ∧ n ≤ (s.params.blkMax : Int) := by
  simp [frameCountOk]

theorem ioInRange_iff (ch n : Nat) (s : State) : ioInRange ch n s = true ↔ ch < s.params.maxCh ∧ n < s.params.blkMax := by
  simp [ioInRange]

theorem fits_eq_not_exceeds (bound : Option Nat) (n : Int) : fits bound n = !Exceeds bound n := by
  cases bound
  · rfl
  · simp [fits, Exceeds, ← decide_not]

/-! ### Inversion: what an end of a command can be -/

/-- If a guarded `INIT` answers, it was refused with `IllegalCall`, or its body answered on an uninitialised unit. -/
theorem guardInit_cases {u : UnitId} {s t : State} {body : Result} (h : guardInit u s body = .next t) :
    (initFlag u s.core = true ∧ t = s.failed .illegalCall) ∨ (initFlag u s.core = false ∧ body = .next t) := by
  cases hu : initFlag u s.core
  · exact .inr ⟨rfl, by rwa [guardInit_of_not_init hu] at h⟩
  · rw [guardInit_of_init hu] at h
    exact .inl ⟨rfl, (Host.Outcome.next.inj h).symm⟩

/-- If another guarded command answers, it was refused with `NotInitialized`, or its body answered on an initialised
unit. -/
theorem guardUse_cases {u : UnitId} {s t : State} {body : Result} (h : guardUse u s body = .next t) :
    (initFlag u s.core = false ∧ t = s.failed .notInitialized) ∨ (initFlag u s.core = true ∧ body = .next t) := by
  cases hu : initFlag u s.core
  · rw [guardUse_of_not_init hu] at h
    exact .inl ⟨rfl, (Host.Outcome.next.inj h).symm⟩
  · exact .inr ⟨rfl, by rwa [guardUse_of_init hu] at h⟩

/-- A parameter `GET` changes nothing and answers `Ok`. -/
theorem query_cases {u : UnitId} {s t : State} {neutral v : Value} (h : query u neutral v s = .next t) :
    ∃ x, t = s.done s.core x := ⟨_, (Host.Outcome.next.inj h).symm⟩

/-! ### Every end of a command is an answer (R210, R214) -/

theorem answered_failed (s : State) (e : Status) : Answered s (.next (s.failed e)) :=
  ⟨s.core, ⟨e, .absent⟩, rfl, fun _ => ⟨rfl, rfl⟩⟩

theorem answered_done (s : State) (c : CoreState) (v : Value) : Answered s (.next (s.done c v)) :=
  ⟨c, ⟨.ok, v⟩, rfl, fun h => absurd rfl h⟩

theorem answered_raise (s : State) (e : Status) : Answered s (raise e s) := answered_failed s e

theorem answered_answer (s : State) (v : Value) : Answered s (answer v s) := answered_done s s.core v

theorem answered_commit (s : State) (c : CoreState) (v : Value) : Answered s (commit c v s) := answered_done s c v

theorem answered_query (s : State) (u : UnitId) (neutral v : Value) : Answered s (query u neutral v s) :=
  answered_answer s _

theorem answered_guardInit {s : State} (u : UnitId) {body : Result} (h : Answered s body) :
    Answered s (guardInit u s body) := by
  unfold guardInit
  split
  · exact answered_raise s _
  · exact h

theorem answered_guardUse {s : State} (u : UnitId) {body : Result} (h : Answered s body) :
    Answered s (guardUse u s body) := by
  unfold guardUse
  split
  · exact h
  · exact answered_raise s _

theorem answered_ite {s : State} {p : Prop} [Decidable p] {r r' : Result} (h : Answered s r) (h' : Answered s r') :
    Answered s (if p then r else r') := by split <;> assumption

end Sys2Proof.Machine
end

