-- ==== Sys2Proof/Laws/Comb.lean ====
section
/-!
SUPPORT. The comb filter: the closed form of one frame over any order of its channels (`42_combfilter.md` R158,
`20_memory.md` R72), of a run of frames (R159), and that frames keep the unit legal (`10_state.md` R31).
-/

namespace Sys2Proof.Machine

variable {ν : Numerics}

/-- The output sample of channel `c` in frame `n` at the core `k` (R158). -/
def cfSample (ν : Numerics) (k : CoreState) (n c : Nat) : NUM :=
  ν.add (Memory.read k.inMem (c, n)) (ν.mul k.cf.gain (Memory.read k.cf.dly (c, k.cf.head)))

/-- What the frame step stores in the delay element (R158). -/
def cfStored (ν : Numerics) (k : CoreState) (n c : Nat) : NUM :=
  match k.cf.ftype with
  | .fir => Memory.read k.inMem (c, n)
  | .iir => cfSample ν k n c

theorem cfChannel_eq (n c : Nat) (k : CoreState) :
    cfChannel ν n k c = { k with
      outMem := Memory.write k.outMem (c, n) (cfSample ν k n c)
      cf := { k.cf with dly := Memory.write k.cf.dly (c, k.cf.head) (cfStored ν k n c) } } := by
  unfold cfChannel cfStored cfSample
  cases k.cf.ftype <;> rfl

/-- Channels handled in any order, each once: what they leave. -/
theorem cfChannels_spec (n : Nat) (l : List Nat) (hl : l.Nodup) (k : CoreState) :
    ∃ out dly, l.foldl (cfChannel ν n) k = { k with outMem := out, cf := { k.cf with dly := dly } } ∧
      (∀ a, Memory.read out a = if a.2 = n ∧ a.1 ∈ l then cfSample ν k n a.1 else Memory.read k.outMem a) ∧
      (∀ a, Memory.read dly a = if a.2 = k.cf.head ∧ a.1 ∈ l then cfStored ν k n a.1 else Memory.read k.cf.dly a) ∧
      (Memory.wf k.outMem = true → Memory.wf out = true) ∧ (Memory.wf k.cf.dly = true → Memory.wf dly = true) := by
  induction l generalizing k with
  | nil => exact ⟨k.outMem, k.cf.dly, rfl, by simp, by simp, id, id⟩
  | cons c l ih =>
    obtain ⟨hc, hl⟩ := List.nodup_cons.mp hl
    obtain ⟨out, dly, he, hout, hdly, hwo, hwd⟩ := ih hl (cfChannel ν n k c)
    have hstored : ∀ d ∈ l, cfSample ν (cfChannel ν n k c) n d = cfSample ν k n d ∧
        cfStored ν (cfChannel ν n k c) n d = cfStored ν k n d := by
      intro d hd
      have hdc : d ≠ c := fun e => hc (e ▸ hd)
      have hs : cfSample ν (cfChannel ν n k c) n d = cfSample ν k n d := by
        simp [cfSample, cfChannel_eq, hdc]
      refine ⟨hs, ?_⟩
      unfold cfStored
      rw [hs]
      rfl
    refine ⟨out, dly, ?_, ?_, ?_, ?_, ?_⟩
    · rw [List.foldl_cons, he, cfChannel_eq]
    · intro a
      rw [hout a]
      by_cases h2 : a.2 = n
      · by_cases hal : a.1 ∈ l
        · simp [h2, hal, (hstored _ hal).1]
        · by_cases hac : a.1 = c
          · have : a = (c, n) := Prod.ext hac h2
            subst this
            simp [hal, cfChannel_eq]
          · have : a ≠ (c, n) := fun e => hac (by rw [e])
            simp [h2, hal, hac, cfChannel_eq, this]
      · have : a ≠ (c, n) := fun e => h2 (by rw [e])
        simp [h2, cfChannel_eq, this]
    · intro a
      rw [hdly a]
      by_cases h2 : a.2 = k.cf.head
      · by_cases hal : a.1 ∈ l
        · simp [h2, hal, (hstored _ hal).2]
        · by_cases hac : a.1 = c
          · have : a = (c, k.cf.head) := Prod.ext hac h2
            subst this
            simp [hal, cfChannel_eq]
          · have : a ≠ (c, k.cf.head) := fun e => hac (by rw [e])
            simp [h2, hal, hac, cfChannel_eq, this]
      · have : a ≠ (c, k.cf.head) := fun e => h2 (by rw [e])
        simp [h2, cfChannel_eq, this]
    · intro h
      exact hwo (by rw [cfChannel_eq]; exact wf_write _ _ _ h)
    · intro h
      exact hwd (by rw [cfChannel_eq]; exact wf_write _ _ _ h)

theorem cfChannels_dly_within (n : Nat) (l : List Nat) (k : CoreState) {C cap : Nat} (hl : ∀ c ∈ l, c < C)
    (hh : k.cf.head < cap) (hd : Memory.within k.cf.dly C cap = true) :
    Memory.within (l.foldl (cfChannel ν n) k).cf.dly C cap = true := by
  induction l generalizing k with
  | nil => exact hd
  | cons c l ih =>
    refine ih (cfChannel ν n k c) (fun d hd => hl d (by simp [hd])) hh ?_
    rw [cfChannel_eq]
    exact within_write _ _ _ _ _ hd ⟨hl c (by simp), hh⟩

theorem cfChannels_out_within (n : Nat) (l : List Nat) (k : CoreState) {C F : Nat} (hl : ∀ c ∈ l, c < C) (hn : n < F)
    (ho : Memory.within k.outMem C F = true) : Memory.within (l.foldl (cfChannel ν n) k).outMem C F = true := by
  induction l generalizing k with
  | nil => exact ho
  | cons c l ih =>
    refine ih (cfChannel ν n k c) (fun d hd => hl d (by simp [hd])) ?_
    rw [cfChannel_eq]
    exact within_write _ _ _ _ _ ho ⟨hl c (by simp), hn⟩

/-- One frame (R158): every channel's output and delay element, then the head; nothing else. -/
theorem cfFrame_spec (k : CoreState) (n : Nat) :
    ∃ out dly, cfFrame ν k n = { k with
        outMem := out, cf := { k.cf with dly := dly, head := imod ((k.cf.head : Int) + 1) k.cf.Ld } } ∧
      (∀ a, Memory.read out a = if a.2 = n ∧ a.1 < k.cf.C then cfSample ν k n a.1 else Memory.read k.outMem a) ∧
      (∀ a, Memory.read dly a = if a.2 = k.cf.head ∧ a.1 < k.cf.C then cfStored ν k n a.1 else Memory.read k.cf.dly a) ∧
      (Memory.wf k.outMem = true → Memory.wf out = true) ∧ (Memory.wf k.cf.dly = true → Memory.wf dly = true) := by
  obtain ⟨out, dly, he, hout, hdly, hwo, hwd⟩ := cfChannels_spec (ν := ν) n (List.range k.cf.C) List.nodup_range k
  refine ⟨out, dly, ?_, fun a => by simpa using hout a, fun a => by simpa using hdly a, hwo, hwd⟩
  rw [cfFrame, he]
  rfl

theorem cfFrames_succ (k : CoreState) (n : Nat) : cfFrames ν k (n + 1) = cfFrame ν (cfFrames ν k n) n := by
  simp [cfFrames, List.range_succ]

@[simp] theorem cfFrames_zero (k : CoreState) : cfFrames ν k 0 = k := rfl

/-- A run of frames writes the output block, the delay elements and the head, and nothing else. -/
theorem cfFrames_shape (k : CoreState) (n : Nat) :
    cfFrames ν k n = { k with
      outMem := (cfFrames ν k n).outMem
      cf := { k.cf with dly := (cfFrames ν k n).cf.dly, head := (cfFrames ν k n).cf.head } } := by
  induction n with
  | zero => rfl
  | succ n ih =>
    obtain ⟨out, dly, he, -⟩ := cfFrame_spec (ν := ν) (cfFrames ν k n) n
    rw [cfFrames_succ, he, ih]

section shape
variable (k : CoreState) (n : Nat)
@[simp] theorem cfFrames_rb0 : (cfFrames ν k n).rb0 = k.rb0 := by rw [cfFrames_shape]
@[simp] theorem cfFrames_lfo0 : (cfFrames ν k n).lfo0 = k.lfo0 := by rw [cfFrames_shape]
@[simp] theorem cfFrames_vib : (cfFrames ν k n).vib = k.vib := by rw [cfFrames_shape]
@[simp] theorem cfFrames_inMem : (cfFrames ν k n).inMem = k.inMem := by rw [cfFrames_shape]
@[simp] theorem cfFrames_init : (cfFrames ν k n).cf.init = k.cf.init := by rw [cfFrames_shape]
@[simp] theorem cfFrames_ftype : (cfFrames ν k n).cf.ftype = k.cf.ftype := by rw [cfFrames_shape]
@[simp] theorem cfFrames_fs : (cfFrames ν k n).cf.fs = k.cf.fs := by rw [cfFrames_shape]
@[simp] theorem cfFrames_maxDelaySec : (cfFrames ν k n).cf.maxDelaySec = k.cf.maxDelaySec := by rw [cfFrames_shape]
@[simp] theorem cfFrames_C : (cfFrames ν k n).cf.C = k.cf.C := by rw [cfFrames_shape]
@[simp] theorem cfFrames_cap : (cfFrames ν k n).cf.cap = k.cf.cap := by rw [cfFrames_shape]
@[simp] theorem cfFrames_Ld : (cfFrames ν k n).cf.Ld = k.cf.Ld := by rw [cfFrames_shape]
@[simp] theorem cfFrames_delaySec : (cfFrames ν k n).cf.delaySec = k.cf.delaySec := by rw [cfFrames_shape]
@[simp] theorem cfFrames_gain : (cfFrames ν k n).cf.gain = k.cf.gain := by rw [cfFrames_shape]
end shape

/-- The head after `n` frames that start below `Ld` (R159). -/
theorem cfFrames_head (k : CoreState) (n : Nat) (hh : k.cf.head < k.cf.Ld) :
    (cfFrames ν k n).cf.head = (k.cf.head + n) % k.cf.Ld := by
  induction n with
  | zero => simp [Nat.mod_eq_of_lt hh]
  | succ n ih =>
    obtain ⟨out, dly, he, -⟩ := cfFrame_spec (ν := ν) (cfFrames ν k n) n
    rw [cfFrames_succ, he]
    simp only [cfFrames_Ld, ih]
    rw [show ((((k.cf.head + n) % k.cf.Ld : Nat) : Int) + 1) = (((k.cf.head + n) % k.cf.Ld + 1 : Nat) : Int) by
      push_cast; rfl, imod_natCast, Nat.mod_add_mod]
    rfl

/-- After at least one frame the head is below `Ld` (R31). -/
theorem cfFrames_head_lt (k : CoreState) (n : Nat) (hL : 1 ≤ k.cf.Ld) (hn : 1 ≤ n) : (cfFrames ν k n).cf.head < k.cf.Ld := by
  obtain ⟨m, rfl⟩ : ∃ m, n = m + 1 := ⟨n - 1, by omega⟩
  obtain ⟨out, dly, he, -⟩ := cfFrame_spec (ν := ν) (cfFrames ν k m) m
  rw [cfFrames_succ, he]
  simpa using imod_lt _ hL

/-- Outside the frames and channels handled the output block keeps its value (`20_memory.md` R66). -/
theorem cfFrames_out_other (k : CoreState) (n : Nat) (a : Index) (h : ¬ (a.1 < k.cf.C ∧ a.2 < n)) :
    Memory.read (cfFrames ν k n).outMem a = Memory.read k.outMem a := by
  induction n with
  | zero => rfl
  | succ n ih =>
    obtain ⟨out, dly, he, hout, -⟩ := cfFrame_spec (ν := ν) (cfFrames ν k n) n
    rw [cfFrames_succ, he]
    simp only [hout, cfFrames_C]
    rw [if_neg (by omega), ih (by omega)]

/-- The delay element of channel `c` that frame `t` reads: with `D = Ld`, the one stored `D` frames earlier, or what
the delay line held before (R159). -/
def cfTap (ν : Numerics) (k : CoreState) (frames c t : Nat) : NUM :=
  if t < k.cf.Ld then Memory.read k.cf.dly (c, (k.cf.head + t) % k.cf.Ld)
  else
    match k.cf.ftype with
    | .fir => Memory.read k.inMem (c, t - k.cf.Ld)
    | .iir => Memory.read (cfFrames ν k frames).outMem (c, t - k.cf.Ld)

theorem add_mod_inj {h i j D : Nat} (e : (h + i) % D = (h + j) % D) (hij : i ≤ j) (hlt : j < i + D) : i = j := by
  have h1 : (h + j - (h + i)) % D = 0 := by
    have := Nat.sub_mod_eq_zero_of_mod_eq e.symm
    exact this
  have h2 : h + j - (h + i) = j - i := by omega
  rw [h2, Nat.mod_eq_of_lt (by omega)] at h1
  omega

/-- The difference equation of the comb filter and the delay line it leaves (R159), from any state whose head is below
`Ld`. -/
theorem cfFrames_spec (k : CoreState) (n : Nat) (hh : k.cf.head < k.cf.Ld) (c : Nat) (hc : c < k.cf.C) :
    (∀ t < n, Memory.read (cfFrames ν k n).outMem (c, t) = ν.add (Memory.read k.inMem (c, t)) (ν.mul k.cf.gain (cfTap ν k n c t))) ∧
      (∀ t, n ≤ t → t < n + k.cf.Ld →
        Memory.read (cfFrames ν k n).cf.dly (c, (k.cf.head + t) % k.cf.Ld) = cfTap ν k n c t) := by
  induction n with
  | zero =>
    refine ⟨fun t ht => absurd ht (by omega), fun t _ ht => ?_⟩
    simp [cfTap, show t < k.cf.Ld by omega]
  | succ n ih =>
    obtain ⟨ih1, ih2⟩ := ih
    obtain ⟨out, dly, he, hout, hdly, -⟩ := cfFrame_spec (ν := ν) (cfFrames ν k n) n
    have hhead := cfFrames_head (ν := ν) k n hh
    have htap : ∀ t ≤ n + (k.cf.Ld - 1), cfTap ν k (n + 1) c t = cfTap ν k n c t := by
      intro t ht
      unfold cfTap
      by_cases h : t < k.cf.Ld
      · simp [h]
      · rw [if_neg h, if_neg h]
        cases k.cf.ftype with
        | fir => rfl
        | iir =>
          simp only [cfFrames_succ, he, hout]
          rw [if_neg (by simp; omega)]
    have hsample : cfSample ν (cfFrames ν k n) n c = ν.add (Memory.read k.inMem (c, n)) (ν.mul k.cf.gain (cfTap ν k n c n)) := by
      simp only [cfSample, cfFrames_inMem, cfFrames_gain]
      rw [hhead, ih2 n (le_refl n) (by omega)]
    refine ⟨fun t ht => ?_, fun t hnt ht => ?_⟩
    · rw [htap t (by omega)]
      simp only [cfFrames_succ, he, hout, cfFrames_C]
      by_cases htn : t = n
      · subst htn
        simp [hc, hsample]
      · rw [if_neg (by simp; omega)]
        exact ih1 t (by omega)
    · simp only [cfFrames_succ, he, hdly, cfFrames_C, hhead]
      by_cases hlast : t = n + k.cf.Ld
      · subst hlast
        have hpos : (k.cf.head + (n + k.cf.Ld)) % k.cf.Ld = (k.cf.head + n) % k.cf.Ld := by
          rw [← Nat.add_assoc, Nat.add_mod_right]
        rw [if_pos ⟨hpos, hc⟩]
        unfold cfStored cfTap
        rw [if_neg (by omega), Nat.add_sub_cancel]
        simp only [cfFrames_ftype]
        cases k.cf.ftype with
        | fir => simp
        | iir =>
          simp only [cfFrames_succ, he, hout, cfFrames_C]
          simp [hc]
      · rw [if_neg, ih2 t (by omega) (by omega), htap t (by omega)]
        rintro ⟨e, -⟩
        have := add_mod_inj (i := n) (j := t) e.symm (by omega) (by omega)
        omega

/-- A frame keeps the unit legal (R31). -/
theorem cfLive_frame {p : Params} {k : CoreState} (h : CfLive p k.cf) (n : Nat) : CfLive p (cfFrame ν k n).cf := by
  obtain ⟨h1, h2, h3, h4, h5, h6, h7, h8, h9, h10⟩ := h
  obtain ⟨out, dly, he, -, -, -, hwd⟩ := cfFrame_spec (ν := ν) k n
  have hin := cfChannels_dly_within (ν := ν) n (List.range k.cf.C) k (fun c hc => List.mem_range.mp hc) h8 h10
  have hdly : (cfFrame ν k n).cf.dly = dly := by rw [he]
  have hin2 : Memory.within dly k.cf.C k.cf.cap = true := hdly ▸ hin
  have hhead : imod ((k.cf.head : Int) + 1) k.cf.Ld < k.cf.cap :=
    Nat.lt_of_lt_of_le (imod_lt _ h5.1) h5.2
  rw [he]
  exact ⟨h1, h2, h3, h4, h5, h6, h7, hhead, hwd h9, hin2⟩

/-- A frame on no more channels than there are keeps the output block legal (R34). -/
theorem blockInv_cfFrame {p : Params} {k : CoreState} (hC : k.cf.C ≤ p.maxCh) (ho : BlockInv p k.outMem) {n : Nat}
    (hn : n < p.blkMax) : BlockInv p (cfFrame ν k n).outMem := by
  obtain ⟨out, dly, he, -, -, hwo, -⟩ := cfFrame_spec (ν := ν) k n
  have hin := cfChannels_out_within (ν := ν) n (List.range k.cf.C) k
    (fun c hc => Nat.lt_of_lt_of_le (List.mem_range.mp hc) hC) hn ho.2
  have hout : (cfFrame ν k n).outMem = out := by rw [he]
  rw [hout]
  exact ⟨hwo ho.1, hout ▸ hin⟩

/-- Frames keep the unit legal (R31). -/
theorem cfLive_frames {p : Params} {k : CoreState} (h : CfLive p k.cf) (n : Nat) : CfLive p (cfFrames ν k n).cf := by
  induction n with
  | zero => exact h
  | succ n ih => rw [cfFrames_succ]; exact cfLive_frame ih n

/-- Frames keep the output block legal (R34). -/
theorem blockInv_cfFrames {p : Params} {k : CoreState} (hC : k.cf.C ≤ p.maxCh) (ho : BlockInv p k.outMem) {n : Nat}
    (hn : n ≤ p.blkMax) : BlockInv p (cfFrames ν k n).outMem := by
  induction n with
  | zero => exact ho
  | succ n ih => rw [cfFrames_succ]; exact blockInv_cfFrame (by simpa using hC) (ih (by omega)) (by omega)

end Sys2Proof.Machine
end

