-- ==== Sys2Proof/Laws/Decode.lean ====
section
/-!
SUPPORT. The encoding: header fields, integer slots, and how a form takes its operand slots (`30_encoding.md` R82, R84,
R86, R91).
-/

namespace Sys2Proof

/-! ### Header fields (R82) -/

theorem toNat_header (unit op : BitVec 4) (sel : BitVec 8) (idx : BitVec 16) :
    (header unit op sel idx).toNat = unit.toNat * 2 ^ 28 + op.toNat * 2 ^ 24 + sel.toNat * 2 ^ 16 + idx.toNat := by
  have h1 := op.isLt
  have h2 := sel.isLt
  have h3 := idx.isLt
  unfold header
  rw [BitVec.toNat_append, BitVec.toNat_append, BitVec.toNat_append, ← Nat.shiftLeft_add_eq_or_of_lt h3,
    ← Nat.shiftLeft_add_eq_or_of_lt h2, ← Nat.shiftLeft_add_eq_or_of_lt h1]
  simp only [Nat.shiftLeft_eq]
  ring

@[simp] theorem hdrSel_header (unit op : BitVec 4) (sel : BitVec 8) (idx : BitVec 16) :
    hdrSel (header unit op sel idx) = sel := by
  apply BitVec.eq_of_toNat_eq
  have h2 := sel.isLt
  have h3 := idx.isLt
  simp only [hdrSel, BitVec.extractLsb'_toNat, toNat_header, Nat.shiftRight_eq_div_pow]
  omega

@[simp] theorem hdrIdx_header (unit op : BitVec 4) (sel : BitVec 8) (idx : BitVec 16) :
    hdrIdx (header unit op sel idx) = idx := by
  apply BitVec.eq_of_toNat_eq
  have h3 := idx.isLt
  simp only [hdrIdx, BitVec.extractLsb'_toNat, toNat_header, Nat.shiftRight_eq_div_pow]
  omega

@[simp] theorem hdrUnitOp_header (unit op : BitVec 4) (sel : BitVec 8) (idx : BitVec 16) :
    (header unit op sel idx).extractLsb' 24 8 = unit ++ op := by
  apply BitVec.eq_of_toNat_eq
  have h0 := unit.isLt
  have h1 := op.isLt
  have h2 := sel.isLt
  have h3 := idx.isLt
  rw [BitVec.toNat_append, ← Nat.shiftLeft_add_eq_or_of_lt h1]
  simp only [BitVec.extractLsb'_toNat, toNat_header, Nat.shiftRight_eq_div_pow, Nat.shiftLeft_eq]
  omega

/-- The fields of a header word rebuild it. -/
theorem header_fields (h : Word) : header (hdrUnit h) (hdrOp h) (hdrSel h) (hdrIdx h) = h := by
  apply BitVec.eq_of_toNat_eq
  have := h.isLt
  rw [toNat_header]
  simp only [hdrUnit, hdrOp, hdrSel, hdrIdx, BitVec.extractLsb'_toNat, Nat.shiftRight_eq_div_pow]
  omega

/-! ### Slots (R84) -/

@[simp] theorem asWord_word (w : Word) : (Slot.word w).asWord = w := rfl

@[simp] theorem asNum_num (v : NUM) : (Slot.num v).asNum = v := rfl

@[simp] theorem asWord_headSlot (unit op : BitVec 4) (sel : BitVec 8) : (headSlot unit op sel).asWord = header unit op sel 0 := rfl

/-- A 32-bit signed integer survives its slot. -/
theorem asInt_intSlot {n : Int} (h : fitsInt32 n = true) : (intSlot n).asInt = n := by
  simp only [fitsInt32, decide_eq_true_eq] at h
  simp only [intSlot, Slot.asInt, asWord_word, BitVec.toInt_ofInt]
  exact Int.bmod_eq_of_le (by norm_num; omega) (by norm_num; omega)

/-- What an integer slot reads as always fits. -/
theorem fitsInt32_asInt (s : Slot) : fitsInt32 s.asInt = true := by
  have h1 := BitVec.toInt_lt (x := s.asWord)
  have h2 := BitVec.le_toInt (x := s.asWord)
  norm_num at h1 h2
  exact decide_eq_true ⟨by simpa [Slot.asInt] using h2, by simp only [Slot.asInt]; omega⟩

theorem fitsChannelFrame_fields (h : Word) : fitsChannelFrame (hdrSel h).toNat (hdrIdx h).toNat = true := by
  have h1 := (hdrSel h).isLt
  have h2 := (hdrIdx h).isLt
  simp only [fitsChannelFrame, decide_eq_true_eq]
  omega

/-! ### Forms -/

/-- A form takes exactly the slots of its kinds (R81, R86). -/
theorem fill_length {f : Form} {slots rest : List Slot} {i : Instr} (h : f.fill slots = some (i, rest)) :
    ∃ front, slots = front ++ rest ∧ front.length = f.kinds.length := by
  cases f with
  | none j => simp only [Form.fill, Option.some.injEq, Prod.mk.injEq] at h; exact ⟨[], by simp [h.2], rfl⟩
  | int k =>
    match slots, h with
    | a :: r, h => simp only [Form.fill, Option.some.injEq, Prod.mk.injEq] at h; exact ⟨[a], by simp [h.2], rfl⟩
  | num k =>
    match slots, h with
    | a :: r, h => simp only [Form.fill, Option.some.injEq, Prod.mk.injEq] at h; exact ⟨[a], by simp [h.2], rfl⟩
  | numNum k =>
    match slots, h with
    | a :: b :: r, h => simp only [Form.fill, Option.some.injEq, Prod.mk.injEq] at h; exact ⟨[a, b], by simp [h.2], rfl⟩
  | numNumInt k =>
    match slots, h with
    | a :: b :: c :: r, h =>
      simp only [Form.fill, Option.some.injEq, Prod.mk.injEq] at h; exact ⟨[a, b, c], by simp [h.2], rfl⟩

/-- A form is filled exactly when its slots have all arrived (R81). -/
theorem fill_none_iff (f : Form) (slots : List Slot) : f.fill slots = none ↔ slots.length < f.kinds.length := by
  cases f <;> rcases slots with _ | ⟨a, _ | ⟨b, _ | ⟨c, r⟩⟩⟩ <;> simp [Form.fill, Form.kinds]

/-! ### Decoding a packet -/

theorem decode_word (h : Word) (rest : List Slot) : decode (.word h :: rest) =
    match decodeHeader h with
    | none => .reserved h rest
    | some f => match f.fill rest with
      | none => .incomplete
      | some (i, rest') => .command i rest' := rfl

theorem decode_of_fill {h : Word} {f : Form} {rest rest' : List Slot} {i : Instr} (hd : decodeHeader h = some f)
    (hf : f.fill rest = some (i, rest')) : decode (.word h :: rest) = .command i rest' := by
  simp [decode_word, hd, hf]

theorem decodeHeader_wrin (sel : BitVec 8) (idx : BitVec 16) :
    decodeHeader (header 5 0 sel idx) = some (.num (.ioWrin sel.toNat idx.toNat)) := by
  unfold decodeHeader
  rw [if_pos (by rw [hdrUnitOp_header]; rfl), hdrSel_header, hdrIdx_header]

theorem decodeHeader_rdout (sel : BitVec 8) (idx : BitVec 16) :
    decodeHeader (header 5 1 sel idx) = some (.none (.ioRdout sel.toNat idx.toNat)) := by
  unfold decodeHeader
  rw [if_neg (by rw [hdrUnitOp_header]; decide), if_pos (by rw [hdrUnitOp_header]; rfl), hdrSel_header, hdrIdx_header]

end Sys2Proof
end

