-- ==== Sys2Proof/Laws/Lfo.lean ====
section
/-!
SUPPORT. The wavetable oscillator: that its micro-operations keep it live, the bound on its values and the sequence of
its phases (`41_lfo.md` R122, R131; `10_state.md` R28).
-/

namespace Sys2Proof.Machine

theorem read_lfoSetAmp (ν : Numerics) (l : LFOState) (v : NUM) {i : Nat} (h : i < l.L) :
    Memory.read (lfoSetAmp ν l v).tab (0, i) = ν.mul (shape ν l.wave i l.L) v := by
  simp [lfoSetAmp, read_tabulate, h]

theorem lfoInit_length {wave : Waveform} {fref fs : NUM} (hf : 0 < fref) (hs : 0 < fs) :
    ((lfoInit .exact wave fref fs).L : Int) = ceilNum (fs / fref) ∧ 1 ≤ (lfoInit .exact wave fref fs).L := by
  have h := ceilNum_pos (div_pos hs hf)
  simp only [lfoInit, exact_ceil, exact_div]
  omega

theorem lfoLive_init {bound : Option Nat} {wave : Waveform} {fref fs : NUM} (hf : 0 < fref) (hs : 0 < fs)
    (hfit : fits bound (ceilNum (fs / fref)) = true) : LfoLive bound (lfoInit .exact wave fref fs) := by
  obtain ⟨hL, h1⟩ := lfoInit_length (wave := wave) hf hs
  refine ⟨hf, hs, hL, h1, by rw [hL]; exact hfit, ?_, .inl rfl, le_refl _, ?_, rfl, rfl, ?_⟩
  · simp [lfoInit]
  · have : (0 : NUM) < (lfoInit .exact wave fref fs).L := by exact_mod_cast h1
    exact this
  · intro i _
    simp [lfoInit]

theorem lfoLive_setAmp {bound : Option Nat} {l : LFOState} (h : LfoLive bound l) (v : NUM) :
    LfoLive bound (lfoSetAmp .exact l v) := by
  obtain ⟨hf, hs, hL, h1, hfit, hhop, hfreq, hp0, hp, -, -, -⟩ := h
  exact ⟨hf, hs, hL, h1, hfit, hhop, hfreq, hp0, hp, wf_tabulate _ _, within_tabulate _ _,
    fun i hi => read_lfoSetAmp .exact l v hi⟩

theorem lfoLive_setFreq {bound : Option Nat} {l : LFOState} (h : LfoLive bound l) {v : NUM} (hv : l.fref ≤ v) :
    LfoLive bound (lfoSetFreq .exact l v) := by
  obtain ⟨hf, hs, hL, h1, hfit, -, -, hp0, hp, hwf, hin, htab⟩ := h
  exact ⟨hf, hs, hL, h1, hfit, rfl, .inr hv, hp0, hp, hwf, hin, htab⟩

theorem lfoLive_advance {bound : Option Nat} {l : LFOState} (h : LfoLive bound l) : LfoLive bound (lfoAdvance .exact l) := by
  obtain ⟨hf, hs, hL, h1, hfit, hhop, hfreq, -, -, hwf, hin, htab⟩ := h
  exact ⟨hf, hs, hL, h1, hfit, hhop, hfreq, fmod_nonneg _ h1, by simpa using fmod_lt (l.phase + l.hop) h1, hwf, hin, htab⟩

theorem lfoLive_resetPos {bound : Option Nat} {l : LFOState} (h : LfoLive bound l) : LfoLive bound (lfoResetPos l) := by
  obtain ⟨hf, hs, hL, h1, hfit, hhop, hfreq, -, -, hwf, hin, htab⟩ := h
  exact ⟨hf, hs, hL, h1, hfit, hhop, hfreq, le_refl _, by simpa using Nat.lt_of_lt_of_le Nat.zero_lt_one h1,
    hwf, hin, htab⟩

theorem lfoLive_resetKeep {bound : Option Nat} {l : LFOState} (h : LfoLive bound l) :
    LfoLive bound (lfoReset l false) := by
  obtain ⟨hf, hs, hL, h1, hfit, -, -, -, -, -, -, -⟩ := h
  refine ⟨hf, hs, hL, h1, hfit, by simp [lfoReset], .inl rfl, le_refl _, ?_, rfl, rfl, ?_⟩
  · have : (0 : NUM) < l.L := by exact_mod_cast h1
    exact this
  · intro i _
    simp [lfoReset]

/-- The two bins a value is read from exist (`20_memory.md` R67). -/
theorem lfo_bins_lt {l : LFOState} (h1 : 1 ≤ l.L) (hp0 : 0 ≤ l.phase) (hp : l.phase < (l.L : NUM)) :
    (floorNum l.phase).toNat < l.L ∧ imod (floorNum l.phase + 1) l.L < l.L := by
  have h0 := floorNum_nonneg hp0
  have hlt : floorNum l.phase < (l.L : Int) := by rw [floorNum_lt_iff]; exact_mod_cast hp
  exact ⟨by omega, imod_lt _ h1⟩

/-- A bin of the table is read from the table. -/
theorem lfoBin_of_lt {l : LFOState} {i : Nat} (h : i < l.L) : lfoBin l (i : Int) = Memory.read l.tab (0, i) := by
  simp [lfoBin, h]

/-- The value over exact arithmetic, at a phase inside the table (R122). -/
theorem lfoValue_exact {l : LFOState} (h1 : 1 ≤ l.L) (hp0 : 0 ≤ l.phase) (hp : l.phase < (l.L : NUM)) :
    lfoValue .exact l = lerp .exact (l.phase - (floorNum l.phase : NUM)) (Memory.read l.tab (0, (floorNum l.phase).toNat))
      (Memory.read l.tab (0, imod (floorNum l.phase + 1) l.L)) := by
  obtain ⟨hb0, hb1⟩ := lfo_bins_lt h1 hp0 hp
  have hbin := lfoBin_of_lt hb0
  rw [Int.toNat_of_nonneg (floorNum_nonneg hp0)] at hbin
  simp only [lfoValue, exact_floor, exact_sub, exact_ofInt, hbin, lfoBin_of_lt hb1]

/-- `|result| ≤ |amp|` (R131 (d)). -/
theorem abs_lfoValue_le {bound : Option Nat} {l : LFOState} (h : LfoLive bound l) : |lfoValue .exact l| ≤ |l.amp| := by
  obtain ⟨-, -, -, h1, -, -, -, hp0, hp, -, -, htab⟩ := h
  have hentry : ∀ i < l.L, |Memory.read l.tab (0, i)| ≤ |l.amp| := by
    intro i hi
    rw [htab i hi, abs_mul]
    have := mul_le_mul_of_nonneg_right (abs_shape_le l.wave hi) (abs_nonneg l.amp)
    simpa using this
  obtain ⟨hb0, hb1⟩ := lfo_bins_lt h1 hp0 hp
  have hfl := floorNum_le l.phase
  have hfl' := lt_floorNum_add_one l.phase
  rw [lfoValue_exact h1 hp0 hp]
  exact abs_lerp_le (by linarith) (by linarith) (hentry _ hb0) (hentry _ hb1)

/-- `k` values after a `lfo_resetpos` the phase is `fmod(k * hop, L)` (R131 (e)). -/
theorem lfoAdvance_iterate_phase (l : LFOState) (h1 : 1 ≤ l.L) (h0 : l.phase = 0) (k : Nat) :
    Nat.iterate (lfoAdvance .exact) k l = { l with phase := fmod .exact ((k : NUM) * l.hop) l.L } := by
  induction k with
  | zero => cases l; simp_all [fmod_exact]
  | succ k ih =>
    rw [Function.iterate_succ_apply', ih]
    simp only [lfoAdvance, exact_add]
    rw [fmod_fmod_add _ _ h1]
    congr 2
    push_cast; ring

theorem lfoAdvance_iterate_fields (ν : Numerics) (l : LFOState) (k : Nat) :
    Nat.iterate (lfoAdvance ν) k l = { l with phase := (Nat.iterate (lfoAdvance ν) k l).phase } := by
  induction k with
  | zero => rfl
  | succ k ih =>
    rw [Function.iterate_succ_apply', ih]
    rfl

theorem lfoLive_iterate {bound : Option Nat} {l : LFOState} (h : LfoLive bound l) (k : Nat) :
    LfoLive bound (Nat.iterate (lfoAdvance .exact) k l) := by
  induction k with
  | zero => exact h
  | succ k ih => rw [Function.iterate_succ_apply']; exact lfoLive_advance ih

end Sys2Proof.Machine
end

