-- ==== Sys2Proof/Laws/PerInstr.lean ====
section
/-!
SUPPORT. Families of lemmas with one lemma per constructor of `Instr`.
PacketShape: an encoded command is one header word the decoder knows, and as many operand slots as its form takes
(`30_encoding.md` R80, R86, R90).
-/

namespace Sys2Proof.Laws.PacketShape

/-- The packet of `i` is a header word of the table with the slots its form takes. -/
def Statement (i : Instr) : Prop :=
  ∃ h f ops, encode i = Slot.word h :: ops ∧ decodeHeader h = some f ∧ ops.length = f.kinds.length

theorem sysNop : Statement .sysNop := ⟨_, _, _, rfl, rfl, rfl⟩
theorem rbInit (capacity : Int) : Statement (.rbInit capacity) := ⟨_, _, _, rfl, rfl, rfl⟩
theorem rbReset : Statement .rbReset := ⟨_, _, _, rfl, rfl, rfl⟩
theorem rbPut (value : NUM) : Statement (.rbPut value) := ⟨_, _, _, rfl, rfl, rfl⟩
theorem rbGetpi : Statement .rbGetpi := ⟨_, _, _, rfl, rfl, rfl⟩
theorem rbGet (offset : NUM) : Statement (.rbGet offset) := ⟨_, _, _, rfl, rfl, rfl⟩
theorem rbGetwidx : Statement .rbGetwidx := ⟨_, _, _, rfl, rfl, rfl⟩
theorem lfoInitSine (fref fs : NUM) : Statement (.lfoInitSine fref fs) := ⟨_, _, _, rfl, rfl, rfl⟩
theorem lfoInitSaw (fref fs : NUM) : Statement (.lfoInitSaw fref fs) := ⟨_, _, _, rfl, rfl, rfl⟩
theorem lfoInitPulse (fref fs : NUM) : Statement (.lfoInitPulse fref fs) := ⟨_, _, _, rfl, rfl, rfl⟩
theorem lfoResetKeep : Statement .lfoResetKeep := ⟨_, _, _, rfl, rfl, rfl⟩
theorem lfoResetFree : Statement .lfoResetFree := ⟨_, _, _, rfl, rfl, rfl⟩
theorem lfoSetamp (amplitude : NUM) : Statement (.lfoSetamp amplitude) := ⟨_, _, _, rfl, rfl, rfl⟩
theorem lfoSetfreq (hz : NUM) : Statement (.lfoSetfreq hz) := ⟨_, _, _, rfl, rfl, rfl⟩
theorem lfoGetamp : Statement .lfoGetamp := ⟨_, _, _, rfl, rfl, rfl⟩
theorem lfoGetfreq : Statement .lfoGetfreq := ⟨_, _, _, rfl, rfl, rfl⟩
theorem lfoGetvalue : Statement .lfoGetvalue := ⟨_, _, _, rfl, rfl, rfl⟩
theorem lfoResetpos : Statement .lfoResetpos := ⟨_, _, _, rfl, rfl, rfl⟩
theorem cfInitFir (maxDelaySec fs : NUM) (numChannels : Int) : Statement (.cfInitFir maxDelaySec fs numChannels) := ⟨_, _, _, rfl, rfl, rfl⟩
theorem cfInitIir (maxDelaySec fs : NUM) (numChannels : Int) : Statement (.cfInitIir maxDelaySec fs numChannels) := ⟨_, _, _, rfl, rfl, rfl⟩
theorem cfReset : Statement .cfReset := ⟨_, _, _, rfl, rfl, rfl⟩
theorem cfSetgain (gain : NUM) : Statement (.cfSetgain gain) := ⟨_, _, _, rfl, rfl, rfl⟩
theorem cfSetdelay (seconds : NUM) : Statement (.cfSetdelay seconds) := ⟨_, _, _, rfl, rfl, rfl⟩
theorem cfGetgain : Statement .cfGetgain := ⟨_, _, _, rfl, rfl, rfl⟩
theorem cfGetdelay : Statement .cfGetdelay := ⟨_, _, _, rfl, rfl, rfl⟩
theorem cfProcess (frameCount : Int) : Statement (.cfProcess frameCount) := ⟨_, _, _, rfl, rfl, rfl⟩
theorem vibInit (maxDelaySec fs : NUM) (numChannels : Int) : Statement (.vibInit maxDelaySec fs numChannels) := ⟨_, _, _, rfl, rfl, rfl⟩
theorem vibReset : Statement .vibReset := ⟨_, _, _, rfl, rfl, rfl⟩
theorem vibSetdelay (seconds : NUM) : Statement (.vibSetdelay seconds) := ⟨_, _, _, rfl, rfl, rfl⟩
theorem vibSetfreq (hz : NUM) : Statement (.vibSetfreq hz) := ⟨_, _, _, rfl, rfl, rfl⟩
theorem vibSetblock (blockSize : Int) : Statement (.vibSetblock blockSize) := ⟨_, _, _, rfl, rfl, rfl⟩
theorem vibGetdelay : Statement .vibGetdelay := ⟨_, _, _, rfl, rfl, rfl⟩
theorem vibGetfreq : Statement .vibGetfreq := ⟨_, _, _, rfl, rfl, rfl⟩
theorem vibGetblock : Statement .vibGetblock := ⟨_, _, _, rfl, rfl, rfl⟩
theorem vibProcess (frameCount : Int) : Statement (.vibProcess frameCount) := ⟨_, _, _, rfl, rfl, rfl⟩
theorem ioWrin (ch n : Nat) (value : NUM) : Statement (.ioWrin ch n value) := ⟨_, _, _, rfl, decodeHeader_wrin _ _, rfl⟩
theorem ioRdout (ch n : Nat) : Statement (.ioRdout ch n) := ⟨_, _, _, rfl, decodeHeader_rdout _ _, rfl⟩

end Sys2Proof.Laws.PacketShape
end

