-- ==== Sys2Proof/Laws/Ring.lean ====
section
/-!
SUPPORT. The ring buffer: what its micro-operations do to its lookbacks, and that they keep it live
(`40_ringbuffer.md` R100, R107; `20_memory.md` R65; `10_state.md` R25).
-/

namespace Sys2Proof.Machine

/-! ### Lookbacks -/

theorem lookbackPos_lt (w : Nat) {N : Nat} (k : Int) (hN : 1 ≤ N) : lookbackPos w N k < N := imod_lt _ hN

/-- Lookbacks `k` and `k + N` are the same position. -/
theorem lookbackPos_add_capacity (w N : Nat) (k : Int) : lookbackPos w N (k + N) = lookbackPos w N k := by
  unfold lookbackPos
  apply imod_congr
  rw [show (w : Int) - 1 - (k + N) = (w : Int) - 1 - k - N by ring]
  simp

/-- Two lookbacks less than a capacity apart are different positions. -/
theorem lookbackPos_inj {w N : Nat} {j k : Int} (hN : 1 ≤ N) (h : lookbackPos w N j = lookbackPos w N k)
    (hlt : j - k < N) (hgt : k - j < N) : j = k := by
  have h' : (((w : Int) - 1 - j) % N) = (((w : Int) - 1 - k) % N) := by
    rw [← imod_eq_emod _ hN, ← imod_eq_emod _ hN]
    exact_mod_cast h
  have hd : (N : Int) ∣ j - k := by
    have := Int.emod_emod_of_dvd
    have h2 := Int.emod_eq_emod_iff_emod_sub_eq_zero.mp h'
    have h3 : ((w : Int) - 1 - j) - ((w : Int) - 1 - k) = k - j := by ring
    rw [h3] at h2
    have := Int.dvd_of_emod_eq_zero h2
    rw [show j - k = -(k - j) by ring]
    exact (dvd_neg).mpr this
  obtain ⟨q, hq⟩ := hd
  have hq0 : q = 0 := by
    by_contra hne
    rcases lt_or_gt_of_ne hne with h | h
    · have : (N : Int) * q ≤ (N : Int) * (-1) := mul_le_mul_of_nonneg_left (by omega) (by omega)
      omega
    · have : (N : Int) * 1 ≤ (N : Int) * q := mul_le_mul_of_nonneg_left (by omega) (by omega)
      omega
  rw [hq0] at hq; omega

/-- After a put, lookback `k` is at the position that was lookback `k - 1`. -/
theorem lookbackPos_put (w : Nat) {N : Nat} (k : Int) (hN : 1 ≤ N) :
    lookbackPos (imod ((w : Int) + 1) N) N k = lookbackPos w N (k - 1) := by
  unfold lookbackPos
  rw [show ((imod ((w : Int) + 1) N : Nat) : Int) - 1 - k = ((imod ((w : Int) + 1) N : Nat) : Int) - (1 + k) by ring,
    imod_imod_sub _ _ _ hN]
  congr 1; ring

/-- Lookback -1 is the write position. -/
theorem lookbackPos_neg_one {w N : Nat} (h : w < N) : lookbackPos w N (-1) = w := by
  unfold lookbackPos
  rw [imod_of_lt] <;> omega

/-- After a put, lookback 0 is the value put and lookback `k` is what lookback `k - 1` was. -/
theorem rbLookback_put (b : RBState) (v : NUM) (k : Int) (hw : b.w < b.N) (h0 : 0 ≤ k) (hk : k < b.N) :
    rbLookback (rbPut b v) k = if k = 0 then v else rbLookback b (k - 1) := by
  have hN : 1 ≤ b.N := by omega
  simp only [rbLookback, rbPut_w, rbPut_N, rbPut_buf, lookbackPos_put _ _ hN, read_write, Prod.mk.injEq, true_and]
  by_cases h : k = 0
  · subst h; simp [lookbackPos_neg_one hw]
  · have hne : ¬ lookbackPos b.w b.N (k - 1) = b.w := by
      intro e
      have := lookbackPos_inj hN (e.trans (lookbackPos_neg_one hw).symm) (by omega) (by omega)
      omega
    simp [h, hne]

@[simp] theorem rbLookback_advance (b : RBState) (k : Int) : rbLookback (rbAdvance b) k = rbLookback b k := rfl

theorem rbLookback_add_capacity (b : RBState) (k : Int) : rbLookback b (k + b.N) = rbLookback b k := by
  simp [rbLookback, lookbackPos_add_capacity]

theorem rbLookback_create (n : Nat) (k : Int) : rbLookback (rbCreate n) k = 0 := rfl

/-! ### The interpolated read -/

theorem rbGet_eq (ν : Numerics) (b : RBState) (o : NUM) :
    rbGet ν b o = lerp ν (ν.sub o (ν.ofInt (ν.floor o))) (rbLookback b (ν.floor o)) (rbLookback b (ν.floor o + 1)) := rfl

/-- The read over exact arithmetic. -/
theorem rbGet_exact (b : RBState) (o : NUM) : rbGet .exact b o =
    lerp .exact (o - (floorNum o : NUM)) (rbLookback b (floorNum o)) (rbLookback b (floorNum o + 1)) := rfl

@[simp] theorem rbGet_advance (ν : Numerics) (b : RBState) (o : NUM) : rbGet ν (rbAdvance b) o = rbGet ν b o := rfl

/-- At an integer offset the read is the element of that lookback (R107 (b)). -/
theorem rbGet_intCast (b : RBState) (k : Int) : rbGet .exact b (k : NUM) = rbLookback b k := by
  simp [rbGet_exact]

theorem rbGet_create (n : Nat) (o : NUM) : rbGet .exact (rbCreate n) o = 0 := by
  simp [rbGet_exact, rbLookback_create]

/-! ### Cursors -/

theorem rbAdvance_iterate (b : RBState) (n : Nat) (hr : b.r < b.N) :
    Nat.iterate rbAdvance n b = { b with r := (b.r + n) % b.N } := by
  induction n with
  | zero => simp [Nat.mod_eq_of_lt hr]
  | succ n ih =>
    rw [Function.iterate_succ_apply', ih]
    have : imod ((((b.r + n) % b.N : Nat) : Int) + 1) b.N = (b.r + (n + 1)) % b.N := by
      rw [show ((((b.r + n) % b.N : Nat) : Int) + 1) = (((b.r + n) % b.N + 1 : Nat) : Int) by push_cast; rfl,
        imod_natCast, Nat.mod_add_mod]
      rfl
    simp only [rbAdvance, this]

/-! ### Liveness is kept (R25) -/

theorem rbLive_create (bound : Option Nat) {n : Nat} (h : 1 ≤ n) (hf : fits bound n = true) :
    RbLive bound (rbCreate n) := by
  exact ⟨h, hf, h, h, rfl, rfl⟩

theorem rbLive_put {bound : Option Nat} {b : RBState} (h : RbLive bound b) (v : NUM) : RbLive bound (rbPut b v) := by
  obtain ⟨hN, hf, hw, hr, hwf, hin⟩ := h
  exact ⟨hN, hf, by simpa using imod_lt ((b.w : Int) + 1) hN, hr, wf_write _ _ _ hwf, within_write _ _ _ _ _ hin ⟨by simp, hw⟩⟩

theorem rbLive_advance {bound : Option Nat} {b : RBState} (h : RbLive bound b) : RbLive bound (rbAdvance b) := by
  obtain ⟨hN, hf, hw, hr, hwf, hin⟩ := h
  exact ⟨hN, hf, hw, by simpa using imod_lt ((b.r : Int) + 1) hN, hwf, hin⟩

theorem vibRing_create {n : Nat} (h : 1 ≤ n) : VibRing n (rbCreate n) := by
  exact ⟨rfl, rfl, h, h, rfl, rfl⟩

theorem vibRing_put {n : Nat} {b : RBState} (h : VibRing n b) (v : NUM) : VibRing n (rbPut b v) := by
  obtain ⟨hi, rfl, hw, hr, hwf, hin⟩ := h
  exact ⟨hi, rfl, by simpa using imod_lt ((b.w : Int) + 1) (Nat.one_le_of_lt hw), hr, wf_write _ _ _ hwf, within_write _ _ _ _ _ hin ⟨by simp, hw⟩⟩

theorem vibRing_advance {n : Nat} {b : RBState} (h : VibRing n b) : VibRing n (rbAdvance b) := by
  obtain ⟨hi, rfl, hw, hr, hwf, hin⟩ := h
  exact ⟨hi, rfl, hw, by simpa using imod_lt ((b.r : Int) + 1) (Nat.one_le_of_lt hw), hwf, hin⟩

end Sys2Proof.Machine
end

