-- ==== Sys2Proof/Laws/Vib.lean ====
section
/-!
SUPPORT. The vibrato: the pre-roll (`43_vibrato.md` R181), the closed form of one frame over any order of its channels
(R182, `20_memory.md` R72), of a run of frames (R184), and that they keep the unit legal (`10_state.md` R33).
-/

namespace Sys2Proof.Machine

variable {ν : Numerics}

theorem vibRingOf_mem {v : VIBState} {c : Nat} (h : c < v.rb.length) : vibRingOf v c ∈ v.rb := by
  simp [vibRingOf, List.getD_eq_getElem?_getD, List.getElem?_eq_getElem h]

theorem mem_iff_vibRingOf {v : VIBState} {b : RBState} : b ∈ v.rb ↔ ∃ c < v.rb.length, vibRingOf v c = b := by
  constructor
  · intro h
    obtain ⟨c, hc, rfl⟩ := List.getElem_of_mem h
    exact ⟨c, hc, by simp [vibRingOf, List.getD_eq_getElem?_getD, List.getElem?_eq_getElem hc]⟩
  · rintro ⟨c, hc, rfl⟩
    exact vibRingOf_mem hc

theorem getD_set (l : List RBState) (c d : Nat) (b : RBState) :
    (l.set c b).getD d RBState.reset = if d = c ∧ c < l.length then b else l.getD d RBState.reset := by
  simp only [List.getD_eq_getElem?_getD, List.getElem?_set]
  by_cases h : c = d
  · subst h
    by_cases hl : c < l.length
    · simp [hl]
    · simp [hl]
  · simp [h, Ne.symm h]

/-! ### The pre-roll -/

theorem vibModifyRings_spec (f : RBState → RBState) (l : List Nat) (hl : l.Nodup) (rings : List RBState) :
    (l.foldl (vibModifyRing f) rings).length = rings.length ∧
      ∀ c, (l.foldl (vibModifyRing f) rings).getD c RBState.reset =
        if c ∈ l ∧ c < rings.length then f (rings.getD c RBState.reset) else rings.getD c RBState.reset := by
  induction l generalizing rings with
  | nil => simp
  | cons d l ih =>
    obtain ⟨hd, hl⟩ := List.nodup_cons.mp hl
    obtain ⟨hlen, hget⟩ := ih hl (vibModifyRing f rings d)
    refine ⟨by simpa [vibModifyRing] using hlen, fun c => ?_⟩
    rw [List.foldl_cons, hget c]
    simp only [vibModifyRing, List.length_set, getD_set, List.mem_cons]
    by_cases hcd : c = d
    · subst hcd
      simp [hd]
    · simp [hcd]

theorem vibPreroll_length (v : VIBState) : (vibPreroll v).rb.length = v.rb.length :=
  (vibModifyRings_spec _ _ List.nodup_range v.rb).1

/-- The pre-roll moves the read cursor of every channel `N - M` positions (R181). -/
theorem vibPreroll_ring (v : VIBState) {c : Nat} (hc : c < v.C) (hl : v.rb.length = v.C) :
    vibRingOf (vibPreroll v) c = Nat.iterate rbAdvance (v.N - v.M) (vibRingOf v c) := by
  have h := (vibModifyRings_spec (fun b => Nat.iterate rbAdvance (v.N - v.M) b) (List.range v.C) List.nodup_range v.rb).2 c
  simp only [List.mem_range, hl, hc, and_self, if_true] at h
  exact h

section preroll
variable (v : VIBState)
@[simp] theorem vibPreroll_init : (vibPreroll v).init = v.init := rfl
@[simp] theorem vibPreroll_fs : (vibPreroll v).fs = v.fs := rfl
@[simp] theorem vibPreroll_maxDelaySec : (vibPreroll v).maxDelaySec = v.maxDelaySec := rfl
@[simp] theorem vibPreroll_C : (vibPreroll v).C = v.C := rfl
@[simp] theorem vibPreroll_M : (vibPreroll v).M = v.M := rfl
@[simp] theorem vibPreroll_N : (vibPreroll v).N = v.N := rfl
@[simp] theorem vibPreroll_delaySec : (vibPreroll v).delaySec = v.delaySec := rfl
@[simp] theorem vibPreroll_blockSize : (vibPreroll v).blockSize = v.blockSize := rfl
@[simp] theorem vibPreroll_warmedUp : (vibPreroll v).warmedUp = true := rfl
@[simp] theorem vibPreroll_lfo : (vibPreroll v).lfo = v.lfo := rfl
end preroll

/-- The pre-roll keeps the unit legal: the read cursor then trails the write cursor by `M` (R181, R33). -/
theorem vibLive_preroll {p : Params} {v : VIBState} (h : VibLive p v) (hcold : v.warmedUp = false) :
    VibLive p (vibPreroll v) := by
  obtain ⟨h1, h2, h3, h4, h5, h6, h7, h8, h9, hring, -, hfresh, -, hlfo⟩ := h
  have hfresh := hfresh hcold
  have hN : 1 ≤ v.N := by omega
  have hform : ∀ b ∈ (vibPreroll v).rb, ∃ a ∈ v.rb, b = { a with r := (v.M + 2) % v.N } := by
    intro b hb
    obtain ⟨c, hc, rfl⟩ := mem_iff_vibRingOf.mp hb
    rw [vibPreroll_length, h9] at hc
    have hmem := vibRingOf_mem (v := v) (c := c) (by omega)
    obtain ⟨-, hn, -, hr, -⟩ := hring _ hmem
    refine ⟨_, hmem, ?_⟩
    rw [vibPreroll_ring v hc h9, rbAdvance_iterate _ _ (by omega), hn, (hfresh _ hmem).2.1]
    congr 2
    omega
  refine ⟨h1, h2, h3, h4, h5, h6, h7, h8, by rw [vibPreroll_length, h9]; rfl, ?_, ?_, ?_, ?_, hlfo⟩
  · intro b hb
    obtain ⟨a, ha, rfl⟩ := hform b hb
    obtain ⟨g1, g2, g3, g4, g5, g6⟩ := hring a ha
    exact ⟨g1, g2, g3, Nat.mod_lt _ hN, g5, g6⟩
  · intro b hb b' hb'
    obtain ⟨a, ha, rfl⟩ := hform b hb
    obtain ⟨a', ha', rfl⟩ := hform b' hb'
    exact ⟨by rw [(hfresh a ha).1, (hfresh a' ha').1], rfl⟩
  · intro hw; exact absurd hw (by simp)
  · intro _ b hb
    obtain ⟨a, ha, rfl⟩ := hform b hb
    simp only [(hfresh a ha).1, vibPreroll_N, vibPreroll_M]
    rw [← imod_natCast, imod_sub_imod _ _ _ hN]
    rw [imod_congr (b := (v.M : Int)), imod_of_lt] <;> try omega
    rw [h5]
    push_cast
    rw [show ((0 : Int) - (v.M + 2)) = v.M + (2 * v.M + 2) * (-1) by ring, Int.add_mul_emod_self_left]

/-! ### The frame step -/

/-- The ring of channel `c` after its input sample of frame `i` has been put (R182). -/
def vibPutRing (k : CoreState) (i c : Nat) : RBState := rbPut (vibRingOf k.vib c) (Memory.read k.inMem (c, i))

theorem vibChannel_eq (i c : Nat) (v : NUM) (k : CoreState) :
    vibChannel ν i v k c = { k with
      outMem := Memory.write k.outMem (c, i) (rbGet ν (vibPutRing k i c) (ν.add (ν.ofInt k.vib.M) v))
      vib := { k.vib with rb := k.vib.rb.set c (rbAdvance (vibPutRing k i c)) } } := rfl

theorem vibRingOf_vibChannel (i c d : Nat) (v : NUM) (k : CoreState) :
    vibRingOf (vibChannel ν i v k d).vib c =
      if c = d ∧ d < k.vib.rb.length then rbAdvance (vibPutRing k i d) else vibRingOf k.vib c :=
  getD_set _ _ _ _

/-- Channels handled in any order, each once: what they leave. -/
theorem vibChannels_spec (i : Nat) (v : NUM) (l : List Nat) (hl : l.Nodup) (k : CoreState) :
    ∃ out rb, l.foldl (vibChannel ν i v) k = { k with outMem := out, vib := { k.vib with rb := rb } } ∧
      rb.length = k.vib.rb.length ∧
      (∀ a, Memory.read out a = if a.2 = i ∧ a.1 ∈ l then rbGet ν (vibPutRing k i a.1) (ν.add (ν.ofInt k.vib.M) v)
        else Memory.read k.outMem a) ∧
      (∀ c, rb.getD c RBState.reset = if c ∈ l ∧ c < k.vib.rb.length then rbAdvance (vibPutRing k i c)
        else vibRingOf k.vib c) ∧
      (Memory.wf k.outMem = true → Memory.wf out = true) := by
  induction l generalizing k with
  | nil => exact ⟨k.outMem, k.vib.rb, rfl, rfl, by simp, by simp [vibRingOf], id⟩
  | cons d l ih =>
    obtain ⟨hd, hl⟩ := List.nodup_cons.mp hl
    obtain ⟨out, rb, he, hlen, hout, hrb, hwo⟩ := ih hl (vibChannel ν i v k d)
    have hput : ∀ c ∈ l, vibPutRing (vibChannel ν i v k d) i c = vibPutRing k i c := by
      intro c hc
      have hcd : c ≠ d := fun e => hd (e ▸ hc)
      simp [vibPutRing, vibRingOf_vibChannel, hcd]
    refine ⟨out, rb, ?_, ?_, ?_, ?_, ?_⟩
    · rw [List.foldl_cons, he, vibChannel_eq]
    · rw [hlen, vibChannel_eq]; simp
    · intro a
      rw [hout a]
      by_cases h2 : a.2 = i
      · by_cases hal : a.1 ∈ l
        · simp [h2, hal, hput _ hal]
        · by_cases hac : a.1 = d
          · have : a = (d, i) := Prod.ext hac h2
            subst this
            simp [hal, vibChannel_eq]
          · have : a ≠ (d, i) := fun e => hac (by rw [e])
            simp [h2, hal, hac, vibChannel_eq, this]
      · have : a ≠ (d, i) := fun e => h2 (by rw [e])
        simp [h2, vibChannel_eq, this]
    · intro c
      rw [hrb c]
      have hlen' : (vibChannel ν i v k d).vib.rb.length = k.vib.rb.length := by rw [vibChannel_eq]; simp
      rw [hlen']
      by_cases hcl : c ∈ l
      · have hcd : c ≠ d := fun e => hd (e ▸ hcl)
        by_cases hlt : c < k.vib.rb.length
        · simp [hcl, hlt, hput _ hcl]
        · simp [hlt, vibRingOf_vibChannel, hcd]
      · by_cases hcd : c = d
        · subst hcd
          simp [hcl, vibRingOf_vibChannel]
        · simp [hcl, hcd, vibRingOf_vibChannel]
    · intro h
      exact hwo (by rw [vibChannel_eq]; exact wf_write _ _ _ h)

theorem vibChannels_within (i : Nat) (v : NUM) (l : List Nat) (k : CoreState) {C F : Nat} (hl : ∀ c ∈ l, c < C) (hi : i < F)
    (ho : Memory.within k.outMem C F = true) : Memory.within (l.foldl (vibChannel ν i v) k).outMem C F = true := by
  induction l generalizing k with
  | nil => exact ho
  | cons c l ih =>
    refine ih (vibChannel ν i v k c) (fun d hd => hl d (by simp [hd])) ?_
    rw [vibChannel_eq]
    exact within_write _ _ _ _ _ ho ⟨hl c (by simp), hi⟩

/-- One frame (R182): the LFO stepped once, every channel's output and ring; nothing else. -/
theorem vibFrame_spec (k : CoreState) (i : Nat) :
    ∃ out rb, vibFrame ν k i = { k with outMem := out, vib := { k.vib with rb := rb, lfo := lfoAdvance ν k.vib.lfo } } ∧
      rb.length = k.vib.rb.length ∧
      (∀ a, Memory.read out a = if a.2 = i ∧ a.1 < k.vib.C
        then rbGet ν (vibPutRing k i a.1) (ν.add (ν.ofInt k.vib.M) (lfoValue ν k.vib.lfo)) else Memory.read k.outMem a) ∧
      (∀ c, rb.getD c RBState.reset = if c < k.vib.C ∧ c < k.vib.rb.length then rbAdvance (vibPutRing k i c)
        else vibRingOf k.vib c) ∧
      (Memory.wf k.outMem = true → Memory.wf out = true) := by
  obtain ⟨out, rb, he, hlen, hout, hrb, hwo⟩ := vibChannels_spec (ν := ν) i (lfoValue ν k.vib.lfo) (List.range k.vib.C)
    List.nodup_range { k with vib := { k.vib with lfo := lfoAdvance ν k.vib.lfo } }
  refine ⟨out, rb, ?_, hlen, fun a => ?_, fun c => ?_, hwo⟩
  · rw [vibFrame, he]
  · have h := hout a
    simp only [List.mem_range] at h
    exact h
  · have h := hrb c
    simp only [List.mem_range] at h
    exact h

theorem vibFrames_succ (k : CoreState) (n : Nat) : vibFrames ν k (n + 1) = vibFrame ν (vibFrames ν k n) n := by
  simp [vibFrames, List.range_succ]

@[simp] theorem vibFrames_zero (k : CoreState) : vibFrames ν k 0 = k := rfl

/-- A run of frames writes the output block, the rings and the LFO's phase, and nothing else. -/
theorem vibFrames_shape (k : CoreState) (n : Nat) :
    vibFrames ν k n = { k with
      outMem := (vibFrames ν k n).outMem
      vib := { k.vib with rb := (vibFrames ν k n).vib.rb, lfo := Nat.iterate (lfoAdvance ν) n k.vib.lfo } } := by
  induction n with
  | zero => rfl
  | succ n ih =>
    obtain ⟨out, rb, he, -⟩ := vibFrame_spec (ν := ν) (vibFrames ν k n) n
    rw [vibFrames_succ, he, Function.iterate_succ_apply', ih]

section shape
variable (k : CoreState) (n : Nat)
@[simp] theorem vibFrames_rb0 : (vibFrames ν k n).rb0 = k.rb0 := by rw [vibFrames_shape]
@[simp] theorem vibFrames_lfo0 : (vibFrames ν k n).lfo0 = k.lfo0 := by rw [vibFrames_shape]
@[simp] theorem vibFrames_cf : (vibFrames ν k n).cf = k.cf := by rw [vibFrames_shape]
@[simp] theorem vibFrames_inMem : (vibFrames ν k n).inMem = k.inMem := by rw [vibFrames_shape]
@[simp] theorem vibFrames_init : (vibFrames ν k n).vib.init = k.vib.init := by rw [vibFrames_shape]
@[simp] theorem vibFrames_fs : (vibFrames ν k n).vib.fs = k.vib.fs := by rw [vibFrames_shape]
@[simp] theorem vibFrames_maxDelaySec : (vibFrames ν k n).vib.maxDelaySec = k.vib.maxDelaySec := by rw [vibFrames_shape]
@[simp] theorem vibFrames_C : (vibFrames ν k n).vib.C = k.vib.C := by rw [vibFrames_shape]
@[simp] theorem vibFrames_M : (vibFrames ν k n).vib.M = k.vib.M := by rw [vibFrames_shape]
@[simp] theorem vibFrames_N : (vibFrames ν k n).vib.N = k.vib.N := by rw [vibFrames_shape]
@[simp] theorem vibFrames_delaySec : (vibFrames ν k n).vib.delaySec = k.vib.delaySec := by rw [vibFrames_shape]
@[simp] theorem vibFrames_blockSize : (vibFrames ν k n).vib.blockSize = k.vib.blockSize := by rw [vibFrames_shape]
@[simp] theorem vibFrames_warmedUp : (vibFrames ν k n).vib.warmedUp = k.vib.warmedUp := by rw [vibFrames_shape]
@[simp] theorem vibFrames_lfo : (vibFrames ν k n).vib.lfo = Nat.iterate (lfoAdvance ν) n k.vib.lfo := by
  conv_lhs => rw [vibFrames_shape]
end shape

theorem vibFrames_length (k : CoreState) (n : Nat) : (vibFrames ν k n).vib.rb.length = k.vib.rb.length := by
  induction n with
  | zero => rfl
  | succ n ih =>
    obtain ⟨out, rb, he, hlen, -⟩ := vibFrame_spec (ν := ν) (vibFrames ν k n) n
    rw [vibFrames_succ, he, ← ih]
    exact hlen

/-- Outside the frames and channels handled the output block keeps its value (`20_memory.md` R66). -/
theorem vibFrames_out_other (k : CoreState) (n : Nat) (a : Index) (h : ¬ (a.1 < k.vib.C ∧ a.2 < n)) :
    Memory.read (vibFrames ν k n).outMem a = Memory.read k.outMem a := by
  induction n with
  | zero => rfl
  | succ n ih =>
    obtain ⟨out, rb, he, -, hout, -⟩ := vibFrame_spec (ν := ν) (vibFrames ν k n) n
    rw [vibFrames_succ, he]
    simp only [hout, vibFrames_C]
    rw [if_neg (by omega), ih (by omega)]

/-- The ring of channel `c` after one more frame. -/
theorem vibFrames_ring_succ (k : CoreState) (n c : Nat) (hc : c < k.vib.C) (hl : k.vib.rb.length = k.vib.C) :
    vibRingOf (vibFrames ν k (n + 1)).vib c =
      rbAdvance (rbPut (vibRingOf (vibFrames ν k n).vib c) (Memory.read k.inMem (c, n))) := by
  obtain ⟨out, rb, he, -, -, hrb, -⟩ := vibFrame_spec (ν := ν) (vibFrames ν k n) n
  rw [vibFrames_succ, he]
  show rb.getD c RBState.reset = _
  rw [hrb c, vibFrames_C, vibFrames_length, hl]
  simp [hc, vibPutRing]

/-- The element that lookback `j` of channel `c` reads in frame `t`, once the frame's sample has been put: an input
sample of this block, or what the ring held before it (R184). -/
def vibHistory (k : CoreState) (c t j : Nat) : NUM :=
  if j ≤ t then Memory.read k.inMem (c, t - j) else rbLookback (vibRingOf k.vib c) ((j : Int) - t - 1)

/-- The ring of channel `c` after `n` frames: its cursors, and its lookbacks. -/
theorem vibFrames_ring (k : CoreState) (n c : Nat) (hc : c < k.vib.C) (hl : k.vib.rb.length = k.vib.C)
    (hw : (vibRingOf k.vib c).w < (vibRingOf k.vib c).N) :
    (vibRingOf (vibFrames ν k n).vib c).N = (vibRingOf k.vib c).N ∧
      (vibRingOf (vibFrames ν k n).vib c).w = ((vibRingOf k.vib c).w + n) % (vibRingOf k.vib c).N ∧
      ∀ j < (vibRingOf k.vib c).N, rbLookback (vibRingOf (vibFrames ν k n).vib c) (j : Int) =
        if j < n then Memory.read k.inMem (c, n - 1 - j) else rbLookback (vibRingOf k.vib c) ((j : Int) - n) := by
  induction n with
  | zero => exact ⟨rfl, by simp [Nat.mod_eq_of_lt hw], fun j _ => by simp⟩
  | succ n ih =>
    obtain ⟨hN, hwn, hj⟩ := ih
    rw [vibFrames_ring_succ (ν := ν) k n c hc hl]
    refine ⟨hN, ?_, fun j hjN => ?_⟩
    · simp only [rbAdvance_w, rbPut_w, hN, hwn]
      rw [show ((((vibRingOf k.vib c).w + n) % (vibRingOf k.vib c).N : Nat) : Int) + 1 =
        ((((vibRingOf k.vib c).w + n) % (vibRingOf k.vib c).N + 1 : Nat) : Int) by push_cast; rfl, imod_natCast,
        Nat.mod_add_mod]
      rfl
    · have hwlt : (vibRingOf (vibFrames ν k n).vib c).w < (vibRingOf (vibFrames ν k n).vib c).N := by
        rw [hN, hwn]; exact Nat.mod_lt _ (by omega)
      rw [rbLookback_advance, rbLookback_put _ _ _ hwlt (by omega) (by rw [hN]; omega)]
      by_cases hj0 : j = 0
      · subst hj0; simp
      · have h1 : ((j : Int) - 1) = ((j - 1 : Nat) : Int) := by omega
        rw [if_neg (by omega), h1, hj (j - 1) (by omega)]
        by_cases hjn : j < n + 1
        · rw [if_pos (by omega), if_pos hjn]
          congr 2; omega
        · rw [if_neg (by omega), if_neg hjn]
          congr 1; push_cast; omega

/-- The output of the vibrato (R184): inside the contract range, frame `t` interpolates between the samples `k` and
`k + 1` frames back, where `k` is the integer part of `M` plus the frame's LFO value. -/
theorem vibFrames_out (k : CoreState) (n c : Nat) (hc : c < k.vib.C) (hl : k.vib.rb.length = k.vib.C)
    (hw : (vibRingOf k.vib c).w < (vibRingOf k.vib c).N) (t : Nat) (ht : t < n) (o : NUM)
    (ho : o = ν.add (ν.ofInt k.vib.M) (lfoValue ν (Nat.iterate (lfoAdvance ν) t k.vib.lfo))) (h0 : 0 ≤ ν.floor o)
    (h1 : ν.floor o + 1 < ((vibRingOf k.vib c).N : Int)) :
    Memory.read (vibFrames ν k n).outMem (c, t) =
      lerp ν (ν.sub o (ν.ofInt (ν.floor o))) (vibHistory k c t (ν.floor o).toNat)
        (vibHistory k c t ((ν.floor o).toNat + 1)) := by
  induction n with
  | zero => omega
  | succ n ih =>
    obtain ⟨out, rb, he, -, hout, -⟩ := vibFrame_spec (ν := ν) (vibFrames ν k n) n
    rw [vibFrames_succ, he]
    simp only [hout, vibFrames_C]
    by_cases htn : t = n
    · subst htn
      rw [if_pos ⟨rfl, hc⟩, vibFrames_M, vibFrames_lfo, ← ho, rbGet_eq]
      obtain ⟨hN, hwn, hj⟩ := vibFrames_ring (ν := ν) k t c hc hl hw
      have hwlt : (vibRingOf (vibFrames ν k t).vib c).w < (vibRingOf (vibFrames ν k t).vib c).N := by
        rw [hN, hwn]; exact Nat.mod_lt _ (by omega)
      have key : ∀ j : Nat, j < (vibRingOf k.vib c).N →
          rbLookback (vibPutRing (vibFrames ν k t) t c) (j : Int) = vibHistory k c t j := by
        intro j hjN
        unfold vibPutRing
        rw [rbLookback_put _ _ _ hwlt (by omega) (by rw [hN]; omega)]
        unfold vibHistory
        by_cases hj0 : j = 0
        · subst hj0; simp
        · have e1 : ((j : Int) - 1) = ((j - 1 : Nat) : Int) := by omega
          rw [if_neg (by omega), e1, hj (j - 1) (by omega)]
          by_cases hjt : j ≤ t
          · rw [if_pos (by omega), if_pos hjt]
            congr 2; omega
          · rw [if_neg (by omega), if_neg hjt]
            congr 1; omega
      have ek : ν.floor o = ((ν.floor o).toNat : Int) := by omega
      have ek' : ν.floor o + 1 = (((ν.floor o).toNat + 1 : Nat) : Int) := by omega
      have k1 := key (ν.floor o).toNat (by omega)
      have k2 := key ((ν.floor o).toNat + 1) (by omega)
      rw [← ek] at k1
      rw [← ek'] at k2
      rw [k1, k2]
    · rw [if_neg (by simp; omega)]
      exact ih (by omega)

/-! ### Frames keep the unit legal -/

/-- Over exact arithmetic a frame keeps a warm unit legal (R33). -/
theorem vibLive_frame {p : Params} {k : CoreState} (h : VibLive p k.vib) (hwarm : k.vib.warmedUp = true) (i : Nat) :
    VibLive p (vibFrame .exact k i).vib := by
  obtain ⟨h1, h2, h3, h4, h5, h6, h7, h8, h9, hring, hsame, -, htrail, g1, g2, g3, g4, g5, g6⟩ := h
  obtain ⟨out, rb, he, hlen, -, hrb, -⟩ := vibFrame_spec (ν := .exact) k i
  have hform : ∀ b ∈ rb, ∃ a ∈ k.vib.rb, ∃ x, b = rbAdvance (rbPut a x) := by
    intro b hb
    obtain ⟨c, hc, rfl⟩ := List.getElem_of_mem hb
    have hg := hrb c
    rw [List.getD_eq_getElem?_getD, List.getElem?_eq_getElem hc, Option.getD_some, if_pos (by omega)] at hg
    exact ⟨vibRingOf k.vib c, vibRingOf_mem (by omega), _, hg⟩
  have hN : 1 ≤ k.vib.N := by omega
  rw [he]
  refine ⟨h1, h2, h3, h4, h5, h6, h7, h8, by rw [hlen]; exact h9, ?_, ?_, ?_, ?_, g1, g2, g3, g4, g5, lfoLive_advance g6⟩
  · intro b hb
    obtain ⟨a, ha, x, rfl⟩ := hform b hb
    exact vibRing_advance (vibRing_put (hring a ha) x)
  · intro b hb b' hb'
    obtain ⟨a, ha, x, rfl⟩ := hform b hb
    obtain ⟨a', ha', x', rfl⟩ := hform b' hb'
    obtain ⟨e1, e2⟩ := hsame a ha a' ha'
    simp [e1, e2, (hring a ha).2.1, (hring a' ha').2.1]
  · intro hw
    simp only at hw
    rw [hwarm] at hw
    exact absurd hw (by simp)
  · intro _ b hb
    obtain ⟨a, ha, x, rfl⟩ := hform b hb
    have ht := htrail hwarm a ha
    simp only [rbAdvance_w, rbPut_w, rbAdvance_r, rbPut_r, rbPut_N, (hring a ha).2.1]
    rw [imod_sub_imod _ _ _ hN, imod_imod_sub _ _ _ hN, ← ht]
    congr 1; ring

/-- A frame on no more channels than there are keeps the output block legal (R34). -/
theorem blockInv_vibFrame {p : Params} {k : CoreState} (hC : k.vib.C ≤ p.maxCh) (ho : BlockInv p k.outMem) {i : Nat}
    (hi : i < p.blkMax) : BlockInv p (vibFrame ν k i).outMem := by
  obtain ⟨out, rb, he, -, -, -, hwo⟩ := vibFrame_spec (ν := ν) k i
  have hin : Memory.within (vibFrame ν k i).outMem p.maxCh p.blkMax = true :=
    vibChannels_within (ν := ν) i (lfoValue ν k.vib.lfo) (List.range k.vib.C)
      { k with vib := { k.vib with lfo := lfoAdvance ν k.vib.lfo } }
      (fun c hc => Nat.lt_of_lt_of_le (List.mem_range.mp hc) hC) hi ho.2
  have hout : (vibFrame ν k i).outMem = out := by rw [he]
  exact ⟨by rw [hout]; exact hwo ho.1, hin⟩

/-- Over exact arithmetic frames keep a warm unit legal (R33). -/
theorem vibLive_frames {p : Params} {k : CoreState} (h : VibLive p k.vib) (hwarm : k.vib.warmedUp = true) (n : Nat) :
    VibLive p (vibFrames .exact k n).vib := by
  induction n with
  | zero => exact h
  | succ n ih => rw [vibFrames_succ]; exact vibLive_frame ih (by simpa using hwarm) n

/-- Frames keep the output block legal (R34). -/
theorem blockInv_vibFrames {p : Params} {k : CoreState} (hC : k.vib.C ≤ p.maxCh) (ho : BlockInv p k.outMem) {n : Nat}
    (hn : n ≤ p.blkMax) : BlockInv p (vibFrames ν k n).outMem := by
  induction n with
  | zero => exact ho
  | succ n ih => rw [vibFrames_succ]; exact blockInv_vibFrame (by simpa using hC) (ih (by omega)) (by omega)

theorem vibWarm_vib (k : CoreState) : (vibWarm k).vib = if k.vib.warmedUp then k.vib else vibPreroll k.vib := by
  unfold vibWarm
  split <;> simp_all

theorem vibWarm_eq (k : CoreState) : vibWarm k = { k with vib := (vibWarm k).vib } := by
  unfold vibWarm
  split <;> rfl

theorem vibWarm_warmedUp (k : CoreState) : (vibWarm k).vib.warmedUp = true := by
  rw [vibWarm_vib]
  split <;> simp_all

theorem vibLive_warm {p : Params} {k : CoreState} (h : VibLive p k.vib) : VibLive p (vibWarm k).vib := by
  rw [vibWarm_vib]
  split
  · exact h
  · exact vibLive_preroll h (by simpa using ‹¬ k.vib.warmedUp = true›)

end Sys2Proof.Machine
end

