-- ==== Sys2Proof/Machine/Assembler.lean ====
section
/-!
DEFINITION. The assembler form of a command (`30_encoding.md` R92) and the pseudo-instructions (R93). Informative: no
step reads them.
-/

namespace Sys2Proof.Machine

/-- A `NUM` operand as text: an integer, or an exact fraction (R92). -/
def numText (v : NUM) : String :=
  if v.den = 1 then toString v.num else toString v.num ++ "/" ++ toString v.den

/-- A mnemonic followed by its operands, comma separated (R92). -/
def asmLine (mnemonic : String) (operands : List String) : String :=
  match operands with
  | [] => mnemonic
  | _ :: _ => mnemonic ++ " " ++ ", ".intercalate operands

/-- The assembler form of a command (R92): operands in slot order, an IO command's channel and frame first. -/
def asm : Instr → String
  | .sysNop => asmLine "SYS.NOP" []
  | .rbInit capacity => asmLine "RB.INIT" [toString capacity]
  | .rbReset => asmLine "RB.RESET" []
  | .rbPut value => asmLine "RB.PUT" [numText value]
  | .rbGetpi => asmLine "RB.GETPI" []
  | .rbGet offset => asmLine "RB.GET" [numText offset]
  | .rbGetwidx => asmLine "RB.GETWIDX" []
  | .lfoInitSine fref fs => asmLine "LFO.INIT.SINE" [numText fref, numText fs]
  | .lfoInitSaw fref fs => asmLine "LFO.INIT.SAW" [numText fref, numText fs]
  | .lfoInitPulse fref fs => asmLine "LFO.INIT.PULSE" [numText fref, numText fs]
  | .lfoResetKeep => asmLine "LFO.RESET.KEEP" []
  | .lfoResetFree => asmLine "LFO.RESET.FREE" []
  | .lfoSetamp amplitude => asmLine "LFO.SETAMP" [numText amplitude]
  | .lfoSetfreq hz => asmLine "LFO.SETFREQ" [numText hz]
  | .lfoGetamp => asmLine "LFO.GETAMP" []
  | .lfoGetfreq => asmLine "LFO.GETFREQ" []
  | .lfoGetvalue => asmLine "LFO.GETVALUE" []
  | .lfoResetpos => asmLine "LFO.RESETPOS" []
  | .cfInitFir maxDelaySec fs numChannels =>
    asmLine "CF.INIT.FIR" [numText maxDelaySec, numText fs, toString numChannels]
  | .cfInitIir maxDelaySec fs numChannels =>
    asmLine "CF.INIT.IIR" [numText maxDelaySec, numText fs, toString numChannels]
  | .cfReset => asmLine "CF.RESET" []
  | .cfSetgain gain => asmLine "CF.SETGAIN" [numText gain]
  | .cfSetdelay seconds => asmLine "CF.SETDELAY" [numText seconds]
  | .cfGetgain => asmLine "CF.GETGAIN" []
  | .cfGetdelay => asmLine "CF.GETDELAY" []
  | .cfProcess frameCount => asmLine "CF.PROCESS" [toString frameCount]
  | .vibInit maxDelaySec fs numChannels =>
    asmLine "VIB.INIT" [numText maxDelaySec, numText fs, toString numChannels]
  | .vibReset => asmLine "VIB.RESET" []
  | .vibSetdelay seconds => asmLine "VIB.SETDELAY" [numText seconds]
  | .vibSetfreq hz => asmLine "VIB.SETFREQ" [numText hz]
  | .vibSetblock blockSize => asmLine "VIB.SETBLOCK" [toString blockSize]
  | .vibGetdelay => asmLine "VIB.GETDELAY" []
  | .vibGetfreq => asmLine "VIB.GETFREQ" []
  | .vibGetblock => asmLine "VIB.GETBLOCK" []
  | .vibProcess frameCount => asmLine "VIB.PROCESS" [toString frameCount]
  | .ioWrin ch n value => asmLine "IO.WRIN" [toString ch, toString n, numText value]
  | .ioRdout ch n => asmLine "IO.RDOUT" [toString ch, toString n]

/-- The five pseudo-instructions (R93). -/
inductive Pseudo where
  /-- `IO.WRBLK c, [v0, v1, ..., vk]`. -/
  | wrblk (c : Nat) (values : List NUM)
  /-- `IO.RDBLK c, k`. -/
  | rdblk (c k : Nat)
  /-- `LFO.INIT w, fref, fs`. -/
  | lfoInit (w : Waveform) (fref fs : NUM)
  /-- `LFO.RESET free`. -/
  | lfoReset (free : Bool)
  /-- `CF.INIT t, maxDelaySec, fs, numChannels`. -/
  | cfInit (t : FilterType) (maxDelaySec fs : NUM) (numChannels : Int)
deriving DecidableEq, Repr

/-- The command sequence a pseudo-instruction stands for (R93). -/
def expand : Pseudo → List Instr
  | .wrblk c values => values.zipIdx.map fun p => .ioWrin c p.2 p.1
  | .rdblk c k => (List.range k).map fun n => .ioRdout c n
  | .lfoInit .sine fref fs => [.lfoInitSine fref fs]
  | .lfoInit .saw fref fs => [.lfoInitSaw fref fs]
  | .lfoInit .pulse fref fs => [.lfoInitPulse fref fs]
  | .lfoReset false => [.lfoResetKeep]
  | .lfoReset true => [.lfoResetFree]
  | .cfInit .fir maxDelaySec fs numChannels => [.cfInitFir maxDelaySec fs numChannels]
  | .cfInit .iir maxDelaySec fs numChannels => [.cfInitIir maxDelaySec fs numChannels]

end Sys2Proof.Machine
end

