-- ==== Sys2Proof/Tests/Slice0.lean ====
section
/-!
SUPPORT. Tests and witnesses. The expected results come from `spec/` (the vectors of `95_test_vectors.md`, the words of
`30_encoding.md` R86), never from the model. The `witness_…` theorems show states and operands that meet the hypotheses
of the statement they are named after.
-/

namespace Sys2Proof.Tests

open Sys2Proof.Machine

/-! ### Well-formedness -/

theorem test_wf_refuses_int_too_large : [Instr.rbInit 2147483648, .cfInitFir 1 8 2147483648, .cfInitIir 1 8 2147483648,
    .cfProcess 2147483648, .vibInit 1 8 2147483648, .vibSetblock 2147483648, .vibProcess 2147483648].map
      Instr.wellFormed = List.replicate 7 false := by decide +kernel

theorem test_wf_refuses_int_too_small : [Instr.rbInit (-2147483649), .cfInitFir 1 8 (-2147483649),
    .cfInitIir 1 8 (-2147483649), .cfProcess (-2147483649), .vibInit 1 8 (-2147483649), .vibSetblock (-2147483649),
    .vibProcess (-2147483649)].map Instr.wellFormed = List.replicate 7 false := by decide +kernel

theorem test_wf_refuses_channel_256 : ¬ WellFormed (.ioWrin 256 0 1) ∧ ¬ WellFormed (.ioRdout 256 0) := by
  decide +kernel

theorem test_wf_refuses_frame_65536 : ¬ WellFormed (.ioWrin 0 65536 1) ∧ ¬ WellFormed (.ioRdout 0 65536) := by
  decide +kernel

theorem test_wf_accepts_ends : [Instr.rbInit (-2147483648), .cfProcess 2147483647, .ioWrin 255 65535 (1 / 3),
    .ioRdout 0 0].all Instr.wellFormed = true := by decide +kernel

/-! ### Decoding: the words of R86, written out -/

theorem test_decode_sys : decode [.word 0x00000000#32] = .command .sysNop [] := by decide +kernel

theorem test_decode_rb :
    decode [.word 0x10000000#32, .word 0xFFFFFFFE#32] = .command (.rbInit (-2)) [] ∧
    decode [.word 0x11000000#32] = .command .rbReset [] ∧
    decode [.word 0x12000000#32, .num (7 / 3)] = .command (.rbPut (7 / 3)) [] ∧
    decode [.word 0x13000000#32] = .command .rbGetpi [] ∧
    decode [.word 0x14000000#32, .num (-1 / 2)] = .command (.rbGet (-1 / 2)) [] ∧
    decode [.word 0x15000000#32] = .command .rbGetwidx [] := by decide +kernel

theorem test_decode_lfo :
    decode [.word 0x20000000#32, .num 1, .num 4] = .command (.lfoInitSine 1 4) [] ∧
    decode [.word 0x20010000#32, .num 1, .num 4] = .command (.lfoInitSaw 1 4) [] ∧
    decode [.word 0x20020000#32, .num 2, .num 8] = .command (.lfoInitPulse 2 8) [] ∧
    decode [.word 0x21000000#32] = .command .lfoResetKeep [] ∧
    decode [.word 0x21010000#32] = .command .lfoResetFree [] ∧
    decode [.word 0x22000000#32, .num 2] = .command (.lfoSetamp 2) [] ∧
    decode [.word 0x22010000#32, .num (3 / 2)] = .command (.lfoSetfreq (3 / 2)) [] ∧
    decode [.word 0x23000000#32] = .command .lfoGetamp [] ∧
    decode [.word 0x23010000#32] = .command .lfoGetfreq [] ∧
    decode [.word 0x24000000#32] = .command .lfoGetvalue [] ∧
    decode [.word 0x25000000#32] = .command .lfoResetpos [] := by decide +kernel

theorem test_decode_cf :
    decode [.word 0x30000000#32, .num 1, .num 8, .word 1#32] = .command (.cfInitFir 1 8 1) [] ∧
    decode [.word 0x30010000#32, .num 1, .num 8, .word 2#32] = .command (.cfInitIir 1 8 2) [] ∧
    decode [.word 0x31000000#32] = .command .cfReset [] ∧
    decode [.word 0x32000000#32, .num (-1)] = .command (.cfSetgain (-1)) [] ∧
    decode [.word 0x32010000#32, .num 1] = .command (.cfSetdelay 1) [] ∧
    decode [.word 0x33000000#32] = .command .cfGetgain [] ∧
    decode [.word 0x33010000#32] = .command .cfGetdelay [] ∧
    decode [.word 0x34000000#32, .word 9#32] = .command (.cfProcess 9) [] := by decide +kernel

theorem test_decode_vib :
    decode [.word 0x40000000#32, .num (1 / 2), .num 4, .word 1#32] = .command (.vibInit (1 / 2) 4 1) [] ∧
    decode [.word 0x41000000#32] = .command .vibReset [] ∧
    decode [.word 0x42000000#32, .num (1 / 4)] = .command (.vibSetdelay (1 / 4)) [] ∧
    decode [.word 0x42010000#32, .num 1] = .command (.vibSetfreq 1) [] ∧
    decode [.word 0x42020000#32, .word 4#32] = .command (.vibSetblock 4) [] ∧
    decode [.word 0x43000000#32] = .command .vibGetdelay [] ∧
    decode [.word 0x43010000#32] = .command .vibGetfreq [] ∧
    decode [.word 0x43020000#32] = .command .vibGetblock [] ∧
    decode [.word 0x44000000#32, .word 6#32] = .command (.vibProcess 6) [] := by decide +kernel

theorem test_decode_io :
    decode [.word 0x50010005#32, .num (7 / 3)] = .command (.ioWrin 1 5 (7 / 3)) [] ∧
    decode [.word 0x510103FF#32] = .command (.ioRdout 1 1023) [] := by decide +kernel

/-- V-DEC-1: reserved headers. -/
theorem test_decode_reserved : [0x00000001, 0x01000000, 0x60000000, 0xFFFFFFFF, 0x16000000, 0x10000001, 0x10010000,
    0x20030000, 0x21020000, 0x22020000, 0x23020000, 0x26000000, 0x30020000, 0x32020000, 0x33020000, 0x35000000,
    0x42030000, 0x43030000, 0x45000000, 0x52000000, 0x44000001].all (fun w => (decodeTableWord 32 w).isNone) = true := by
  decide +kernel

/-- R81: a packet cut short, and one with slots of the next packet after it. -/
theorem test_decode_packet_length :
    decode [.word 0x30000000#32, .num 1, .num 8] = .incomplete ∧
    decode [.word 0x12000000#32, .num 1, .word 0x13000000#32] = .command (.rbPut 1) [.word 0x13000000#32] := by
  decide +kernel

/-! ### Numbers: V-NUM-1 -/

theorem test_rounding : [1 / 2, 3 / 2, 15 / 2, 8 / 17, -1 / 2, -3 / 5, 0, -3 / 2].map (roundNum .exact) =
    [1, 2, 8, 0, 0, -1, 0, -1] ∧ [3 / 2, 2, -1 / 2, 9 / 4].map ceilNum = [2, 2, 0, 3] := by decide +kernel

theorem test_remainders : imod (-1) 4 = 3 ∧ imod (-7) 6 = 5 ∧ imod 8 4 = 0 ∧ fmod .exact (9 / 2) 4 = 1 / 2 ∧
    fmod .exact 4 4 = 0 ∧ fmod .exact (13 / 4) 4 = 13 / 4 := by decide +kernel

/-! ### One command at a time -/

/-- The state after a command; `s` itself if there is none. -/
def after (i : Instr) (s : State) : State :=
  match exec i s with
  | .next t => t
  | .fault _ => s
  | .refused _ => s

/-- The response to a command: its status and the number its value delivers. -/
def reply (i : Instr) (s : State) : Option (Status × NUM) :=
  ((after i s).rsp.getLast?).map fun q => (q.status, valueNum q.value)

/-- The first `n` elements of channel `c` of a memory. -/
def dense (m : Memory) (c n : Nat) : List NUM := (List.range n).map fun p => Memory.read m (c, p)

/-- The state with the core `c`. -/
def mk (c : CoreState) : State := { State.reset with core := c }

/-- RB0 as in V-RB-1: 10, 20, 30 put into a capacity of 4. -/
def rbThree : State := mk { CoreState.reset with rb0 := rbPut (rbPut (rbPut (rbCreate 4) 10) 20) 30 }

/-- LFO0 as in V-LFO-3: sawtooth, `L = 4`, amplitude 2, hop 3/2. -/
def lfoSaw : State := mk { CoreState.reset with lfo0 := lfoSetFreq .exact (lfoSetAmp .exact (lfoInit .exact .saw 1 4) 2) (3 / 2) }

/-- A comb filter of one-channel capacity 2 with the gain 1/2 (V-CF-1), and an impulse in `IN`. -/
def combOf (ft : FilterType) : State :=
  mk { CoreState.reset with cf := { cfCreate ft (1 / 2) 4 1 2 with gain := 1 / 2 }, inMem := [((0, 0), 1)] }

/-- VIB as in V-VIB-1: `M = 2`, `N = 6`, depth 1/2, hop 1, with 1 to 4 in `IN`. -/
def vibFull : State :=
  mk { CoreState.reset with
    vib := { vibCreate Params.reference (1 / 2) 4 1 2 with
      delaySec := 1 / 2, lfo := lfoSetFreq .exact (lfoSetAmp .exact (lfoInit .exact .sine 1 4) 2) 1 }
    inMem := [((0, 0), 1), ((0, 1), 2), ((0, 2), 3), ((0, 3), 4)] }

/-- The four units together. -/
def live : State :=
  mk { rb0 := rbThree.core.rb0, lfo0 := lfoSaw.core.lfo0, cf := (combOf .fir).core.cf, vib := vibFull.core.vib,
       inMem := [((0, 0), 1)], outMem := [((0, 0), 5)] }

/-- V-IO-1. -/
theorem test_nop : reply .sysNop live = some (.ok, 0) ∧ (after .sysNop live).core = live.core := by decide +kernel

/-- V-RB-4. -/
theorem test_rbInit : [0, -2, 4].map (fun n => reply (.rbInit n) State.reset) =
    [some (.invalidArguments, 0), some (.invalidArguments, 0), some (.ok, 0)] ∧
    reply (.rbInit 8) rbThree = some (.illegalCall, 0) := by decide +kernel

theorem test_rbInit_state : (after (.rbInit 2) State.reset).core.rb0 = ⟨true, 2, 0, 0, []⟩ := by decide +kernel

theorem test_rbReset : (after .rbReset rbThree).core = CoreState.reset ∧
    reply .rbReset State.reset = some (.notInitialized, 0) := by decide +kernel

/-- V-RB-2: the fourth and the fifth put, the second of them over the oldest sample. -/
theorem test_rbPut : dense (after (.rbPut 50) (after (.rbPut 40) rbThree)).core.rb0.buf 0 4 = [50, 20, 30, 40] ∧
    (after (.rbPut 50) (after (.rbPut 40) rbThree)).core.rb0.w = 1 := by decide +kernel

/-- V-RB-2. -/
theorem test_rbGetpi : reply .rbGetpi rbThree = some (.ok, 10) ∧ (after .rbGetpi rbThree).core.rb0.r = 1 := by
  decide +kernel

/-- V-RB-1. -/
theorem test_rbGet : [0, 1, 2, 1 / 2, 3 / 2, 9 / 4, 5 / 2, 3, 7 / 2, 4, -1, -1 / 2].map (fun o => reply (.rbGet o) rbThree) =
    [30, 20, 10, 25, 15, 15 / 2, 5, 0, 15, 30, 0, 15].map (fun v => some (.ok, v)) := by decide +kernel

theorem test_rbGetwidx : reply .rbGetwidx rbThree = some (.ok, 3) ∧
    reply .rbGetwidx State.reset = some (.notInitialized, 0) := by decide +kernel

/-- V-LFO-1, V-LFO-7. -/
theorem test_lfoInitSine : (after (.lfoInitSine 3 10) State.reset).core.lfo0.L = 4 ∧
    reply (.lfoInitSine 1 0) State.reset = some (.invalidArguments, 0) := by decide +kernel

theorem test_lfoInitSaw : (after (.lfoInitSaw 8 4) State.reset).core.lfo0.L = 1 ∧
    (after (.lfoInitSaw 8 4) State.reset).core.lfo0.wave = .saw := by decide +kernel

theorem test_lfoInitPulse : (after (.lfoInitPulse 2 12) State.reset).core.lfo0.L = 6 ∧
    (after (.lfoInitPulse 2 12) State.reset).core.lfo0.wave = .pulse := by decide +kernel

/-- V-LFO-7. -/
theorem test_lfoResetKeep : (after .lfoResetKeep lfoSaw).core.lfo0 = lfoInit .exact .saw 1 4 := by decide +kernel

theorem test_lfoResetFree : (after .lfoResetFree lfoSaw).core = CoreState.reset := by decide +kernel

/-- V-LFO-2. -/
theorem test_lfoSetamp : [lfoInit .exact .sine 1 4, lfoInit .exact .saw 2 12, lfoInit .exact .pulse 3 10, lfoInit .exact .saw 4 4].map
    (fun l => dense (after (.lfoSetamp 3) (mk { CoreState.reset with lfo0 := l })).core.lfo0.tab 0 l.L) =
    [[0, 3, 0, -3], [-3, -2, -1, 0, 1, 2], [-3, -3, 3, 3], [-3]] := by decide +kernel

theorem test_lfoSetamp_keeps_phase : (after (.lfoSetamp (-4)) (after .lfoGetvalue lfoSaw)).core.lfo0.phase = 3 / 2 ∧
    dense (after (.lfoSetamp (-4)) lfoSaw).core.lfo0.tab 0 4 = [4, 2, 0, -2] := by decide +kernel

/-- V-LFO-3, V-LFO-6 (floor edge). -/
theorem test_lfoSetfreq : reply (.lfoSetfreq (999 / 1000)) lfoSaw = some (.illegalCall, 0) ∧
    reply (.lfoSetfreq 1) lfoSaw = some (.ok, 0) ∧ (after (.lfoSetfreq (9 / 2)) lfoSaw).core.lfo0.hop = 9 / 2 := by
  decide +kernel

theorem test_lfoGetamp : reply .lfoGetamp lfoSaw = some (.ok, 2) ∧ reply .lfoGetamp State.reset = some (.ok, 0) := by
  decide +kernel

theorem test_lfoGetfreq : reply .lfoGetfreq lfoSaw = some (.ok, 3 / 2) ∧ reply .lfoGetfreq State.reset = some (.ok, 0) := by
  decide +kernel

/-- V-LFO-3: the value at phase 7/2 interpolates across the wrap; the phase before and after. -/
theorem test_lfoGetvalue : [0, 3 / 2, 3, 1 / 2, 2, 7 / 2, 1, 5 / 2].map
    (fun p => lfoValue .exact { lfoSaw.core.lfo0 with phase := p }) = [-2, -1 / 2, 1, -3 / 2, 0, -1 / 2, -1, 1 / 2] ∧
    reply .lfoGetvalue lfoSaw = some (.ok, -2) ∧ (after .lfoGetvalue lfoSaw).core.lfo0.phase = 3 / 2 := by decide +kernel

theorem test_lfoGetvalue_wraps :
    (after .lfoGetvalue (mk { CoreState.reset with lfo0 := { lfoSaw.core.lfo0 with phase := 3 } })).core.lfo0.phase = 1 / 2 := by
  decide +kernel

theorem test_lfoResetpos : (after .lfoResetpos (after .lfoGetvalue lfoSaw)).core = lfoSaw.core := by decide +kernel

/-- V-CF-7, V-CF-8. -/
theorem test_cfInitFir : [Instr.cfInitFir 1 8 0, .cfInitFir 1 8 3, .cfInitFir 1 0 1, .cfInitFir (-1) 8 1, .cfInitFir (1 / 32) 8 1,
    .cfInitFir 1 8 2].map (fun i => (reply i State.reset).map Prod.fst) =
    [some .invalidArguments, some .invalidArguments, some .invalidArguments, some .invalidArguments, some .invalidArguments,
     some .ok] := by decide +kernel

/-- V-CF-6: half a sample rounds up to a capacity of 1. -/
theorem test_cfInitIir : (after (.cfInitIir (1 / 16) 8 1) State.reset).core.cf =
    ⟨true, .iir, 8, 1 / 16, 1, 1, 1, 1 / 16, 0, 0, []⟩ := by decide +kernel

theorem test_cfReset : (after .cfReset (combOf .fir)).core.cf = CFState.reset ∧
    (after .cfReset (combOf .fir)).core.inMem = [((0, 0), 1)] := by decide +kernel

theorem test_cfSetgain : (after (.cfSetgain (-1)) (combOf .iir)).core.cf.gain = -1 ∧
    reply (.cfSetgain 1) State.reset = some (.notInitialized, 0) := by decide +kernel

/-- V-CF-7. -/
theorem test_cfSetdelay : [9 / 8, 1, 1 / 8, 1 / 16, 1 / 17, 0, -1].map
    (fun x => ((after (.cfSetdelay x) (after (.cfInitFir 1 8 1) State.reset)).core.cf.Ld,
      (reply (.cfSetdelay x) (after (.cfInitFir 1 8 1) State.reset)).map Prod.fst)) =
    [(8, some .invalidArguments), (8, some .ok), (1, some .ok), (1, some .ok), (8, some .invalidArguments),
     (8, some .invalidArguments), (8, some .invalidArguments)] := by decide +kernel

theorem test_cfGetgain : reply .cfGetgain (combOf .fir) = some (.ok, 1 / 2) ∧ reply .cfGetgain State.reset = some (.ok, 0) := by
  decide +kernel

theorem test_cfGetdelay : reply .cfGetdelay (combOf .fir) = some (.ok, 1 / 2) ∧
    reply .cfGetdelay State.reset = some (.ok, 0) := by decide +kernel

/-- V-CF-1. -/
theorem test_cfProcess : dense (after (.cfProcess 7) (combOf .iir)).core.outMem 0 7 = [1, 0, 1 / 2, 0, 1 / 4, 0, 1 / 8] ∧
    dense (after (.cfProcess 7) (combOf .iir)).core.cf.dly 0 2 = [1 / 8, 0] ∧
    (after (.cfProcess 7) (combOf .iir)).core.cf.head = 1 := by decide +kernel

/-- R159 for the FIR filter: the impulse and its one echo; V-CF-8: 1025 frames are too many. -/
theorem test_cfProcess_fir : dense (after (.cfProcess 4) (combOf .fir)).core.outMem 0 4 = [1, 0, 1 / 2, 0] ∧
    reply (.cfProcess 1025) (combOf .fir) = some (.invalidArguments, 0) := by decide +kernel

/-- V-VIB-10. -/
theorem test_vibInit : [Instr.vibInit (1 / 2) 4 0, .vibInit (1 / 2) 4 3, .vibInit (1 / 2) 0 1, .vibInit (-1 / 2) 4 1].map
    (fun i => reply i State.reset) = List.replicate 4 (some (.invalidArguments, 0)) ∧
    ((after (.vibInit (3 / 8) 4 2) State.reset).core.vib.M, (after (.vibInit (3 / 8) 4 2) State.reset).core.vib.N) = (2, 6) := by
  decide +kernel

theorem test_vibReset : (after .vibReset vibFull).core.vib = VIBState.reset ∧
    reply .vibReset State.reset = some (.notInitialized, 0) := by decide +kernel

/-- V-VIB-9. -/
theorem test_vibSetdelay : [1 / 2, 9 / 16, 501 / 1000, 3 / 8, -1, -10].map (fun x => (reply (.vibSetdelay x) vibFull).map Prod.fst) =
    [some .ok, some .invalidArguments, some .invalidArguments, some .ok, some .ok, some .ok] ∧
    dense (after (.vibSetdelay (-1 / 4)) vibFull).core.vib.lfo.tab 0 4 = [0, -1, 0, 1] := by decide +kernel

theorem test_vibSetfreq : [1, 999 / 1000, 0].map (fun x => (reply (.vibSetfreq x) vibFull).map Prod.fst) =
    [some .ok, some .illegalCall, some .illegalCall] ∧ (after (.vibSetfreq 3) vibFull).core.vib.lfo.hop = 3 := by
  decide +kernel

theorem test_vibSetblock : [0, -3, 4].map (fun n => (reply (.vibSetblock n) vibFull).map Prod.fst) =
    [some .invalidArguments, some .invalidArguments, some .ok] ∧ (after (.vibSetblock 4) vibFull).core.vib.blockSize = 4 := by
  decide +kernel

theorem test_vibGetdelay : reply .vibGetdelay vibFull = some (.ok, 1 / 2) ∧ reply .vibGetdelay State.reset = some (.ok, 0) := by
  decide +kernel

theorem test_vibGetfreq : reply .vibGetfreq vibFull = some (.ok, 1) ∧ reply .vibGetfreq State.reset = some (.ok, 0) := by
  decide +kernel

theorem test_vibGetblock : reply .vibGetblock vibFull = some (.ok, 2147483647) ∧
    reply .vibGetblock State.reset = some (.ok, 0) := by decide +kernel

/-- V-VIB-1, its first four frames. -/
theorem test_vibProcess : dense (after (.vibProcess 4) vibFull).core.outMem 0 4 = [0, 0, 1, 4] ∧
    (after (.vibProcess 4) vibFull).core.vib.warmedUp = true := by decide +kernel

/-- V-VIB-3: a call of no frames does the pre-roll alone; V-VIB-5: `blockSize` limits the frames handled. -/
theorem test_vibProcess_preroll : (after (.vibProcess 0) vibFull).core.vib.rb.map (fun b => (b.w, b.r)) = [(0, 4)] ∧
    (after (.vibProcess 4) (after (.vibSetblock 3) vibFull)).core.vib.rb.map (fun b => (b.w, b.r)) = [(3, 1)] := by
  decide +kernel

/-- V-IO-1. -/
theorem test_ioWrin : Memory.read (after (.ioWrin 1 5 (7 / 3)) State.reset).core.inMem (1, 5) = 7 / 3 ∧
    reply (.ioWrin 2 0 1) State.reset = some (.invalidArguments, 0) ∧
    reply (.ioWrin 0 1024 1) State.reset = some (.invalidArguments, 0) := by decide +kernel

theorem test_ioRdout : reply (.ioRdout 1 1023) State.reset = some (.ok, 0) ∧ reply (.ioRdout 0 0) live = some (.ok, 5) ∧
    reply (.ioRdout 0 1024) State.reset = some (.invalidArguments, 0) := by decide +kernel

/-- A result is a next state. -/
def isNext (r : Result) : Bool :=
  match r with
  | .next _ => true
  | .fault _ => false
  | .refused _ => false

/-- The reference parameters, with the numeric domain of an implementation. -/
def implementationParams : Params := { Params.reference with num := .implementation 0 }

/-- R4: in the numeric domain of an implementation every command completes as well; what it computes there is free. -/
theorem test_implementation_domain : (isNext (exec (.rbGet (1 / 2)) { rbThree with params := implementationParams }) &&
    isNext (exec .lfoGetvalue { lfoSaw with params := implementationParams })) = true := by decide +kernel

/-- `30_encoding.md` R92, R93. -/
theorem test_assembler : asm (.ioWrin 0 3 (5 / 2)) = "IO.WRIN 0, 3, 5/2" ∧
    expand (.wrblk 1 [7, 8]) = [.ioWrin 1 0 7, .ioWrin 1 1 8] ∧ expand (.lfoReset true) = [.lfoResetFree] := by decide +kernel

/-! ### The step -/

/-- The state after a step; `s` itself if there is none. -/
def stepped (s : State) : State :=
  match step s with
  | .next t => t
  | .fault _ => s
  | .refused _ => s

/-- R88: the slot after a reserved header is not consumed. -/
theorem test_step_reserved : (stepped { live with cmd := [.word 0x10000001#32, .num 4] }).cmd = [.num 4] ∧
    (stepped { live with cmd := [.word 0x10000001#32, .num 4] }).rsp = [⟨.illegalCall, .absent⟩] := by decide +kernel

/-- R81, R240: half a packet is kept, and dropped by reset. -/
theorem test_step_half_packet : (stepped { live with cmd := [.word 0x12000000#32] }).rx = [.word 0x12000000#32] ∧
    (stepped { live with rst := true, rx := [.word 0x12000000#32] }).rx = [] := by decide +kernel

theorem test_step_withFetchWord : (stepped (State.reset.withFetchWord 32 0x510103FF)).rsp = [⟨.ok, .num 0⟩] := by
  decide +kernel

theorem next_of {r : Result} (h : isNext r = true) : ∃ t, r = .next t := by
  cases r with
  | next t => exact ⟨t, rfl⟩
  | fault _ => cases h
  | refused _ => cases h

/-! ### Witnesses: the hypotheses of the statements can be met, each clause of them -/

/-- `live` with slots on the channel. -/
def liveWith (slots : List Slot) : State := { live with cmd := slots }

theorem witness_DecodeEncodeAgree : WellFormed (.vibInit (1 / 2) 4 (-2147483648)) ∧ WellFormed (.ioWrin 255 65535 0) := by
  decide +kernel

theorem witness_EncodeDecodeAgree :
    (∃ f, decodeHeader 0x42020000#32 = some f ∧ [Slot.word 5].map slotKind = f.kinds) ∧
    (∃ f, decodeHeader 0x40000000#32 = some f ∧ [Slot.num 1, .num 4, .word 2].map slotKind = f.kinds) ∧
    ∃ f, decodeHeader 0x51FFFFFF#32 = some f ∧ ([] : List Slot).map slotKind = f.kinds :=
  ⟨⟨_, rfl, rfl⟩, ⟨_, rfl, rfl⟩, ⟨_, rfl, rfl⟩⟩

theorem witness_DecodedCommandsAreWellFormed :
    decode [.word 0x10000000#32, .word 0x80000000#32, .num 1] = .command (.rbInit (-2147483648)) [.num 1] := by decide +kernel

theorem witness_ReservedHeaders : (liveWith [.word 0x10000001#32, .num 4]).rst = false ∧
    (liveWith [.word 0x10000001#32, .num 4]).pending = [.word 0x10000001#32, .num 4] ∧
    (decodeHeader 0x10000001#32).isNone = true := by decide +kernel

theorem witness_StepRunsDecodedCommand : (liveWith [.word 0x12000000#32, .num 4]).rst = false ∧
    decode (liveWith [.word 0x12000000#32, .num 4]).pending = .command (.rbPut 4) [] := by decide +kernel

theorem witness_CutPacketWaits : (live.rst = false ∧ live.rx = [] ∧ live.cmd = []) ∧
    decode (liveWith [.word 0x30000000#32, .num 1, .num 8]).pending = .incomplete := by decide +kernel

theorem witness_PowerOnReset : ({ live with rst := true } : State).rst = true := rfl

theorem witness_ResetIsObservable : (mk CoreState.reset).core = State.reset.core ∧ isGet .cfGetgain = true ∧
    (1 < State.reset.params.maxCh ∧ 1023 < State.reset.params.blkMax) ∧
    ((unitOf .rbGetpi).isSome = true ∧ isInit .rbGetpi = false ∧ isGet .rbGetpi = false) ∧
    ([Instr.rbInit 1, .rbInit 65536, .lfoInitSine 1 1, .lfoInitSaw 1 4, .lfoInitPulse 2 8, .cfInitFir 1 1 1, .cfInitIir (1 / 16) 8 2,
      .vibInit 0 4 1].all fun i => isInit i && !invalidCause i State.reset) = true := by decide +kernel

theorem witness_ProgramRunIsLeftFold : (∀ i ∈ [Instr.rbPut 1, .rbGetpi], WellFormed i) ∧
    (live.rst = false ∧ live.rx = [] ∧ live.cmd = []) := by decide +kernel

theorem witness_EveryCommandAnswered : ∃ c q, exec (.rbPut 1) State.reset =
    .next { State.reset with core := c, rsp := State.reset.rsp ++ [q] } ∧ q.status ≠ .ok :=
  ⟨_, ⟨.notInitialized, .absent⟩, rfl, by decide⟩

theorem witness_FrontEndCheck : (unitOf .sysNop = none ∧ unitOf (.ioRdout 0 0) = none) ∧
    (unitOf (.rbInit 4) = some .rb0 ∧ isInit (.rbInit 4) = true ∧ initFlag .rb0 live.core = true) ∧
    (unitOf .vibGetblock = some .vib ∧ isGet .vibGetblock = true ∧ initFlag .vib State.reset.core = false) ∧
    (unitOf .cfReset = some .cf ∧ isInit .cfReset = false ∧ isGet .cfReset = false ∧
      initFlag .cf State.reset.core = false) := by decide +kernel

theorem witness_StatusesAreExact : (liveWith [.word 0xFFFFFFFF#32]).rst = false ∧
    (liveWith [.word 0xFFFFFFFF#32]).pending = [.word 0xFFFFFFFF#32] ∧ (decodeHeader 0xFFFFFFFF#32).isNone = true := by
  decide +kernel

theorem witness_OnlyItsOwnUnit : (∃ t, exec .sysNop live = .next t) ∧ unitOf .sysNop ≠ some .rb0 ∧
    unitOf .sysNop ≠ some .lfo0 ∧ unitOf .sysNop ≠ some .cf ∧ unitOf .sysNop ≠ some .vib ∧ isWrin .sysNop = false ∧
    isProcess .sysNop = false := ⟨⟨_, rfl⟩, by decide⟩

/-- A state that shares the comb filter of `live` and one element of its `OUT`, and nothing else. -/
def other : State :=
  mk { CoreState.reset with cf := live.core.cf, inMem := [((0, 1), 8)], outMem := [((0, 0), 5), ((1, 0), 6)] }

/-- `CF.SETGAIN` with different `IN`, `CF.PROCESS` with the same, `IO.RDOUT` with one element of `OUT` in common. -/
theorem witness_UnitsDoNotInterfere : live.params = other.params ∧
    (sameView (.cfSetgain 2) live.core other.core ∧ live.core.inMem ≠ other.core.inMem ∧
      (∃ t, exec (.cfSetgain 2) live = .next t) ∧ ∃ t, exec (.cfSetgain 2) other = .next t) ∧
    (sameView (.cfProcess 1) live.core (combOf .fir).core ∧ live.core.outMem ≠ (combOf .fir).core.outMem ∧
      (∃ t, exec (.cfProcess 1) live = .next t) ∧ ∃ t, exec (.cfProcess 1) (combOf .fir) = .next t) ∧
    sameView (.ioRdout 0 0) live.core other.core ∧ live.core.outMem ≠ other.core.outMem ∧
      (∃ t, exec (.ioRdout 0 0) live = .next t) ∧ ∃ t, exec (.ioRdout 0 0) other = .next t :=
  ⟨rfl,
    ⟨⟨rfl, fun h => (by cases h), fun _ _ h => (by cases h)⟩, by decide +kernel, ⟨_, rfl⟩, ⟨_, rfl⟩⟩,
    ⟨⟨rfl, fun _ => rfl, fun _ _ h => (by cases h)⟩, by decide +kernel, ⟨_, rfl⟩, ⟨_, rfl⟩⟩,
    ⟨trivial, fun h => (by cases h), fun _ _ h => (by cases h; rfl)⟩, by decide +kernel, ⟨_, rfl⟩, ⟨_, rfl⟩⟩

theorem witness_MemoryFormIsCanonical : Memory.wf [((0, 0), 1), ((1, 0), 2)] = true ∧
    ∀ a, Memory.read [((0, 0), 1), ((1, 0), 2)] a = Memory.read [((0, 0), 1), ((1, 0), 2)] a :=
  ⟨by decide +kernel, fun _ => rfl⟩

/-- The core with two-channel filters, fresh from `INIT`. -/
def twoChannels : CoreState := { CoreState.reset with
  cf := cfCreate .iir 1 4 2 4, vib := vibCreate Params.reference (1 / 2) 4 2 2, inMem := [((0, 0), 1), ((1, 0), 2)] }

theorem witness_ChannelOrderDoesNotMatter : Memory.wf twoChannels.outMem = true ∧ Memory.wf twoChannels.cf.dly = true ∧
    [1, 0].Perm (List.range twoChannels.cf.C) ∧ [1, 0].Perm (List.range twoChannels.vib.C) := by decide +kernel

theorem witness_ReferenceArithmeticIsExact : ∃ p : Params, p.num = .exact ∧ p ≠ Params.reference :=
  ⟨{ Params.reference with maxCh := 1 }, rfl, by decide⟩

theorem witness_RemaindersAndRounding : 1 ≤ 6 ∧ 5 < 6 ∧ ((6 : Nat) : Int) ∣ (-7) - ((5 : Nat) : Int) := by decide

theorem witness_WaveformShapes : (0 < 1 ∧ 2 * 0 = 0) ∧ (6 < 12 ∧ 2 * 6 = 12) ∧ (3 < 12 ∧ 4 * 3 = 12) ∧
    (9 < 12 ∧ 4 * 9 = 3 * 12) ∧ (1 < 12 ∧ 12 * 1 = 12) ∧ (5 < 12 ∧ 12 * 5 = 5 * 12) ∧ (7 < 12 ∧ 12 * 7 = 7 * 12) ∧
    (11 < 12 ∧ 12 * 11 = 11 * 12) ∧ (5 < 11 ∧ 2 * 5 < 11) ∧ 11 ≤ 2 * 6 := by decide

theorem witness_WrinWritesOneSample : (live.params.maxCh ≤ 2 ∧ live.params.blkMax ≤ 1024) ∧
    1 < live.params.maxCh ∧ 1023 < live.params.blkMax := by decide

theorem witness_RdoutReadsOneSample : (live.params.maxCh ≤ 2 ∧ live.params.blkMax ≤ 1024) ∧
    1 < live.params.maxCh ∧ 1023 < live.params.blkMax := by decide

theorem witness_UnitResets : (live.core.rb0.init = true ∧ live.core.lfo0.init = true ∧ live.core.cf.init = true ∧
    live.core.vib.init = true) ∧ State.reset.core.rb0.init = false ∧ State.reset.core.lfo0.init = false ∧
    State.reset.core.cf.init = false ∧ State.reset.core.vib.init = false := by decide

theorem witness_OneRegisterWrites : (live.core.lfo0.init = true ∧ live.core.cf.init = true ∧ live.core.vib.init = true) ∧
    (State.reset.core.lfo0.init = false ∧ State.reset.core.cf.init = false ∧ State.reset.core.vib.init = false) ∧
    (0 : Int) ≤ 0 ∧ (1 : Int) ≤ 1 := by decide

theorem witness_RbInitCreates : live.core.rb0.init = true ∧ State.reset.core.rb0.init = false ∧ (0 : Int) < 1 ∧
    Exceeds State.reset.params.rbMaxN 65537 = true ∧ Exceeds State.reset.params.rbMaxN 65536 = false ∧
    Exceeds none 65537 = false ∧ Exceeds State.reset.params.rbMaxN 1 = false := by decide

theorem witness_RbPutWritesAtW : live.core.rb0.init = true ∧ State.reset.core.rb0.init = false := by decide

theorem witness_RbCursorReads : live.core.rb0.init = true ∧ State.reset.core.rb0.init = false := by decide

theorem witness_RbGetInterpolates : live.core.rb0.init = true ∧ State.reset.core.rb0.init = false := by decide

theorem witness_RbGetProperties : 1 ≤ live.core.rb0.N ∧ live.core.rb0.w < live.core.rb0.N ∧
    (∃ (d : RBState) (o : NUM), d ≠ live.core.rb0 ∧ d.w = live.core.rb0.w ∧ d.N = live.core.rb0.N ∧
      rbLookback d ⌊o⌋ = rbLookback live.core.rb0 ⌊o⌋ ∧ rbLookback d (⌊o⌋ + 1) = rbLookback live.core.rb0 (⌊o⌋ + 1)) ∧
    (((0 : Int) : NUM) ≤ 0 ∧ (0 : NUM) ≤ ((0 : Int) : NUM) + 1) ∧
    ((0 : Int) : NUM) ≤ 1 ∧ (1 : NUM) ≤ ((0 : Int) : NUM) + 1 :=
  ⟨by decide +kernel, by decide +kernel, ⟨{ live.core.rb0 with r := 2 }, 1 / 2, by decide +kernel⟩, by decide +kernel⟩

theorem witness_LookbacksAreThePuts : State.reset.core.rb0.init = false ∧ (1 : Int) ≤ 1 ∧
    Exceeds State.reset.params.rbMaxN 1 = false ∧ ((0 : Nat) : Int) < 1 := by decide

theorem witness_StepKeepsRingBuffer : RbInv (liveWith (encode (.rbPut 5))).params (liveWith (encode (.rbPut 5))).core.rb0 ∧
    ∃ t, step (liveWith (encode (.rbPut 5))) = .next t := ⟨by decide +kernel, ⟨_, rfl⟩⟩

/-- The operations of the reset state. -/
def resetNum : Numerics := State.reset.params.numerics

theorem witness_LfoInitCreates : live.core.lfo0.init = true ∧ State.reset.core.lfo0.init = false ∧ resetNum.le 0 0 = true ∧
    resetNum.le 1 0 = false ∧ Exceeds State.reset.params.lfoMaxL (resetNum.ceil (resetNum.div 65537 1)) = true ∧
    Exceeds State.reset.params.lfoMaxL (resetNum.ceil (resetNum.div 65536 1)) = false ∧
    Exceeds State.reset.params.lfoMaxL (resetNum.ceil (resetNum.div 1 8)) = false ∧ State.reset.params.num = .exact := by
  decide +kernel

theorem witness_LfoSetampRebuildsTable : live.core.lfo0.init = true ∧ State.reset.core.lfo0.init = false ∧
    3 < live.core.lfo0.L ∧ ¬ (0 = 0 ∧ 4 < live.core.lfo0.L) := by decide +kernel

theorem witness_LfoSetfreqSetsHop : live.core.lfo0.init = true ∧ State.reset.core.lfo0.init = false ∧
    live.params.numerics.lt (999 / 1000) live.core.lfo0.fref = true ∧ live.params.numerics.lt 1 live.core.lfo0.fref = false := by
  decide +kernel

theorem witness_LfoGetvalueInterpolates : State.reset.core.lfo0.init = false ∧ live.core.lfo0.init = true ∧
    0 < live.core.lfo0.L ∧ ((0 : Nat) : Int) = live.params.numerics.floor live.core.lfo0.phase := by decide +kernel

theorem witness_LfoValueSequence : live.params.num = .exact ∧ live.core.lfo0.init = true ∧ live.core.lfo0.phase = 0 ∧ 1 ≤ live.core.lfo0.L ∧
    3 < live.core.lfo0.L ∧ (after (.lfoSetamp 1) (after .lfoResetKeep live)).core.lfo0.hop = 0 := by decide +kernel

theorem witness_LfoValueIsBounded : LfoLive (some 4) { live.core.lfo0 with phase := 7 / 2 } ∧
    (7 / 2 : NUM) = (live.core.lfo0.L : NUM) - 1 / 2 := by decide +kernel

theorem witness_StepKeepsLfo : (liveWith (encode .lfoGetvalue)).params.num = .exact ∧
    LfoInv (liveWith (encode .lfoGetvalue)).params (liveWith (encode .lfoGetvalue)).core.lfo0 ∧
    ∃ t, step (liveWith (encode .lfoGetvalue)) = .next t := ⟨rfl, by decide +kernel, ⟨_, rfl⟩⟩

theorem witness_CfInitCreates : live.core.cf.init = true ∧ State.reset.core.cf.init = false ∧
    ((0 : Int) < 1 ∧ (State.reset.params.maxCh : Int) < 3 ∧ resetNum.le 0 0 = true ∧
      roundNum resetNum (resetNum.mul 8 (1 / 17)) < 1 ∧
      Exceeds State.reset.params.cfMaxCap (roundNum resetNum (resetNum.mul 65537 1)) = true) ∧
    (2 : Int) ≤ State.reset.params.maxCh ∧ resetNum.le 8 0 = false ∧ 1 ≤ roundNum resetNum (resetNum.mul 8 (1 / 16)) ∧
    Exceeds State.reset.params.cfMaxCap (roundNum resetNum (resetNum.mul 8 (1 / 16))) = false := by decide +kernel

theorem witness_CfSetdelaySetsLength : State.reset.core.cf.init = false ∧ live.core.cf.init = true ∧
    live.params.num = .exact ∧ CfLive live.params live.core.cf ∧ resetNum.lt live.core.cf.maxDelaySec (9 / 16) = true ∧
    roundNum resetNum (resetNum.mul (1 / 9) live.core.cf.fs) < 1 ∧ resetNum.lt live.core.cf.maxDelaySec (1 / 2) = false ∧
    1 ≤ roundNum resetNum (resetNum.mul (1 / 2) live.core.cf.fs) ∧
    1 ≤ roundNum resetNum (resetNum.mul (1 / 8) live.core.cf.fs) := by decide +kernel

theorem witness_CfProcessHandlesFrames : State.reset.core.cf.init = false ∧ live.core.cf.init = true ∧ (-1 : Int) < 0 ∧
    (live.params.blkMax : Int) < 1025 ∧ (0 : Int) ≤ 0 ∧ (1024 : Int) ≤ live.params.blkMax ∧ 1 ≤ live.core.cf.Ld ∧
    ¬ (1 < live.core.cf.C) ∧ live.core.cf.C ≤ 1 := by decide +kernel

theorem witness_CfFrameStep : 0 < live.core.cf.C ∧ live.core.cf.ftype = .fir ∧ (combOf .iir).core.cf.ftype ≠ .fir := by
  decide +kernel

/-- The streams of V-CF-1 with the IIR filter: the impulse, and its answer over seven frames. -/
def impulse (c j : Nat) : NUM := if c = 0 ∧ j = 0 then 1 else 0
/-- `y[t]` of V-CF-1. -/
def answerIir (c j : Nat) : NUM := if c = 0 then [1, 0, 1 / 2, 0, 1 / 4, 0, 1 / 8].getD j 0 else 0

theorem witness_CfDifferenceEquation :
    (State.reset.core.cf.init = false ∧ (∃ t, exec (cfInitOf .iir (1 / 2) 4 1) State.reset = .next t) ∧
      (after (cfInitOf .iir (1 / 2) 4 1) State.reset).core.cf.init = true) ∧
    (combOf .iir).core.cf.init = true ∧ (0 : Int) ≤ 7 ∧ (7 : Int) ≤ (combOf .iir).params.blkMax ∧
    CfHolds (if (combOf .iir).core.cf.ftype = .fir then impulse else answerIir) 0 (combOf .iir).core.cf ∧
    ∀ c < (combOf .iir).core.cf.C, ∀ i < (7 : Int).toNat, Memory.read (combOf .iir).core.inMem (c, i) = impulse c (0 + i) ∧
      answerIir c (0 + i) = (combOf .iir).params.numerics.add (impulse c (0 + i))
        ((combOf .iir).params.numerics.mul (combOf .iir).core.cf.gain
          (past (if (combOf .iir).core.cf.ftype = .fir then impulse else answerIir) c (0 + i) (combOf .iir).core.cf.Ld)) := by
  refine ⟨⟨rfl, next_of (by decide +kernel), by decide +kernel⟩, rfl, by decide, by decide, ⟨by decide, by decide, ?_⟩, by decide +kernel⟩
  intro c _ j hj _
  have h0 : ¬ j ≤ 0 := by omega
  simp [past, h0, combOf, mk, cfCreate]

theorem witness_CfPassesThroughAndStaysSilent : (after (.cfSetgain 0) (combOf .iir)).params.num = .exact ∧
    (after (.cfSetgain 0) (combOf .iir)).core.cf.init = true ∧
    (after (.cfSetgain 0) (combOf .iir)).core.cf.gain = 0 ∧ (0 : Int) ≤ 1024 ∧
    (1024 : Int) ≤ (after (.cfSetgain 0) (combOf .iir)).params.blkMax ∧
    (∀ a, Memory.read (combOf .iir).core.cf.dly a = 0) ∧
    ∀ c < twoChannels.cf.C, ∀ i < (4 : Int).toNat, Memory.read CoreState.reset.inMem (c, i) = 0 :=
  ⟨by decide +kernel, by decide +kernel, by decide +kernel, by decide, by decide +kernel, fun _ => rfl, by decide +kernel⟩

theorem witness_StepKeepsCombFilter : (liveWith (encode (.cfProcess 1))).params.num = .exact ∧
    CfInv (liveWith (encode (.cfProcess 1))).params (liveWith (encode (.cfProcess 1))).core.cf ∧
    ∃ t, step (liveWith (encode (.cfProcess 1))) = .next t := ⟨rfl, by decide +kernel, ⟨_, rfl⟩⟩

theorem witness_VibInitCreates : live.core.vib.init = true ∧ State.reset.core.vib.init = false ∧
    ((0 : Int) < 1 ∧ (State.reset.params.maxCh : Int) < 3 ∧ resetNum.le 0 0 = true ∧ resetNum.lt (-1) 0 = true ∧
      Exceeds State.reset.params.vibMaxN (2 * resetNum.ceil (resetNum.mul 32768 1) + 2) = true ∧
      Exceeds State.reset.params.lfoMaxL (resetNum.ceil (resetNum.div 65537 State.reset.params.vibLfoFref)) = true) ∧
    (2 : Int) ≤ State.reset.params.maxCh ∧ resetNum.le 4 0 = false ∧ resetNum.lt 0 0 = false ∧
    Exceeds State.reset.params.vibMaxN (2 * resetNum.ceil (resetNum.mul 0 4) + 2) = false ∧
    Exceeds State.reset.params.lfoMaxL (resetNum.ceil (resetNum.div 4 State.reset.params.vibLfoFref)) = false := by
  decide +kernel

theorem witness_VibSetdelaySetsAmplitude : State.reset.core.vib.init = false ∧ live.core.vib.init = true ∧
    (live.core.vib.M : Int) < resetNum.ceil (resetNum.mul (501 / 1000) live.core.vib.fs) ∧
    resetNum.ceil (resetNum.mul (1 / 2) live.core.vib.fs) ≤ live.core.vib.M ∧
    3 < live.core.vib.lfo.L ∧ ¬ (0 = 0 ∧ 4 < live.core.vib.lfo.L) := by decide +kernel

theorem witness_VibSetfreqSetsHop : State.reset.core.vib.init = false ∧ live.core.vib.init = true ∧
    resetNum.lt (999 / 1000) live.core.vib.lfo.fref = true ∧ resetNum.lt 1 live.core.vib.lfo.fref = false := by
  decide +kernel

theorem witness_VibProcessHandlesFrames : State.reset.core.vib.init = false ∧ live.core.vib.init = true ∧ (-1 : Int) < 0 ∧
    (live.params.blkMax : Int) < 1025 ∧ (0 : Int) ≤ 0 ∧ (1024 : Int) ≤ live.params.blkMax ∧
    ¬ (1 < live.core.vib.C) := by decide +kernel

theorem witness_VibPrerollMovesReadCursors : twoChannels.vib.rb.length = twoChannels.vib.C ∧
    (∀ b ∈ twoChannels.vib.rb, b.N = twoChannels.vib.N ∧ b.r < twoChannels.vib.N) ∧
    twoChannels.vib.N = 2 * twoChannels.vib.M + 2 ∧ 1 < twoChannels.vib.C ∧
    (vibRingOf twoChannels.vib 1).w = 0 ∧ (vibRingOf twoChannels.vib 1).r = 0 := by decide +kernel

theorem witness_VibFrameStep : twoChannels.vib.rb.length = twoChannels.vib.C ∧ 1 < twoChannels.vib.C ∧
    ¬ (2 < twoChannels.vib.C ∧ 0 = 0) := by decide +kernel

/-- The stream of V-VIB-1, its first four samples. -/
def ramp (c j : Nat) : NUM := if c = 0 ∧ j < 4 then (j : NUM) + 1 else 0

theorem vibHolds_fresh (x : Nat → Nat → NUM) : VibHolds x 0 vibFull.core.vib := by
  refine ⟨rfl, fun c hc => ?_⟩
  obtain rfl : c = 0 := Nat.lt_one_iff.mp hc
  exact ⟨rfl, by decide, fun j _ => by simp [past]; rfl⟩

theorem witness_VibIsAModulatedDelay :
    (State.reset.core.vib.init = false ∧ (∃ t, exec (.vibInit (1 / 2) 4 1) State.reset = .next t) ∧
      (after (.vibInit (1 / 2) 4 1) State.reset).core.vib.init = true) ∧
    vibFull.core.vib.init = true ∧ (0 : Int) ≤ 4 ∧ (4 : Int) ≤ vibFull.params.blkMax ∧ VibHolds ramp 0 vibFull.core.vib ∧
    (∀ c < vibFull.core.vib.C, ∀ i : Nat, (i : Int) < min vibFull.core.vib.blockSize 4 →
      Memory.read vibFull.core.inMem (c, i) = ramp c (0 + i)) ∧
    (((0 : Nat) : Int) = resetNum.floor (resetNum.add (resetNum.ofInt vibFull.core.vib.M)
        (lfoValue resetNum ((lfoAdvance resetNum)^[3] vibFull.core.vib.lfo))) ∧
      ((4 : Nat) : Int) = resetNum.floor (resetNum.add (resetNum.ofInt vibFull.core.vib.M)
        (lfoValue resetNum ((lfoAdvance resetNum)^[1] vibFull.core.vib.lfo))) ∧ 4 + 1 < vibFull.core.vib.N) := by
  refine ⟨⟨rfl, next_of (by decide +kernel), by decide +kernel⟩, rfl, by decide, by decide, vibHolds_fresh ramp, ?_, by decide +kernel⟩
  intro c hc i hi
  obtain rfl : c = 0 := Nat.lt_one_iff.mp hc
  have h4 : i < 4 := by simp at hi; omega
  revert i
  intro i _ h4
  interval_cases i <;> decide +kernel

theorem witness_VibPureDelayAndSilence : vibFull.params.num = .exact ∧ vibFull.core.vib.init = true ∧ (0 : Int) ≤ 0 ∧
    (0 : Int) ≤ vibFull.params.blkMax ∧ VibInv vibFull.params vibFull.core.vib ∧
    VibHolds (fun _ _ => 0) 0 vibFull.core.vib ∧ (after (.vibInit (1 / 2) 4 1) State.reset).core.vib.lfo.tab = [] :=
  ⟨rfl, rfl, by decide, by decide, by decide +kernel, vibHolds_fresh _, by decide +kernel⟩

theorem witness_VibOffsetsStayInRange : VibLive vibFull.params vibFull.core.vib ∧
    -(vibFull.core.vib.M : NUM) ≤ vibFull.core.vib.lfo.amp ∧ vibFull.core.vib.lfo.amp = (vibFull.core.vib.M : NUM) := by
  decide +kernel

theorem witness_StepKeepsVibrato : (liveWith (encode (.vibProcess 1))).params.num = .exact ∧
    ValidParams (liveWith (encode (.vibProcess 1))).params ∧
    VibInv (liveWith (encode (.vibProcess 1))).params (liveWith (encode (.vibProcess 1))).core.vib ∧
    ∃ t, step (liveWith (encode (.vibProcess 1))) = .next t := ⟨rfl, by decide +kernel, by decide +kernel, ⟨_, rfl⟩⟩

theorem witness_StepKeepsBlockMemories :
    BlocksInv (liveWith (encode (.ioWrin 1 1023 3))).params (liveWith (encode (.ioWrin 1 1023 3))).core ∧
    (live.core.cf.init = true ∧ live.core.vib.init = true) ∧ ∃ t, step (liveWith (encode (.ioWrin 1 1023 3))) = .next t :=
  ⟨by decide +kernel, by decide, ⟨_, rfl⟩⟩

theorem witness_ResetIsLegal : ValidParams
    { Params.reference with rbMaxN := none, maxCh := 256, blkMax := 65536, vibMaxN := some 2 } := by decide +kernel

end Sys2Proof.Tests
end

/-!
PROOFS. The statements of `00_scope.md`: the reference arithmetic (R5, R6), the remainders and rounding (R7, R8), the
shape functions (R9), and what a command can touch and depend on (R12, R13).
-/

namespace Sys2Proof.Machine

/-! ### The numeric domain (R5 to R9) -/

/-- Settles O19: a machine with the reference domain computes with `Numerics.exact`, whose operations are those of ℚ. -/
theorem referenceArithmeticIsExact : Obligations.ReferenceArithmeticIsExact := by
  unfold Obligations.ReferenceArithmeticIsExact
  refine ⟨rfl, ?_⟩
  rintro p ν hp rfl
  rw [numerics_exact hp]
  exact ⟨fun x y => ⟨rfl, rfl, rfl, rfl, decide_eq_true_iff, decide_eq_true_iff⟩, fun n => rfl,
    fun x n => ⟨Int.le_floor, ceilNum_le_iff x n⟩⟩

theorem imod_dvd_sub (a : Int) {n : Nat} (hn : 1 ≤ n) : (n : Int) ∣ a - imod a n := by
  rw [imod_eq_emod a hn]
  exact Int.dvd_self_sub_emod

/-- A number below `n` that differs from `a` by a multiple of `n` is the remainder (R8). -/
theorem eq_imod_of_dvd {a : Int} {n m : Nat} (hm : m < n) (hdvd : (n : Int) ∣ a - m) : m = imod a n := by
  have hmod : a % (n : Int) = (m : Int) % n := Int.emod_eq_emod_iff_emod_sub_eq_zero.mpr (Int.emod_eq_zero_of_dvd hdvd)
  rw [imod_congr hmod, imod_natCast, Nat.mod_eq_of_lt hm]

/-- Settles O20, from the laws of `imod`, of `fmod` and of the floor that `round` takes. -/
theorem remaindersAndRounding : Obligations.RemaindersAndRounding := by
  unfold Obligations.RemaindersAndRounding
  refine ⟨fun a n hn => ⟨imod_lt a hn, imod_dvd_sub a hn, fun m => eq_imod_of_dvd⟩,
    fun x l hl => ⟨fmod_exact x l, fmod_nonneg x hl, fmod_lt x hl⟩, fun x => ?_⟩
  rw [roundNum_exact]
  exact ⟨floorNum_le _, lt_floorNum_add_one _⟩

/-- The first test of `sinTurn`: in one turn the sine is 0 at the start and half way round only. -/
theorem two_mul_mod_eq_zero_iff {i L : Nat} (h : i < L) : 2 * i % L = 0 ↔ 2 * i = 0 ∨ 2 * i = L := by
  by_cases hlt : 2 * i < L
  · rw [Nat.mod_eq_of_lt hlt]; omega
  · rw [Nat.mod_eq_sub_mod (by omega), Nat.mod_eq_of_lt (by omega)]; omega

/-- The tests of `sinTurn` within one turn, as R9 lists its rational points. -/
theorem sinTurn_of_lt {i L : Nat} (h : i < L) : sinTurn i L =
    if 2 * i = 0 ∨ 2 * i = L then 0
    else if 4 * i = L then 1
    else if 4 * i = 3 * L then -1
    else if 12 * i = L ∨ 12 * i = 5 * L then 1 / 2
    else if 12 * i = 7 * L ∨ 12 * i = 11 * L then -1 / 2
    else clampUnit (Config.sinFree i L) := by
  simp only [sinTurn, two_mul_mod_eq_zero_iff h]

theorem shape_sine_exact (i L : Nat) : shape .exact .sine i L = sinTurn i L := rfl

theorem shape_pulse_exact (i L : Nat) : shape .exact .pulse i L = if 2 * i < L then -1 else 1 := by simp [shape]

/-- Settles O21: the points of R9 exclude each other within one turn. -/
theorem waveformShapes : Obligations.WaveformShapes := by
  unfold Obligations.WaveformShapes
  intro i L h
  rw [shape_sine_exact, sinTurn_of_lt h, shape_pulse_exact]
  refine ⟨fun hz => ?_, fun hq => ?_, fun hq => ?_, fun ht => ?_, fun ht => ?_, shape_saw_exact i L, fun hp => ?_,
    fun hp => ?_, fun w => abs_shape_le w h⟩
  · rw [if_pos hz]
  · rw [if_neg (by omega), if_pos hq]
  · rw [if_neg (by omega), if_neg (by omega), if_pos hq]
  · rw [if_neg (by omega), if_neg (by omega), if_neg (by omega), if_pos ht]
  · rw [if_neg (by omega), if_neg (by omega), if_neg (by omega), if_neg (by omega), if_pos ht]
  · rw [if_pos hp]
  · rw [if_neg (by omega)]

/-! ### What a command may touch (R13) -/

/-- From the core `k` the command `i` leaves the core `c`, which differs from `k` only where `i` may write. -/
structure WritesOwnUnit (i : Instr) (k c : CoreState) : Prop where
  rb0 : unitOf i ≠ some .rb0 → c.rb0 = k.rb0
  lfo0 : unitOf i ≠ some .lfo0 → c.lfo0 = k.lfo0
  cf : unitOf i ≠ some .cf → c.cf = k.cf
  vib : unitOf i ≠ some .vib → c.vib = k.vib
  inMem : isWrin i = false → c.inMem = k.inMem
  outMem : isProcess i = false → c.outMem = k.outMem

theorem writesOwnUnit_refl (i : Instr) (k : CoreState) : WritesOwnUnit i k k :=
  ⟨fun _ => rfl, fun _ => rfl, fun _ => rfl, fun _ => rfl, fun _ => rfl, fun _ => rfl⟩

/-! ### Two memories written alike -/

/-- `m` has become `n` and `m'` has become `n'`, and each element was written with the same value in both or kept in
both. -/
def WrittenAlike (m m' n n' : Memory) : Prop :=
  ∀ a, Memory.read n a = Memory.read n' a ∨
    (Memory.read n a = Memory.read m a ∧ Memory.read n' a = Memory.read m' a)

theorem writtenAlike_refl (m m' : Memory) : WrittenAlike m m' m m' := fun _ => .inr ⟨rfl, rfl⟩

/-- The same value written to the same element of both. -/
theorem WrittenAlike.write {m m' n n' : Memory} (h : WrittenAlike m m' n n') (b : Index) (v : NUM) :
    WrittenAlike m m' (Memory.write n b v) (Memory.write n' b v) := by
  intro a
  by_cases hab : a = b
  · left; simp [hab]
  · simpa [hab] using h a

/-! ### Two commands that end alike (R12) -/

/-- From the cores `k` and `k'` the command `i` leaves `c` and `c'`: its unit in the same state in both, and the block
memories written alike. -/
structure LeavesAlike (i : Instr) (k k' c c' : CoreState) : Prop where
  unit : sameUnit (unitOf i) c c'
  inMem : WrittenAlike k.inMem k'.inMem c.inMem c'.inMem
  outMem : WrittenAlike k.outMem k'.outMem c.outMem c'.outMem

/-- The outcomes `r` at `s` and `r'` at `s'` of the command `i`: the same error in both, or the same value with cores that
`LeavesAlike` relates, of which the first keeps to what `i` may write. -/
def EndsAlike (i : Instr) (s s' : State) (r r' : Result) : Prop :=
  (∃ e, r = .next (s.failed e) ∧ r' = .next (s'.failed e)) ∨
    ∃ c c' v, r = .next (s.done c v) ∧ r' = .next (s'.done c' v) ∧ WritesOwnUnit i s.core c ∧
      LeavesAlike i s.core s'.core c c'

theorem initFlag_congr {u : UnitId} {c d : CoreState} (h : sameUnit (some u) c d) : initFlag u c = initFlag u d := by
  cases u with
  | rb0 => exact congrArg RBState.init (show c.rb0 = d.rb0 from h)
  | lfo0 => exact congrArg LFOState.init (show c.lfo0 = d.lfo0 from h)
  | cf => exact congrArg CFState.init (show c.cf = d.cf from h)
  | vib => exact congrArg VIBState.init (show c.vib = d.vib from h)

section combinators
variable {i : Instr} {s s' : State}

theorem endsAlike_raise (e : Status) : EndsAlike i s s' (raise e s) (raise e s') := .inl ⟨e, rfl, rfl⟩

theorem endsAlike_commit {c c' : CoreState} (hw : WritesOwnUnit i s.core c) (hl : LeavesAlike i s.core s'.core c c')
    (v : Value) : EndsAlike i s s' (commit c v s) (commit c' v s') := .inr ⟨c, c', v, rfl, rfl, hw, hl⟩

theorem endsAlike_answer {u : Option UnitId} (hi : unitOf i = u) (h : sameUnit u s.core s'.core) (v : Value) :
    EndsAlike i s s' (answer v s) (answer v s') :=
  endsAlike_commit (writesOwnUnit_refl i s.core) ⟨hi ▸ h, writtenAlike_refl _ _, writtenAlike_refl _ _⟩ v

theorem endsAlike_ite {p : Prop} [Decidable p] {a a' b b' : Result} (h : EndsAlike i s s' a a')
    (h' : EndsAlike i s s' b b') : EndsAlike i s s' (if p then a else b) (if p then a' else b') := by
  split <;> assumption

theorem endsAlike_guardInit (u : UnitId) (h : sameUnit (some u) s.core s'.core) {a a' : Result}
    (hb : EndsAlike i s s' a a') :
    EndsAlike i s s' (guardInit u s a) (guardInit u s' a') := by
  unfold guardInit
  rw [initFlag_congr h]
  exact endsAlike_ite (endsAlike_raise _) hb

theorem endsAlike_guardUse (u : UnitId) (h : sameUnit (some u) s.core s'.core) {a a' : Result}
    (hb : EndsAlike i s s' a a') :
    EndsAlike i s s' (guardUse u s a) (guardUse u s' a') := by
  unfold guardUse
  rw [initFlag_congr h]
  exact endsAlike_ite hb (endsAlike_raise _)

theorem endsAlike_query {u : UnitId} (hi : unitOf i = some u) (h : sameUnit (some u) s.core s'.core) (neutral v : Value) :
    EndsAlike i s s' (query u neutral v s) (query u neutral v s') := by
  unfold query
  rw [initFlag_congr h]
  exact endsAlike_answer hi h _

/-! A command that writes its unit and no memory. -/

theorem endsAlike_commit_rb0 (hi : unitOf i = some .rb0) (x : RBState) (v : Value) :
    EndsAlike i s s' (commit { s.core with rb0 := x } v s) (commit { s'.core with rb0 := x } v s') :=
  endsAlike_commit (c := { s.core with rb0 := x }) (c' := { s'.core with rb0 := x })
    { writesOwnUnit_refl i s.core with rb0 := fun h => absurd hi h }
    ⟨by rw [hi]; rfl, writtenAlike_refl _ _, writtenAlike_refl _ _⟩ v

theorem endsAlike_commit_lfo0 (hi : unitOf i = some .lfo0) (x : LFOState) (v : Value) :
    EndsAlike i s s' (commit { s.core with lfo0 := x } v s) (commit { s'.core with lfo0 := x } v s') :=
  endsAlike_commit (c := { s.core with lfo0 := x }) (c' := { s'.core with lfo0 := x })
    { writesOwnUnit_refl i s.core with lfo0 := fun h => absurd hi h }
    ⟨by rw [hi]; rfl, writtenAlike_refl _ _, writtenAlike_refl _ _⟩ v

theorem endsAlike_commit_cf (hi : unitOf i = some .cf) (x : CFState) (v : Value) :
    EndsAlike i s s' (commit { s.core with cf := x } v s) (commit { s'.core with cf := x } v s') :=
  endsAlike_commit (c := { s.core with cf := x }) (c' := { s'.core with cf := x })
    { writesOwnUnit_refl i s.core with cf := fun h => absurd hi h }
    ⟨by rw [hi]; rfl, writtenAlike_refl _ _, writtenAlike_refl _ _⟩ v

theorem endsAlike_commit_vib (hi : unitOf i = some .vib) (x : VIBState) (v : Value) :
    EndsAlike i s s' (commit { s.core with vib := x } v s) (commit { s'.core with vib := x } v s') :=
  endsAlike_commit (c := { s.core with vib := x }) (c' := { s'.core with vib := x })
    { writesOwnUnit_refl i s.core with vib := fun h => absurd hi h }
    ⟨by rw [hi]; rfl, writtenAlike_refl _ _, writtenAlike_refl _ _⟩ v

end combinators

/-! ### The frame steps of the two PROCESS commands -/

/-- While a `PROCESS` command of unit `u` runs from `k` and from `k'`, the cores `c` and `c'` it has reached agree on all
it reads, and `OUT` has been written alike. -/
structure InLockstep (u : UnitId) (k k' c c' : CoreState) : Prop where
  unit : sameUnit (some u) c c'
  inMem : c.inMem = c'.inMem
  outMem : WrittenAlike k.outMem k'.outMem c.outMem c'.outMem

section frames
variable {ν : Numerics} {k k' c c' : CoreState}

theorem cfSample_congr (hcf : c.cf = c'.cf) (hin : c.inMem = c'.inMem) (n ch : Nat) :
    cfSample ν c n ch = cfSample ν c' n ch := by simp only [cfSample, hcf, hin]

theorem cfStored_congr (hcf : c.cf = c'.cf) (hin : c.inMem = c'.inMem) (n ch : Nat) :
    cfStored ν c n ch = cfStored ν c' n ch := by simp only [cfStored, cfSample_congr hcf hin, hcf, hin]

theorem inLockstep_cfChannel (h : InLockstep .cf k k' c c') (n ch : Nat) :
    InLockstep .cf k k' (cfChannel ν n c ch) (cfChannel ν n c' ch) := by
  obtain ⟨hcf, hin, hout⟩ := h
  replace hcf : c.cf = c'.cf := hcf
  rw [cfChannel_eq, cfChannel_eq, cfSample_congr hcf hin, cfStored_congr hcf hin, hcf]
  exact ⟨rfl, hin, hout.write _ _⟩

theorem inLockstep_cfStepHead (h : InLockstep .cf k k' c c') :
    InLockstep .cf k k' (cfStepHead c) (cfStepHead c') := by
  obtain ⟨hcf, hin, hout⟩ := h
  replace hcf : c.cf = c'.cf := hcf
  unfold cfStepHead
  rw [hcf]
  exact ⟨rfl, hin, hout⟩

theorem inLockstep_cfFrame (h : InLockstep .cf k k' c c') (n : Nat) :
    InLockstep .cf k k' (cfFrame ν c n) (cfFrame ν c' n) := by
  have hcf : c.cf = c'.cf := h.unit
  unfold cfFrame
  rw [hcf]
  exact inLockstep_cfStepHead (List.foldl_rel h fun ch _ _ _ h => inLockstep_cfChannel h n ch)

theorem inLockstep_cfFrames (h : InLockstep .cf k k' c c') (n : Nat) :
    InLockstep .cf k k' (cfFrames ν c n) (cfFrames ν c' n) :=
  List.foldl_rel h fun j _ _ _ h => inLockstep_cfFrame h j

theorem vibPutRing_congr (hvib : c.vib = c'.vib) (hin : c.inMem = c'.inMem) (j ch : Nat) :
    vibPutRing c j ch = vibPutRing c' j ch := by simp only [vibPutRing, hvib, hin]

theorem inLockstep_vibChannel (h : InLockstep .vib k k' c c') (j : Nat) (v : NUM) (ch : Nat) :
    InLockstep .vib k k' (vibChannel ν j v c ch) (vibChannel ν j v c' ch) := by
  obtain ⟨hvib, hin, hout⟩ := h
  replace hvib : c.vib = c'.vib := hvib
  rw [vibChannel_eq, vibChannel_eq, vibPutRing_congr hvib hin, hvib]
  exact ⟨rfl, hin, hout.write _ _⟩

theorem inLockstep_vibFrame (h : InLockstep .vib k k' c c') (j : Nat) :
    InLockstep .vib k k' (vibFrame ν c j) (vibFrame ν c' j) := by
  obtain ⟨hvib, hin, hout⟩ := h
  replace hvib : c.vib = c'.vib := hvib
  unfold vibFrame
  rw [hvib]
  exact List.foldl_rel ⟨rfl, hin, hout⟩ fun ch _ _ _ h => inLockstep_vibChannel h j _ ch

theorem inLockstep_vibFrames (h : InLockstep .vib k k' c c') (n : Nat) :
    InLockstep .vib k k' (vibFrames ν c n) (vibFrames ν c' n) :=
  List.foldl_rel h fun j _ _ _ h => inLockstep_vibFrame h j

theorem inLockstep_vibWarm (hvib : k.vib = k'.vib) (hin : k.inMem = k'.inMem) :
    InLockstep .vib k k' (vibWarm k) (vibWarm k') := by
  rw [vibWarm_eq k, vibWarm_eq k', vibWarm_vib, vibWarm_vib, hvib]
  exact ⟨rfl, hin, writtenAlike_refl _ _⟩

/-- Two runs that end in lockstep leave their cores alike. -/
theorem InLockstep.leavesAlike {i : Instr} {u : UnitId} (hi : unitOf i = some u) (h : InLockstep u k k' c c') :
    LeavesAlike i k k' c c' :=
  ⟨hi ▸ h.unit, fun a => .inl (by rw [h.inMem]), h.outMem⟩

end frames

/-! ### Every command, unit by unit -/

section commands
variable {i : Instr} {s s' : State}

theorem frameCountOk_congr (hp : s.params = s'.params) (n : Int) : frameCountOk n s = frameCountOk n s' := by
  simp only [frameCountOk, hp]

theorem ioInRange_congr (hp : s.params = s'.params) (ch n : Nat) : ioInRange ch n s = ioInRange ch n s' := by
  simp only [ioInRange, hp]

theorem exec_endsAlike_rb0 (hi : unitOf i = some .rb0) (hp : s.params = s'.params) (h : s.core.rb0 = s'.core.rb0) :
    EndsAlike i s s' (exec i s) (exec i s') := by
  cases i with
  | rbInit n =>
    simp only [exec, execRbInit, hp]
    exact endsAlike_guardInit .rb0 h (endsAlike_ite (endsAlike_raise _) (endsAlike_commit_rb0 hi _ _))
  | rbReset =>
    simp only [exec, execRbReset, h]
    exact endsAlike_guardUse .rb0 h (endsAlike_commit_rb0 hi _ _)
  | rbPut v =>
    simp only [exec, execRbPut, h]
    exact endsAlike_guardUse .rb0 h (endsAlike_commit_rb0 hi _ _)
  | rbGetpi =>
    simp only [exec, execRbGetpi, h]
    exact endsAlike_guardUse .rb0 h (endsAlike_commit_rb0 hi _ _)
  | rbGet o =>
    simp only [exec, execRbGet, hp, h]
    exact endsAlike_guardUse .rb0 h (endsAlike_answer hi h _)
  | rbGetwidx =>
    simp only [exec, execRbGetwidx, h]
    exact endsAlike_guardUse .rb0 h (endsAlike_answer hi h _)
  | _ => simp [unitOf] at hi

theorem lfoInitCommand_endsAlike (hi : unitOf i = some .lfo0) (hp : s.params = s'.params)
    (h : s.core.lfo0 = s'.core.lfo0) (wave : Waveform) (fref fs : NUM) :
    EndsAlike i s s' (lfoInitCommand wave fref fs s) (lfoInitCommand wave fref fs s') := by
  simp only [lfoInitCommand, hp]
  exact endsAlike_guardInit .lfo0 h <| endsAlike_ite (endsAlike_raise _) <| endsAlike_ite (endsAlike_raise _) <|
    endsAlike_commit_lfo0 hi _ _

theorem exec_endsAlike_lfo0 (hi : unitOf i = some .lfo0) (hp : s.params = s'.params)
    (h : s.core.lfo0 = s'.core.lfo0) : EndsAlike i s s' (exec i s) (exec i s') := by
  cases i with
  | lfoInitSine fref fs => exact lfoInitCommand_endsAlike hi hp h .sine fref fs
  | lfoInitSaw fref fs => exact lfoInitCommand_endsAlike hi hp h .saw fref fs
  | lfoInitPulse fref fs => exact lfoInitCommand_endsAlike hi hp h .pulse fref fs
  | lfoResetKeep =>
    simp only [exec, execLfoResetKeep, h]
    exact endsAlike_guardUse .lfo0 h (endsAlike_commit_lfo0 hi _ _)
  | lfoResetFree =>
    simp only [exec, execLfoResetFree, h]
    exact endsAlike_guardUse .lfo0 h (endsAlike_commit_lfo0 hi _ _)
  | lfoSetamp v =>
    simp only [exec, execLfoSetamp, hp, h]
    exact endsAlike_guardUse .lfo0 h (endsAlike_commit_lfo0 hi _ _)
  | lfoSetfreq hz =>
    simp only [exec, execLfoSetfreq, hp, h]
    exact endsAlike_guardUse .lfo0 h (endsAlike_ite (endsAlike_raise _) (endsAlike_commit_lfo0 hi _ _))
  | lfoGetamp =>
    simp only [exec, execLfoGetamp, h]
    exact endsAlike_query hi h _ _
  | lfoGetfreq =>
    simp only [exec, execLfoGetfreq, h]
    exact endsAlike_query hi h _ _
  | lfoGetvalue =>
    simp only [exec, execLfoGetvalue, hp, h]
    exact endsAlike_guardUse .lfo0 h (endsAlike_commit_lfo0 hi _ _)
  | lfoResetpos =>
    simp only [exec, execLfoResetpos, h]
    exact endsAlike_guardUse .lfo0 h (endsAlike_commit_lfo0 hi _ _)
  | _ => simp [unitOf] at hi

theorem cfInitCommand_endsAlike (hi : unitOf i = some .cf) (hp : s.params = s'.params) (h : s.core.cf = s'.core.cf)
    (ftype : FilterType) (d fs : NUM) (n : Int) :
    EndsAlike i s s' (cfInitCommand ftype d fs n s) (cfInitCommand ftype d fs n s') := by
  simp only [cfInitCommand, hp]
  exact endsAlike_guardInit .cf h <| endsAlike_ite (endsAlike_raise _) <| endsAlike_ite (endsAlike_raise _) <|
    endsAlike_ite (endsAlike_raise _) <| endsAlike_commit_cf hi _ _

theorem writesOwnUnit_cfFrames (ν : Numerics) (k : CoreState) (n : Nat) (frameCount : Int) :
    WritesOwnUnit (.cfProcess frameCount) k (cfFrames ν k n) where
  rb0 _ := cfFrames_rb0 k n
  lfo0 _ := cfFrames_lfo0 k n
  cf h := absurd rfl h
  vib _ := cfFrames_vib k n
  inMem _ := cfFrames_inMem k n
  outMem h := absurd h (by simp [isProcess])

theorem exec_endsAlike_cf (hi : unitOf i = some .cf) (hp : s.params = s'.params) (h : s.core.cf = s'.core.cf)
    (hin : isProcess i = true → s.core.inMem = s'.core.inMem) : EndsAlike i s s' (exec i s) (exec i s') := by
  cases i with
  | cfInitFir d fs n => exact cfInitCommand_endsAlike hi hp h .fir d fs n
  | cfInitIir d fs n => exact cfInitCommand_endsAlike hi hp h .iir d fs n
  | cfReset => exact endsAlike_guardUse .cf h (endsAlike_commit_cf hi _ _)
  | cfSetgain g =>
    simp only [exec, execCfSetgain, h]
    exact endsAlike_guardUse .cf h (endsAlike_commit_cf hi _ _)
  | cfSetdelay d =>
    simp only [exec, execCfSetdelay, hp, h]
    exact endsAlike_guardUse .cf h <| endsAlike_ite (endsAlike_raise _) <| endsAlike_ite (endsAlike_raise _) <|
      endsAlike_commit_cf hi _ _
  | cfGetgain =>
    simp only [exec, execCfGetgain, h]
    exact endsAlike_query hi h _ _
  | cfGetdelay =>
    simp only [exec, execCfGetdelay, h]
    exact endsAlike_query hi h _ _
  | cfProcess n =>
    simp only [exec, execCfProcess, hp, frameCountOk_congr hp]
    have hlock := inLockstep_cfFrames (ν := s'.params.numerics) (c := s.core) (c' := s'.core)
      ⟨h, hin rfl, writtenAlike_refl _ _⟩ n.toNat
    exact endsAlike_guardUse .cf h <| endsAlike_ite
      (endsAlike_commit (writesOwnUnit_cfFrames _ _ _ n) (hlock.leavesAlike hi) _) (endsAlike_raise _)
  | _ => simp [unitOf] at hi

theorem writesOwnUnit_vibFrames (ν : Numerics) (k : CoreState) (n : Nat) (frameCount : Int) :
    WritesOwnUnit (.vibProcess frameCount) k (vibFrames ν (vibWarm k) n) := by
  rw [vibWarm_eq k]
  exact {
    rb0 _ := vibFrames_rb0 _ n
    lfo0 _ := vibFrames_lfo0 _ n
    cf _ := vibFrames_cf _ n
    vib h := absurd rfl h
    inMem _ := vibFrames_inMem _ n
    outMem h := absurd h (by simp [isProcess]) }

theorem exec_endsAlike_vib (hi : unitOf i = some .vib) (hp : s.params = s'.params) (h : s.core.vib = s'.core.vib)
    (hin : isProcess i = true → s.core.inMem = s'.core.inMem) : EndsAlike i s s' (exec i s) (exec i s') := by
  cases i with
  | vibInit d fs n =>
    simp only [exec, execVibInit, hp]
    exact endsAlike_guardInit .vib h <| endsAlike_ite (endsAlike_raise _) <| endsAlike_ite (endsAlike_raise _) <|
      endsAlike_ite (endsAlike_raise _) <| endsAlike_ite (endsAlike_raise _) <| endsAlike_ite (endsAlike_raise _) <|
      endsAlike_ite (endsAlike_raise _) <| endsAlike_commit_vib hi _ _
  | vibReset =>
    simp only [exec, execVibReset, h]
    exact endsAlike_guardUse .vib h (endsAlike_commit_vib hi _ _)
  | vibSetdelay d =>
    simp only [exec, execVibSetdelay, hp, h]
    exact endsAlike_guardUse .vib h (endsAlike_ite (endsAlike_raise _) (endsAlike_commit_vib hi _ _))
  | vibSetfreq hz =>
    simp only [exec, execVibSetfreq, hp, h]
    exact endsAlike_guardUse .vib h (endsAlike_ite (endsAlike_raise _) (endsAlike_commit_vib hi _ _))
  | vibSetblock n =>
    simp only [exec, execVibSetblock, h]
    exact endsAlike_guardUse .vib h (endsAlike_ite (endsAlike_raise _) (endsAlike_commit_vib hi _ _))
  | vibGetdelay =>
    simp only [exec, execVibGetdelay, h]
    exact endsAlike_query hi h _ _
  | vibGetfreq =>
    simp only [exec, execVibGetfreq, h]
    exact endsAlike_query hi h _ _
  | vibGetblock =>
    simp only [exec, execVibGetblock, h]
    exact endsAlike_query hi h _ _
  | vibProcess n =>
    simp only [exec, execVibProcess, hp, h, frameCountOk_congr hp]
    have hlock := inLockstep_vibFrames (ν := s'.params.numerics) (inLockstep_vibWarm h (hin rfl))
      (vibHandled s'.core.vib.blockSize n)
    exact endsAlike_guardUse .vib h <| endsAlike_ite
      (endsAlike_commit (writesOwnUnit_vibFrames _ _ _ n) (hlock.leavesAlike hi) _) (endsAlike_raise _)
  | _ => simp [unitOf] at hi

theorem exec_endsAlike_none (hi : unitOf i = none) (hp : s.params = s'.params)
    (hout : ∀ ch n, i = .ioRdout ch n → Memory.read s.core.outMem (ch, n) = Memory.read s'.core.outMem (ch, n)) :
    EndsAlike i s s' (exec i s) (exec i s') := by
  cases i with
  | sysNop => exact endsAlike_answer hi trivial _
  | ioWrin ch n x =>
    simp only [exec, execIoWrin, ioInRange_congr hp]
    have hw : WritesOwnUnit (.ioWrin ch n x) s.core { s.core with inMem := Memory.write s.core.inMem (ch, n) x } :=
      { writesOwnUnit_refl (.ioWrin ch n x) s.core with inMem := fun h => absurd h (by simp [isWrin]) }
    have hl : LeavesAlike (.ioWrin ch n x) s.core s'.core
        { s.core with inMem := Memory.write s.core.inMem (ch, n) x }
        { s'.core with inMem := Memory.write s'.core.inMem (ch, n) x } :=
      ⟨trivial, (writtenAlike_refl _ _).write _ _, writtenAlike_refl _ _⟩
    exact endsAlike_ite (endsAlike_commit hw hl _) (endsAlike_raise _)
  | ioRdout ch n =>
    simp only [exec, execIoRdout, ioInRange_congr hp, hout ch n rfl]
    exact endsAlike_ite (endsAlike_answer hi trivial _) (endsAlike_raise _)
  | _ => simp [unitOf] at hi

/-- On two states that agree on the parameters and on what the command may read, it ends alike (R12, R13). -/
theorem exec_endsAlike (hp : s.params = s'.params) (hv : sameView i s.core s'.core) :
    EndsAlike i s s' (exec i s) (exec i s') := by
  obtain ⟨hu, hin, hout⟩ := hv
  cases hi : unitOf i with
  | none => exact exec_endsAlike_none hi hp hout
  | some u =>
    rw [hi] at hu
    cases u with
    | rb0 => exact exec_endsAlike_rb0 hi hp hu
    | lfo0 => exact exec_endsAlike_lfo0 hi hp hu
    | cf => exact exec_endsAlike_cf hi hp hu hin
    | vib => exact exec_endsAlike_vib hi hp hu hin

theorem sameUnit_refl (u : Option UnitId) (c : CoreState) : sameUnit u c c := by
  rcases u with _ | _ | _ | _ | _ <;> trivial

theorem sameView_refl (i : Instr) (c : CoreState) : sameView i c c :=
  ⟨sameUnit_refl _ c, fun _ => rfl, fun _ _ _ => rfl⟩

/-- All that a command can end in: an error with the core unchanged, or `Ok` with a core that differs only where the
command may write. It is `exec_endsAlike` for one state and itself. -/
theorem exec_ends (i : Instr) (s : State) : (∃ e, exec i s = .next (s.failed e)) ∨
    ∃ c v, exec i s = .next (s.done c v) ∧ WritesOwnUnit i s.core c := by
  obtain ⟨e, he, -⟩ | ⟨c, -, v, hc, -, hw, -⟩ := exec_endsAlike (i := i) (s := s) rfl (sameView_refl i s.core)
  · exact .inl ⟨e, he⟩
  · exact .inr ⟨c, v, hc, hw⟩

end commands

/-- Settles O14, from the two ways a command can end. -/
theorem onlyItsOwnUnit : Obligations.OnlyItsOwnUnit := by
  unfold Obligations.OnlyItsOwnUnit
  intro i s t ht
  obtain ⟨e, he⟩ | ⟨c, v, hc, hw⟩ := exec_ends i s
  · obtain rfl : s.failed e = t := Host.Outcome.next.inj (he.symm.trans ht)
    obtain ⟨hrb, hlfo, hcf, hvib, hin, hout⟩ := writesOwnUnit_refl i s.core
    exact ⟨hrb, hlfo, hcf, hvib, hin, hout, rfl, rfl, rfl, rfl, List.prefix_append _ _⟩
  · obtain rfl : s.done c v = t := Host.Outcome.next.inj (hc.symm.trans ht)
    obtain ⟨hrb, hlfo, hcf, hvib, hin, hout⟩ := hw
    exact ⟨hrb, hlfo, hcf, hvib, hin, hout, rfl, rfl, rfl, rfl, List.prefix_append _ _⟩

/-- Settles O15, from the command ending alike on the two states. -/
theorem unitsDoNotInterfere : Obligations.UnitsDoNotInterfere := by
  unfold Obligations.UnitsDoNotInterfere
  intro i s s' t t' hp hv ht ht'
  obtain ⟨e, he, he'⟩ | ⟨c, c', v, hc, hc', -, hunit, hin, hout⟩ := exec_endsAlike hp hv
  · obtain rfl : s.failed e = t := Host.Outcome.next.inj (he.symm.trans ht)
    obtain rfl : s'.failed e = t' := Host.Outcome.next.inj (he'.symm.trans ht')
    exact ⟨hv.1, by simp, writtenAlike_refl _ _, writtenAlike_refl _ _⟩
  · obtain rfl : s.done c v = t := Host.Outcome.next.inj (hc.symm.trans ht)
    obtain rfl : s'.done c' v = t' := Host.Outcome.next.inj (hc'.symm.trans ht')
    exact ⟨hunit, by simp, hin, hout⟩

end Sys2Proof.Machine

/-!
PROOFS. The statements of `10_state.md`: every step keeps the invariants of the four units (R24 to R33) and of the block
memories (R34). A step is inverted once (`step_cases`), every shared operation has one rule for what it leaves
(`Leaves`), and each unit's part is then a case per command of that unit.
-/

namespace Sys2Proof.Machine

/-! ### A decoded command has 32-bit integer operands (R10, R91) -/

/-- A form gives well-formed commands, whatever operands its slots hold. -/
def FormWellFormed : Form → Prop
  | .none i => WellFormed i
  | .int k => ∀ n, fitsInt32 n = true → WellFormed (k n)
  | .num k => ∀ x, WellFormed (k x)
  | .numNum k => ∀ x y, WellFormed (k x y)
  | .numNumInt k => ∀ x y n, fitsInt32 n = true → WellFormed (k x y n)

theorem fill_wellFormed {f : Form} (hf : FormWellFormed f) {slots rest : List Slot} {i : Instr}
    (h : f.fill slots = some (i, rest)) : WellFormed i := by
  cases f with
  | none j =>
    obtain ⟨rfl, -⟩ := Prod.mk.inj (Option.some.inj h)
    exact hf
  | int k =>
    match slots, h with
    | a :: _, h =>
      obtain ⟨rfl, -⟩ := Prod.mk.inj (Option.some.inj h)
      exact hf _ (fitsInt32_asInt a)
  | num k =>
    match slots, h with
    | _ :: _, h =>
      obtain ⟨rfl, -⟩ := Prod.mk.inj (Option.some.inj h)
      exact hf _
  | numNum k =>
    match slots, h with
    | _ :: _ :: _, h =>
      obtain ⟨rfl, -⟩ := Prod.mk.inj (Option.some.inj h)
      exact hf _ _
  | numNumInt k =>
    match slots, h with
    | _ :: _ :: c :: _, h =>
      obtain ⟨rfl, -⟩ := Prod.mk.inj (Option.some.inj h)
      exact hf _ _ _ (fitsInt32_asInt c)

theorem headerTable_wellFormed : ∀ e ∈ headerTable, FormWellFormed e.2 := by
  simp [headerTable, FormWellFormed, WellFormed, Instr.wellFormed]

theorem decodeHeader_wellFormed {h : Word} {f : Form} (hd : decodeHeader h = some f) : FormWellFormed f := by
  unfold decodeHeader at hd
  split at hd
  · obtain rfl := Option.some.inj hd
    exact fun _ => fitsChannelFrame_fields h
  · split at hd
    · obtain rfl := Option.some.inj hd
      exact fitsChannelFrame_fields h
    · obtain ⟨front, back, htable, -⟩ := List.lookup_eq_some_iff.mp hd
      exact headerTable_wellFormed (h, f) (by simp [htable])

/-- Whatever the slots are, the command read from them is well-formed. -/
theorem decode_wellFormed {slots rest : List Slot} {i : Instr} (h : decode slots = .command i rest) : WellFormed i := by
  cases slots with
  | nil => simp [decode] at h
  | cons a slots =>
    simp only [decode] at h
    cases hd : decodeHeader a.asWord with
    | none => simp [hd] at h
    | some f =>
      cases hf : f.fill slots with
      | none => simp [hd, hf] at h
      | some p =>
        simp only [hd, hf, Decoded.command.injEq] at h
        obtain ⟨rfl, -⟩ := h
        exact fill_wellFormed (decodeHeader_wellFormed hd) hf

/-! ### What a step can do -/

/-- If a step answers, it was power-on reset, or a command that was decoded and run, or the refusal of a reserved header, or
a wait. -/
theorem step_cases {s t : State} (h : step s = .next t) :
    (s.rst = true ∧ t = powerOnReset s) ∨
    (s.rst = false ∧ ∃ i rest, decode s.pending = .command i rest ∧ exec i (s.consumed rest) = .next t) ∨
    (s.rst = false ∧ ∃ w rest, decode s.pending = .reserved w rest ∧ t = (s.consumed rest).failed .illegalCall) ∨
    (s.rst = false ∧ decode s.pending = .incomplete ∧ t = waitForSlots s) := by
  unfold step at h
  cases hrst : s.rst with
  | true =>
    rw [if_pos hrst] at h
    exact .inl ⟨rfl, (Host.Outcome.next.inj h).symm⟩
  | false =>
    rw [if_neg (by simp [hrst])] at h
    cases hd : decode s.pending with
    | command i rest => exact .inr (.inl ⟨rfl, i, rest, rfl, by rwa [hd] at h⟩)
    | reserved w rest =>
      rw [hd] at h
      exact .inr (.inr (.inl ⟨rfl, w, rest, rfl, (Host.Outcome.next.inj h).symm⟩))
    | incomplete =>
      rw [hd] at h
      exact .inr (.inr (.inr ⟨rfl, rfl, (Host.Outcome.next.inj h).symm⟩))

/-- Whatever answers with the outcome `r` leaves a core with `P`. -/
def Leaves (P : CoreState → Prop) (r : Result) : Prop := ∀ t, r = .next t → P t.core

/-- What holds after reset and what every well-formed command leaves is kept by a step, which never changes the parameters
(log 2). -/
theorem step_keeps {P : CoreState → Prop} {s t : State} (hreset : P CoreState.reset) (hs : P s.core)
    (hexec : ∀ i rest, WellFormed i → Leaves P (exec i (s.consumed rest))) (h : step s = .next t) :
    t.params = s.params ∧ P t.core := by
  obtain ⟨-, rfl⟩ | ⟨-, i, rest, hd, ht⟩ | ⟨-, w, rest, -, rfl⟩ | ⟨-, -, rfl⟩ := step_cases h
  · exact ⟨rfl, hreset⟩
  · obtain ⟨-, -, -, -, -, -, hparams, -⟩ := onlyItsOwnUnit i _ t ht
    exact ⟨hparams, hexec i rest (decode_wellFormed hd) t ht⟩
  · exact ⟨rfl, hs⟩
  · exact ⟨rfl, hs⟩

/-! ### What the shared operations leave -/

section leaves
variable {P : CoreState → Prop} {s : State}

theorem leaves_next {u : State} (h : P u.core) : Leaves P (.next u) := by
  intro t ht
  obtain rfl := Host.Outcome.next.inj ht
  exact h

theorem leaves_raise (h : P s.core) (e : Status) : Leaves P (raise e s) := leaves_next (u := s.failed e) h

theorem leaves_answer (h : P s.core) (v : Value) : Leaves P (answer v s) := leaves_next (u := s.done s.core v) h

theorem leaves_commit {c : CoreState} (h : P c) (v : Value) : Leaves P (commit c v s) := leaves_next (u := s.done c v) h

/-- A check of the arguments: what it refuses leaves the core as it was. -/
theorem leaves_check {p : Prop} [Decidable p] (h : P s.core) {e : Status} {body : Result} (hb : ¬ p → Leaves P body) :
    Leaves P (if p then raise e s else body) := by
  split
  · exact leaves_raise h e
  · exact hb ‹_›

theorem leaves_guardInit {u : UnitId} (h : P s.core) {body : Result} (hb : initFlag u s.core = false → Leaves P body) :
    Leaves P (guardInit u s body) := by
  intro t ht
  obtain ⟨-, rfl⟩ | ⟨hu, hbody⟩ := guardInit_cases ht
  · exact h
  · exact hb hu t hbody

theorem leaves_guardUse {u : UnitId} (h : P s.core) {body : Result} (hb : initFlag u s.core = true → Leaves P body) :
    Leaves P (guardUse u s body) := by
  intro t ht
  obtain ⟨-, rfl⟩ | ⟨hu, hbody⟩ := guardUse_cases ht
  · exact h
  · exact hb hu t hbody

theorem leaves_query (u : UnitId) (h : P s.core) (neutral v : Value) : Leaves P (query u neutral v s) := by
  intro t ht
  obtain ⟨_, rfl⟩ := query_cases ht
  exact h

/-- The frame count check of the two `PROCESS` commands. -/
theorem leaves_frames {n : Int} {c : CoreState} (h : P s.core) (hc : 0 ≤ n → n ≤ (s.params.blkMax : Int) → P c)
    (v : Value) : Leaves P (if frameCountOk n s then commit c v s else raise .invalidArguments s) := by
  split
  · obtain ⟨h0, hn⟩ := (frameCountOk_iff n s).mp ‹_›
    exact leaves_commit (hc h0 hn) v
  · exact leaves_raise h _

end leaves

/-! ### An invariant of a unit -/

/-- An initialised unit meets its invariant when it is live. -/
theorem unitInv_of_init {b : Bool} {live zero : Prop} (hb : b = true) (h : live) :
    (b = true → live) ∧ (b = false → zero) :=
  ⟨fun _ => h, fun h0 => absurd (hb.symm.trans h0) (by simp)⟩

theorem unitInv_reset {live zero : Prop} (h : zero) : (false = true → live) ∧ (false = false → zero) :=
  ⟨fun h0 => absurd h0 (by simp), fun _ => h⟩

theorem rbInv_reset (p : Params) : RbInv p RBState.reset := unitInv_reset rfl

theorem lfoInv_reset (p : Params) : LfoInv p LFOState.reset := unitInv_reset rfl

theorem cfInv_reset (p : Params) : CfInv p CFState.reset := unitInv_reset rfl

theorem vibInv_reset (p : Params) : VibInv p VIBState.reset := unitInv_reset rfl

/-! ### RB0 (R24, R25) -/

theorem rbLive_init {bound : Option Nat} {n : Int} (h : ¬ (n < 1 ∨ fits bound n = false)) :
    RbLive bound (rbCreate n.toNat) := by
  obtain ⟨h1, hfits⟩ := not_or.mp h
  have hn : (n.toNat : Int) = n := by omega
  exact rbLive_create bound (by omega) (by simpa [hn] using hfits)

theorem exec_keeps_rb0 (i : Instr) {s : State} (h : RbInv s.params s.core.rb0) :
    Leaves (fun c => RbInv s.params c.rb0) (exec i s) := by
  cases i with
  | rbInit n =>
    exact leaves_guardInit h fun _ => leaves_check h fun hn => leaves_commit (unitInv_of_init rfl (rbLive_init hn)) _
  | rbReset => exact leaves_guardUse h fun _ => leaves_commit (rbInv_reset s.params) _
  | rbPut v => exact leaves_guardUse h fun hi => leaves_commit (unitInv_of_init hi (rbLive_put (h.1 hi) v)) _
  | rbGetpi => exact leaves_guardUse h fun hi => leaves_commit (unitInv_of_init hi (rbLive_advance (h.1 hi))) _
  | rbGet o => exact leaves_guardUse h fun _ => leaves_answer h _
  | rbGetwidx => exact leaves_guardUse h fun _ => leaves_answer h _
  | _ =>
    intro t ht
    obtain ⟨hrb0, -⟩ := onlyItsOwnUnit _ s t ht
    rwa [hrb0 (by simp [unitOf])]

/-- Settles O34, command by command. -/
theorem stepKeepsRingBuffer : Obligations.StepKeepsRingBuffer := by
  unfold Obligations.StepKeepsRingBuffer
  intro s t hinv h
  obtain ⟨hp, hkept⟩ := step_keeps (P := fun c => RbInv s.params c.rb0) (rbInv_reset s.params) hinv
    (fun i rest _ => exec_keeps_rb0 i (s := s.consumed rest) hinv) h
  exact ⟨hp, hp ▸ hkept⟩

/-! ### LFO0 (R27, R28) -/

section reference
variable {s : State} (hnum : s.params.num = .exact)
include hnum

theorem lfoInitCommand_keeps_lfo0 (wave : Waveform) (fref fs : NUM) (h : LfoInv s.params s.core.lfo0) :
    Leaves (fun c => LfoInv s.params c.lfo0) (lfoInitCommand wave fref fs s) := by
  simp only [lfoInitCommand, numerics_exact hnum]
  refine leaves_guardInit h fun _ => leaves_check h fun hpos => leaves_check h fun hfit => leaves_commit ?_ _
  obtain ⟨hfref, hfs⟩ := not_or.mp hpos
  exact unitInv_of_init rfl (lfoLive_init (by simpa using hfref) (by simpa using hfs) (by simpa using hfit))

theorem exec_keeps_lfo0 (i : Instr) (h : LfoInv s.params s.core.lfo0) :
    Leaves (fun c => LfoInv s.params c.lfo0) (exec i s) := by
  cases i with
  | lfoInitSine fref fs => exact lfoInitCommand_keeps_lfo0 hnum .sine fref fs h
  | lfoInitSaw fref fs => exact lfoInitCommand_keeps_lfo0 hnum .saw fref fs h
  | lfoInitPulse fref fs => exact lfoInitCommand_keeps_lfo0 hnum .pulse fref fs h
  | lfoResetKeep =>
    exact leaves_guardUse h fun hi => leaves_commit (unitInv_of_init hi (lfoLive_resetKeep (h.1 hi))) _
  | lfoResetFree => exact leaves_guardUse h fun _ => leaves_commit (lfoInv_reset s.params) _
  | lfoSetamp v =>
    simp only [exec, execLfoSetamp, numerics_exact hnum]
    exact leaves_guardUse h fun hi => leaves_commit (unitInv_of_init hi (lfoLive_setAmp (h.1 hi) v)) _
  | lfoSetfreq hz =>
    simp only [exec, execLfoSetfreq, numerics_exact hnum]
    exact leaves_guardUse h fun hi => leaves_check h fun hfloor =>
      leaves_commit (unitInv_of_init hi (lfoLive_setFreq (h.1 hi) (by simpa using hfloor))) _
  | lfoGetamp => exact leaves_query _ h _ _
  | lfoGetfreq => exact leaves_query _ h _ _
  | lfoGetvalue =>
    simp only [exec, execLfoGetvalue, numerics_exact hnum]
    exact leaves_guardUse h fun hi => leaves_commit (unitInv_of_init hi (lfoLive_advance (h.1 hi))) _
  | lfoResetpos =>
    exact leaves_guardUse h fun hi => leaves_commit (unitInv_of_init hi (lfoLive_resetPos (h.1 hi))) _
  | _ =>
    intro t ht
    obtain ⟨-, hlfo0, -⟩ := onlyItsOwnUnit _ s t ht
    rwa [hlfo0 (by simp [unitOf])]

end reference

/-- Settles O41, command by command. -/
theorem stepKeepsLfo : Obligations.StepKeepsLfo := by
  unfold Obligations.StepKeepsLfo
  intro s t hnum hinv h
  obtain ⟨hp, hkept⟩ := step_keeps (P := fun c => LfoInv s.params c.lfo0) (lfoInv_reset s.params) hinv
    (fun i rest _ => exec_keeps_lfo0 (s := s.consumed rest) hnum i hinv) h
  exact hp ▸ hkept

/-! ### CF (R30, R31) -/

/-- `CF.INIT` on arguments that pass its checks (R151). -/
theorem cfLive_create {p : Params} (ftype : FilterType) {d fs : NUM} {n : Int} (hn : 1 ≤ n) (hC : n ≤ (p.maxCh : Int))
    (hfs : 0 < fs) (hcap : 1 ≤ roundNum .exact (fs * d)) (hfits : fits p.cfMaxCap (roundNum .exact (fs * d)) = true) :
    CfLive p (cfCreate ftype d fs n.toNat (roundNum .exact (fs * d)).toNat) := by
  have hround : ((roundNum .exact (fs * d)).toNat : Int) = roundNum .exact (fs * d) := by omega
  have hpos : 1 ≤ (roundNum .exact (fs * d)).toNat := by omega
  refine ⟨hfs, ?_, hround, by rw [← hround] at hfits; exact hfits, ⟨hpos, le_refl _⟩, ?_, le_refl _, hpos, rfl, rfl⟩
  · show 1 ≤ n.toNat ∧ n.toNat ≤ p.maxCh
    omega
  · rw [mul_comm] at hround ⊢
    exact hround

/-- `CF.SETDELAY` keeps the logical length within the capacity, since rounding is monotone (R155, R160). -/
theorem cfLive_setDelay {p : Params} {f : CFState} (h : CfLive p f) {d : NUM} (hd : d ≤ f.maxDelaySec)
    (hpos : 1 ≤ roundNum .exact (d * f.fs)) :
    CfLive p { f with delaySec := d, Ld := (roundNum .exact (d * f.fs)).toNat } := by
  obtain ⟨hfs, hC, hcap, hfits, -, -, -, hhead, hwf, hin⟩ := h
  have hround : ((roundNum .exact (d * f.fs)).toNat : Int) = roundNum .exact (d * f.fs) := by omega
  have hle : roundNum .exact (d * f.fs) ≤ f.cap := by
    rw [hcap, mul_comm f.fs]
    exact roundNum_mono (mul_le_mul_of_nonneg_right hd hfs.le)
  refine ⟨hfs, hC, hcap, hfits, ?_, hround, hd, hhead, hwf, hin⟩
  show 1 ≤ (roundNum .exact (d * f.fs)).toNat ∧ (roundNum .exact (d * f.fs)).toNat ≤ f.cap
  omega

section reference
variable {s : State} (hnum : s.params.num = .exact)
include hnum

theorem cfInitCommand_keeps_cf (ftype : FilterType) (d fs : NUM) (n : Int) (h : CfInv s.params s.core.cf) :
    Leaves (fun c => CfInv s.params c.cf) (cfInitCommand ftype d fs n s) := by
  simp only [cfInitCommand, numerics_exact hnum]
  refine leaves_guardInit h fun _ => leaves_check h fun hn => leaves_check h fun hfs => leaves_check h fun hcap =>
    leaves_commit ?_ _
  obtain ⟨hn1, hnC⟩ := not_or.mp hn
  obtain ⟨hcap1, hfits⟩ := not_or.mp hcap
  exact unitInv_of_init rfl (cfLive_create ftype (not_lt.mp hn1) (not_lt.mp hnC) (by simpa using hfs) (not_lt.mp hcap1)
    (by simpa using hfits))

theorem exec_keeps_cf (i : Instr) (h : CfInv s.params s.core.cf) : Leaves (fun c => CfInv s.params c.cf) (exec i s) := by
  cases i with
  | cfInitFir d fs n => exact cfInitCommand_keeps_cf hnum .fir d fs n h
  | cfInitIir d fs n => exact cfInitCommand_keeps_cf hnum .iir d fs n h
  | cfReset => exact leaves_guardUse h fun _ => leaves_commit (cfInv_reset s.params) _
  | cfSetgain g => exact leaves_guardUse h fun hi => leaves_commit (unitInv_of_init hi (h.1 hi)) _
  | cfSetdelay d =>
    simp only [exec, execCfSetdelay, numerics_exact hnum]
    exact leaves_guardUse h fun hi => leaves_check h fun hd => leaves_check h fun hn =>
      leaves_commit (unitInv_of_init hi (cfLive_setDelay (h.1 hi) (by simpa using hd) (not_lt.mp hn))) _
  | cfGetgain => exact leaves_query _ h _ _
  | cfGetdelay => exact leaves_query _ h _ _
  | cfProcess n =>
    refine leaves_guardUse h fun hi => leaves_frames h (fun _ _ => unitInv_of_init ?_ (cfLive_frames (h.1 hi) _)) _
    rwa [cfFrames_init]
  | _ =>
    intro t ht
    obtain ⟨-, -, hcf, -⟩ := onlyItsOwnUnit _ s t ht
    rwa [hcf (by simp [unitOf])]

end reference

/-- Settles O48, command by command. -/
theorem stepKeepsCombFilter : Obligations.StepKeepsCombFilter := by
  unfold Obligations.StepKeepsCombFilter
  intro s t hnum hinv h
  obtain ⟨hp, hkept⟩ := step_keeps (P := fun c => CfInv s.params c.cf) (cfInv_reset s.params) hinv
    (fun i rest _ => exec_keeps_cf (s := s.consumed rest) hnum i hinv) h
  exact hp ▸ hkept

/-! ### VIB (R32, R33) -/

/-- `VIB.INIT` on arguments that pass its checks (R171, R172). -/
theorem vibLive_create {p : Params} (hnum : p.num = .exact) (hfref : 0 < p.vibLfoFref) {d fs : NUM} {n : Int} (hn : 1 ≤ n)
    (hC : n ≤ (p.maxCh : Int)) (hfs : 0 < fs) (hd : 0 ≤ d)
    (hfits : fits p.vibMaxN (2 * ceilNum (d * fs) + 2) = true)
    (hlfo : fits p.lfoMaxL (ceilNum (fs / p.vibLfoFref)) = true) :
    VibLive p (vibCreate p d fs n.toNat (ceilNum (d * fs)).toNat) := by
  have h0 : 0 ≤ ceilNum (d * fs) := ceilNum_nonneg (mul_nonneg hd hfs.le)
  have hM : ((ceilNum (d * fs)).toNat : Int) = ceilNum (d * fs) := Int.toNat_of_nonneg h0
  have hring : ∀ b ∈ (vibCreate p d fs n.toNat (ceilNum (d * fs)).toNat).rb,
      b = rbCreate (2 * (ceilNum (d * fs)).toNat + 2) := fun b hb => List.eq_of_mem_replicate hb
  have hl : (vibCreate p d fs n.toNat (ceilNum (d * fs)).toNat).lfo = lfoInit .exact p.vibWaveform p.vibLfoFref fs := by
    rw [← numerics_exact hnum]; rfl
  have hblock : (1 : Int) ≤ 2147483647 := by decide
  refine ⟨hfs, hd, ?_, hM, rfl, ?_, ?_, ⟨hblock, le_refl _⟩, List.length_replicate, ?_, ?_, ?_, ?_, ?_⟩
  · show 1 ≤ n.toNat ∧ n.toNat ≤ p.maxCh
    omega
  · rw [← hM] at hfits
    exact hfits
  · show ceilNum (0 * fs) ≤ ((ceilNum (d * fs)).toNat : Int)
    simp
  · intro b hb
    rw [hring b hb]
    exact vibRing_create (Nat.succ_pos _)
  · intro a ha b hb
    rw [hring a ha, hring b hb]
    exact ⟨rfl, rfl⟩
  · intro _ b hb
    rw [hring b hb]
    exact ⟨rfl, rfl, rfl⟩
  · intro hw
    exact absurd hw (by simp [vibCreate])
  · rw [hl]
    exact ⟨rfl, rfl, rfl, rfl, (zero_mul fs).symm, lfoLive_init hfref hfs hlfo⟩

/-- `VIB.SETDELAY` rewrites the LFO's table, with a depth of at most `M` samples (R174). -/
theorem vibLive_setDelay {p : Params} {v : VIBState} (h : VibLive p v) {d : NUM} (hd : ceilNum (d * v.fs) ≤ v.M) :
    VibLive p { v with delaySec := d, lfo := lfoSetAmp .exact v.lfo (d * v.fs) } := by
  obtain ⟨hfs, hmax, hC, hM, hN, hfits, -, hblock, hlen, hring, hsame, hcold, hwarm, hi, hwave, hfref, hlfs, -, hlive⟩ := h
  exact ⟨hfs, hmax, hC, hM, hN, hfits, hd, hblock, hlen, hring, hsame, hcold, hwarm, hi, hwave, hfref, hlfs, rfl,
    lfoLive_setAmp hlive _⟩

/-- `VIB.SETFREQ` sets the LFO's frequency, at or above its floor (R175). -/
theorem vibLive_setFreq {p : Params} {v : VIBState} (h : VibLive p v) {hz : NUM} (hhz : v.lfo.fref ≤ hz) :
    VibLive p { v with lfo := lfoSetFreq .exact v.lfo hz } := by
  obtain ⟨hfs, hmax, hC, hM, hN, hfits, hdepth, hblock, hlen, hring, hsame, hcold, hwarm, hi, hwave, hfref, hlfs, hamp,
    hlive⟩ := h
  exact ⟨hfs, hmax, hC, hM, hN, hfits, hdepth, hblock, hlen, hring, hsame, hcold, hwarm, hi, hwave, hfref, hlfs, hamp,
    lfoLive_setFreq hlive hhz⟩

/-- `VIB.SETBLOCK` sets a block size that its 32-bit operand can hold (R176, R10). -/
theorem vibLive_setBlock {p : Params} {v : VIBState} (h : VibLive p v) {n : Int} (hn : 1 ≤ n ∧ n ≤ 2147483647) :
    VibLive p { v with blockSize := n } := by
  obtain ⟨hfs, hmax, hC, hM, hN, hfits, hdepth, -, hlen, hring, hsame, hcold, hwarm, hlfo⟩ := h
  exact ⟨hfs, hmax, hC, hM, hN, hfits, hdepth, hn, hlen, hring, hsame, hcold, hwarm, hlfo⟩

@[simp] theorem vibWarm_init (k : CoreState) : (vibWarm k).vib.init = k.vib.init := by
  rw [vibWarm_vib]
  split <;> rfl

@[simp] theorem vibWarm_C (k : CoreState) : (vibWarm k).vib.C = k.vib.C := by
  rw [vibWarm_vib]
  split <;> rfl

theorem exec_keeps_vib {s : State} (hnum : s.params.num = .exact) (hvalid : ValidParams s.params) {i : Instr}
    (hwf : WellFormed i) (h : VibInv s.params s.core.vib) : Leaves (fun c => VibInv s.params c.vib) (exec i s) := by
  cases i with
  | vibInit d fs n =>
    obtain ⟨-, -, -, -, -, -, hfref⟩ := hvalid
    rw [numerics_exact hnum] at hfref
    simp only [exec, execVibInit, numerics_exact hnum]
    refine leaves_guardInit h fun _ => leaves_check h fun hn => leaves_check h fun hC => leaves_check h fun hfs =>
      leaves_check h fun hd => leaves_check h fun hfits => leaves_check h fun hlfo => leaves_commit ?_ _
    exact unitInv_of_init rfl (vibLive_create hnum (by simpa using hfref) (not_lt.mp hn) (not_lt.mp hC) (by simpa using hfs)
      (by simpa using hd) (by simpa using hfits) (by simpa using hlfo))
  | vibReset => exact leaves_guardUse h fun _ => leaves_commit (vibInv_reset s.params) _
  | vibSetdelay d =>
    simp only [exec, execVibSetdelay, numerics_exact hnum]
    exact leaves_guardUse h fun hi => leaves_check h fun hd =>
      leaves_commit (unitInv_of_init hi (vibLive_setDelay (h.1 hi) (not_lt.mp hd))) _
  | vibSetfreq hz =>
    simp only [exec, execVibSetfreq, numerics_exact hnum]
    exact leaves_guardUse h fun hi => leaves_check h fun hfloor =>
      leaves_commit (unitInv_of_init hi (vibLive_setFreq (h.1 hi) (by simpa using hfloor))) _
  | vibSetblock n =>
    have hle : n ≤ 2147483647 := (of_decide_eq_true hwf).2
    exact leaves_guardUse h fun hi => leaves_check h fun hn =>
      leaves_commit (unitInv_of_init hi (vibLive_setBlock (h.1 hi) ⟨not_le.mp hn, hle⟩)) _
  | vibGetdelay => exact leaves_query _ h _ _
  | vibGetfreq => exact leaves_query _ h _ _
  | vibGetblock => exact leaves_query _ h _ _
  | vibProcess n =>
    simp only [exec, execVibProcess, numerics_exact hnum]
    refine leaves_guardUse h fun hi => leaves_frames h (fun _ _ => unitInv_of_init ?_
      (vibLive_frames (vibLive_warm (h.1 hi)) (vibWarm_warmedUp s.core) _)) _
    rwa [vibFrames_init, vibWarm_init]
  | _ =>
    intro t ht
    obtain ⟨-, -, -, hvib, -⟩ := onlyItsOwnUnit _ s t ht
    rwa [hvib (by simp [unitOf])]

/-- Settles O58, command by command; that the command was decoded bounds the block size. -/
theorem stepKeepsVibrato : Obligations.StepKeepsVibrato := by
  unfold Obligations.StepKeepsVibrato
  intro s t hnum hvalid hinv h
  obtain ⟨hp, hkept⟩ := step_keeps (P := fun c => VibInv s.params c.vib) (vibInv_reset s.params) hinv
    (fun i rest hwf => exec_keeps_vib (s := s.consumed rest) hnum hvalid hwf hinv) h
  exact hp ▸ hkept

/-! ### The block memories (R34) -/

section blocks
variable {s : State}

theorem cfInitCommand_keeps_channels (ftype : FilterType) (d fs : NUM) (n : Int)
    (h : s.core.cf.init = true → s.core.cf.C ≤ s.params.maxCh) :
    Leaves (fun c => c.cf.init = true → c.cf.C ≤ s.params.maxCh) (cfInitCommand ftype d fs n s) := by
  refine leaves_guardInit h fun _ => leaves_check h fun hn => leaves_check h fun _ => leaves_check h fun _ =>
    leaves_commit (fun _ => ?_) _
  show n.toNat ≤ s.params.maxCh
  omega

/-- CF has no more channels than the block memories, whatever the numeric domain. -/
theorem exec_keeps_cf_channels (i : Instr) (h : s.core.cf.init = true → s.core.cf.C ≤ s.params.maxCh) :
    Leaves (fun c => c.cf.init = true → c.cf.C ≤ s.params.maxCh) (exec i s) := by
  cases i with
  | cfInitFir d fs n => exact cfInitCommand_keeps_channels .fir d fs n h
  | cfInitIir d fs n => exact cfInitCommand_keeps_channels .iir d fs n h
  | cfReset => exact leaves_guardUse h fun _ => leaves_commit (fun hi => absurd hi (by simp [CFState.reset])) _
  | cfSetgain g => exact leaves_guardUse h fun hi => leaves_commit (fun _ => h hi) _
  | cfSetdelay d =>
    exact leaves_guardUse h fun hi => leaves_check h fun _ => leaves_check h fun _ => leaves_commit (fun _ => h hi) _
  | cfGetgain => exact leaves_query _ h _ _
  | cfGetdelay => exact leaves_query _ h _ _
  | cfProcess n =>
    refine leaves_guardUse h fun hi => leaves_frames h (fun _ _ _ => ?_) _
    rw [cfFrames_C]
    exact h hi
  | _ =>
    intro t ht
    obtain ⟨-, -, hcf, -⟩ := onlyItsOwnUnit _ s t ht
    rwa [hcf (by simp [unitOf])]

/-- VIB has no more channels than the block memories, whatever the numeric domain. -/
theorem exec_keeps_vib_channels (i : Instr) (h : s.core.vib.init = true → s.core.vib.C ≤ s.params.maxCh) :
    Leaves (fun c => c.vib.init = true → c.vib.C ≤ s.params.maxCh) (exec i s) := by
  cases i with
  | vibInit d fs n =>
    refine leaves_guardInit h fun _ => leaves_check h fun _ => leaves_check h fun hC => leaves_check h fun _ =>
      leaves_check h fun _ => leaves_check h fun _ => leaves_check h fun _ => leaves_commit (fun _ => ?_) _
    show n.toNat ≤ s.params.maxCh
    omega
  | vibReset => exact leaves_guardUse h fun _ => leaves_commit (fun hi => absurd hi (by simp [VIBState.reset])) _
  | vibSetdelay d => exact leaves_guardUse h fun hi => leaves_check h fun _ => leaves_commit (fun _ => h hi) _
  | vibSetfreq hz => exact leaves_guardUse h fun hi => leaves_check h fun _ => leaves_commit (fun _ => h hi) _
  | vibSetblock n => exact leaves_guardUse h fun hi => leaves_check h fun _ => leaves_commit (fun _ => h hi) _
  | vibGetdelay => exact leaves_query _ h _ _
  | vibGetfreq => exact leaves_query _ h _ _
  | vibGetblock => exact leaves_query _ h _ _
  | vibProcess n =>
    refine leaves_guardUse h fun hi => leaves_frames h (fun _ _ _ => ?_) _
    rw [vibFrames_C, vibWarm_C]
    exact h hi
  | _ =>
    intro t ht
    obtain ⟨-, -, -, hvib, -⟩ := onlyItsOwnUnit _ s t ht
    rwa [hvib (by simp [unitOf])]

theorem blockInv_write {p : Params} {m : Memory} (h : BlockInv p m) {ch n : Nat} (hch : ch < p.maxCh) (hn : n < p.blkMax)
    (x : NUM) : BlockInv p (Memory.write m (ch, n) x) :=
  ⟨wf_write m _ x h.1, within_write m _ _ _ x h.2 ⟨hch, hn⟩⟩

/-- `IN` is written by `IO.WRIN` alone, which checks the index (R202). -/
theorem exec_keeps_inMem (i : Instr) (h : BlockInv s.params s.core.inMem) :
    Leaves (fun c => BlockInv s.params c.inMem) (exec i s) := by
  cases i with
  | ioWrin ch n x =>
    simp only [exec, execIoWrin]
    split
    · obtain ⟨hch, hn⟩ := (ioInRange_iff ch n s).mp ‹_›
      exact leaves_commit (blockInv_write h hch hn x) _
    · exact leaves_raise h _
  | _ =>
    intro t ht
    obtain ⟨-, -, -, -, hin, -⟩ := onlyItsOwnUnit _ s t ht
    rwa [hin rfl]

/-- `OUT` is written by the two `PROCESS` commands alone, on the channels of their unit and the frames they check (R157,
R180). -/
theorem exec_keeps_outMem (i : Instr) (hcf : s.core.cf.init = true → s.core.cf.C ≤ s.params.maxCh)
    (hvib : s.core.vib.init = true → s.core.vib.C ≤ s.params.maxCh) (h : BlockInv s.params s.core.outMem) :
    Leaves (fun c => BlockInv s.params c.outMem) (exec i s) := by
  cases i with
  | cfProcess n =>
    exact leaves_guardUse h fun hi => leaves_frames h (fun _ _ => blockInv_cfFrames (hcf hi) h (by omega)) _
  | vibProcess n =>
    refine leaves_guardUse h fun hi => leaves_frames h (fun _ _ => ?_) _
    have hframes : vibHandled s.core.vib.blockSize n ≤ s.params.blkMax := by
      unfold vibHandled
      omega
    exact blockInv_vibFrames (by rw [vibWarm_C]; exact hvib hi) (by rw [vibWarm_eq]; exact h) hframes
  | _ =>
    intro t ht
    obtain ⟨-, -, -, -, -, hout, -⟩ := onlyItsOwnUnit _ s t ht
    rwa [hout rfl]

theorem blocksInv_reset (p : Params) : BlocksInv p CoreState.reset :=
  ⟨fun hi => absurd hi (by decide), fun hi => absurd hi (by decide), ⟨rfl, rfl⟩, ⟨rfl, rfl⟩⟩

theorem exec_keeps_blocks (i : Instr) (h : BlocksInv s.params s.core) : Leaves (BlocksInv s.params) (exec i s) := by
  obtain ⟨hcf, hvib, hin, hout⟩ := h
  intro t ht
  exact ⟨exec_keeps_cf_channels i hcf t ht, exec_keeps_vib_channels i hvib t ht, exec_keeps_inMem i hin t ht,
    exec_keeps_outMem i hcf hvib hout t ht⟩

end blocks

/-- Settles O59, from the two channel counts and the two memories. -/
theorem stepKeepsBlockMemories : Obligations.StepKeepsBlockMemories := by
  unfold Obligations.StepKeepsBlockMemories
  intro s t hinv h
  obtain ⟨hp, hkept⟩ := step_keeps (blocksInv_reset s.params) hinv
    (fun i rest _ => exec_keeps_blocks (s := s.consumed rest) i hinv) h
  exact hp ▸ hkept

end Sys2Proof.Machine

/-!
PROOFS. The statements of `20_memory.md`: what a memory reads (R63, R69, R71), its canonical form (log 5), the order of
the channels inside a frame (R72), and the lookbacks of a ring that values were put into (R65).
-/

namespace Sys2Proof.Machine

/-! ### Memories (R63, R69, R71) -/

/-- Settles O16. -/
theorem readSeesLatestWrite : Obligations.ReadSeesLatestWrite := by
  unfold Obligations.ReadSeesLatestWrite
  exact fun m a b v => ⟨read_write m a b v, read_nil b⟩

/-- Settles O17: a write erases the cell and places it again, and both keep the order of the cells; two ordered lists that
read alike have the same first cell, hence the same rest. -/
theorem memoryFormIsCanonical : Obligations.MemoryFormIsCanonical := by
  unfold Obligations.MemoryFormIsCanonical
  exact ⟨wf_write, fun _ _ => wf_ext⟩

/-! ### The order of the channels (R72)

What a frame's channels leave is said element by element in terms of which channels ran (`cfChannels_spec`,
`vibChannels_spec`), so two orders of the same channels read alike everywhere, and in canonical form they are the same
data. -/

section order
variable {ν : Numerics} {k : CoreState} {l l' : List Nat}

theorem cfChannels_perm (hp : l.Perm l') (hl : l.Nodup) (hout : Memory.wf k.outMem = true)
    (hdly : Memory.wf k.cf.dly = true) (n : Nat) : l.foldl (cfChannel ν n) k = l'.foldl (cfChannel ν n) k := by
  obtain ⟨out, dly, he, hro, hrd, hwo, hwd⟩ := cfChannels_spec (ν := ν) n l hl k
  obtain ⟨out', dly', he', hro', hrd', hwo', hwd'⟩ := cfChannels_spec (ν := ν) n l' (hp.nodup hl) k
  have eout : out = out' := wf_ext (hwo hout) (hwo' hout) fun a => by rw [hro, hro']; simp only [hp.mem_iff]
  have edly : dly = dly' := wf_ext (hwd hdly) (hwd' hdly) fun a => by rw [hrd, hrd']; simp only [hp.mem_iff]
  rw [he, he', eout, edly]

/-- Two lists of rings of one length that answer alike on every channel are equal. -/
theorem rings_ext {rb rb' : List RBState} (hlen : rb.length = rb'.length)
    (h : ∀ c, rb.getD c RBState.reset = rb'.getD c RBState.reset) : rb = rb' := by
  refine List.ext_getElem hlen fun c hc hc' => ?_
  rw [← List.getD_eq_getElem rb RBState.reset hc, h c, List.getD_eq_getElem]

theorem vibChannels_perm (hp : l.Perm l') (hl : l.Nodup) (hout : Memory.wf k.outMem = true) (n : Nat) (v : NUM) :
    l.foldl (vibChannel ν n v) k = l'.foldl (vibChannel ν n v) k := by
  obtain ⟨out, rb, he, hlen, hro, hrb, hwo⟩ := vibChannels_spec (ν := ν) n v l hl k
  obtain ⟨out', rb', he', hlen', hro', hrb', hwo'⟩ := vibChannels_spec (ν := ν) n v l' (hp.nodup hl) k
  have eout : out = out' := wf_ext (hwo hout) (hwo' hout) fun a => by rw [hro, hro']; simp only [hp.mem_iff]
  have erb : rb = rb' := rings_ext (hlen.trans hlen'.symm) fun c => by rw [hrb, hrb']; simp only [hp.mem_iff]
  rw [he, he', eout, erb]

end order

/-- Settles O18: `0 .. C - 1` has no channel twice, and so has no order of it. -/
theorem channelOrderDoesNotMatter : Obligations.ChannelOrderDoesNotMatter := by
  unfold Obligations.ChannelOrderDoesNotMatter
  intro ν k n order hout
  have hnodup : ∀ {C : Nat}, order.Perm (List.range C) → order.Nodup := fun hp => hp.nodup_iff.mpr List.nodup_range
  exact ⟨fun hp hdly => cfChannels_perm hp (hnodup hp) hout hdly n,
    fun hp v => vibChannels_perm hp (hnodup hp) hout n v⟩

/-! ### A run of puts (R65, R26) -/

theorem rbPuts_concat (b : RBState) (vs : List NUM) (v : NUM) :
    (vs ++ [v]).foldl rbPut b = rbPut (vs.foldl rbPut b) v := by simp

/-- Puts write the elements and move the write cursor, and nothing else. -/
theorem rbPuts_shape (b : RBState) (vs : List NUM) :
    vs.foldl rbPut b = { b with w := (vs.foldl rbPut b).w, buf := (vs.foldl rbPut b).buf } := by
  induction vs generalizing b with
  | nil => rfl
  | cons v vs ih => exact ih (rbPut b v)

@[simp] theorem rbPuts_N (b : RBState) (vs : List NUM) : (vs.foldl rbPut b).N = b.N := by rw [rbPuts_shape]

@[simp] theorem rbPuts_r (b : RBState) (vs : List NUM) : (vs.foldl rbPut b).r = b.r := by rw [rbPuts_shape]

/-- The write cursor goes round the ring by the number of puts. -/
theorem rbPuts_w {b : RBState} (hw : b.w < b.N) (vs : List NUM) :
    (vs.foldl rbPut b).w = (b.w + vs.length) % b.N := by
  induction vs using List.reverseRecOn with
  | nil => exact (Nat.mod_eq_of_lt hw).symm
  | append_singleton vs v ih =>
    rw [rbPuts_concat, rbPut_w, rbPuts_N, ih, ← Nat.cast_add_one, imod_natCast, List.length_append, List.length_singleton,
      Nat.mod_add_mod, Nat.add_assoc]

/-- Lookback `j` after the puts `vs`: the `j`-th newest of them, or what was there before when there are fewer. -/
theorem rbLookback_puts {b : RBState} (hw : b.w < b.N) (vs : List NUM) {j : Nat} (hj : j < b.N) :
    rbLookback (vs.foldl rbPut b) j = vs.reverse.getD j (rbLookback b (j - vs.length)) := by
  induction vs using List.reverseRecOn generalizing j with
  | nil => simp
  | append_singleton vs v ih =>
    have hw' : (vs.foldl rbPut b).w < (vs.foldl rbPut b).N := by
      rw [rbPuts_w hw, rbPuts_N]
      exact Nat.mod_lt _ (by omega)
    rw [rbPuts_concat, rbLookback_put _ _ _ hw' (by omega) (by rw [rbPuts_N]; omega), List.reverse_concat']
    cases j with
    | zero => rfl
    | succ i =>
      have hpos : ((i + 1 : Nat) : Int) ≠ 0 := by omega
      rw [if_neg hpos, List.getD_cons_succ, show ((i + 1 : Nat) : Int) - 1 = i by omega, ih (by omega),
        List.length_append, List.length_singleton,
        show ((i + 1 : Nat) : Int) - ((vs.length + 1 : Nat) : Int) = i - vs.length by omega]

theorem exec_rbPut_of_init {s : State} (h : s.core.rb0.init = true) (v : NUM) :
    exec (.rbPut v) s = .next (s.done { s.core with rb0 := rbPut s.core.rb0 v } .absent) :=
  guardUse_of_init (u := .rb0) h _

theorem exec_rbInit_of_fits {s : State} {n : Int} (h : s.core.rb0.init = false) (hn : 1 ≤ n)
    (hfits : Exceeds s.params.rbMaxN n = false) :
    exec (.rbInit n) s = .next (s.done { s.core with rb0 := rbCreate n.toNat } .absent) := by
  have hok : ¬ (n < 1 ∨ fits s.params.rbMaxN n = false) := by
    rw [fits_eq_not_exceeds, hfits]
    simp only [Bool.not_false, Bool.true_eq_false, or_false]
    omega
  exact (guardInit_of_not_init (u := .rb0) h _).trans (if_neg hok)

/-- A program's first command, when it answers, leaves the rest of the program to run. -/
theorem runProgram_cons {i : Instr} {s t : State} (h : exec i s = .next t) (program : List Instr) :
    runProgram (i :: program) s = runProgram program t := by
  simp only [runProgram, h]

/-- Puts into an initialised RB0 complete, and fold `rbPut` over it. -/
theorem runProgram_rbPuts (vs : List NUM) {s : State} (h : s.core.rb0.init = true) :
    ∃ t, runProgram (vs.map .rbPut) s = .next t ∧ t.core = { s.core with rb0 := vs.foldl rbPut s.core.rb0 } := by
  induction vs generalizing s with
  | nil => exact ⟨s, rfl, rfl⟩
  | cons v vs ih =>
    obtain ⟨t, hrun, hcore⟩ := ih (s := s.done { s.core with rb0 := rbPut s.core.rb0 v } .absent) h
    exact ⟨t, (runProgram_cons (exec_rbPut_of_init h v) _).trans hrun, hcore⟩

/-- Settles O33: the program ends in `rbPut` folded over a created ring, of which every lookback was 0. -/
theorem lookbacksAreThePuts : Obligations.LookbacksAreThePuts := by
  unfold Obligations.LookbacksAreThePuts
  intro n vs s hcold hn hfits
  obtain ⟨t, hrun, hcore⟩ :=
    runProgram_rbPuts vs (s := s.done { s.core with rb0 := rbCreate n.toNat } .absent) rfl
  have hrb : t.core.rb0 = vs.foldl rbPut (rbCreate n.toNat) := congrArg CoreState.rb0 hcore
  have hw : (rbCreate n.toNat).w < (rbCreate n.toNat).N := show 0 < n.toNat by omega
  have hN : (t.core.rb0.N : Int) = n := by
    rw [hrb, rbPuts_N]
    exact Int.toNat_of_nonneg (by omega)
  refine ⟨t, (runProgram_cons (exec_rbInit_of_fits hcold hn hfits) _).trans hrun, ?_, hN, ?_, ?_, ?_, ?_⟩
  · rw [hcore]; rfl
  · rw [hrb, rbPuts_r]; rfl
  · rw [hrb, rbPuts_w hw, rbPuts_N]
    exact congrArg (· % n.toNat) (Nat.zero_add _)
  · intro j hj
    rw [hrb, rbLookback_puts hw vs (show j < n.toNat by omega), rbLookback_create]
  · intro k
    rw [← hN, rbLookback_add_capacity]

end Sys2Proof.Machine

/-!
PROOFS. The statements of `30_encoding.md`: that decoder and encoder agree (R80 to R91), which headers are reserved (R88),
and what a step does with a whole, a reserved and a cut packet (R80, R81). The encoder is compared with the decoder once
per form (`FormEncodes`) and once per row of the header table (`headerTable_encodes`).
-/

namespace Sys2Proof.Machine

/-! ### Header words and their fields (R82, R91) -/

@[simp] theorem hdrUnit_header (unit op : BitVec 4) (sel : BitVec 8) (idx : BitVec 16) :
    hdrUnit (header unit op sel idx) = unit := by
  apply BitVec.eq_of_toNat_eq
  have h0 := unit.isLt
  have h1 := op.isLt
  have h2 := sel.isLt
  have h3 := idx.isLt
  simp only [hdrUnit, BitVec.extractLsb'_toNat, toNat_header, Nat.shiftRight_eq_div_pow]
  omega

@[simp] theorem hdrOp_header (unit op : BitVec 4) (sel : BitVec 8) (idx : BitVec 16) :
    hdrOp (header unit op sel idx) = op := by
  apply BitVec.eq_of_toNat_eq
  have h1 := op.isLt
  have h2 := sel.isLt
  have h3 := idx.isLt
  simp only [hdrOp, BitVec.extractLsb'_toNat, toNat_header, Nat.shiftRight_eq_div_pow]
  omega

/-- Bits 31:24 are `unit` and `op` (R91). -/
theorem eq_header_of_unitOp {h : Word} {unit op : BitVec 4} (hx : h.extractLsb' 24 8 = unit ++ op) :
    h = header unit op (hdrSel h) (hdrIdx h) := by
  have hn := congrArg BitVec.toNat hx
  have h1 := op.isLt
  have hh := h.isLt
  apply BitVec.eq_of_toNat_eq
  rw [BitVec.toNat_append, ← Nat.shiftLeft_add_eq_or_of_lt h1] at hn
  simp only [toNat_header, hdrSel, hdrIdx, BitVec.extractLsb'_toNat, Nat.shiftRight_eq_div_pow, Nat.shiftLeft_eq] at hn ⊢
  omega

/-- A header that is not reserved is one of the two IO patterns or a row of the table. -/
theorem decodeHeader_cases {h : Word} {f : Form} (hd : decodeHeader h = some f) :
    (∃ sel idx, h = header 5 0 sel idx ∧ f = .num (.ioWrin sel.toNat idx.toNat)) ∨
    (∃ sel idx, h = header 5 1 sel idx ∧ f = .none (.ioRdout sel.toNat idx.toNat)) ∨ (h, f) ∈ headerTable := by
  unfold decodeHeader at hd
  split at hd
  · next hx => exact .inl ⟨_, _, eq_header_of_unitOp hx, (Option.some.inj hd).symm⟩
  · split at hd
    · next hx => exact .inr (.inl ⟨_, _, eq_header_of_unitOp hx, (Option.some.inj hd).symm⟩)
    · obtain ⟨front, back, htable, -⟩ := List.lookup_eq_some_iff.mp hd
      exact .inr (.inr (by simp [htable]))

/-! ### The encoder against the forms of the decoder (R86) -/

/-- Whatever its operands, the command of the form is encoded as the header `h` and those operands. -/
def FormEncodes (h : Word) : Form → Prop
  | .none i => encode i = [.word h]
  | .int k => ∀ n, encode (k n) = [.word h, intSlot n]
  | .num k => ∀ x, encode (k x) = [.word h, .num x]
  | .numNum k => ∀ x y, encode (k x y) = [.word h, .num x, .num y]
  | .numNumInt k => ∀ x y n, encode (k x y n) = [.word h, .num x, .num y, intSlot n]

/-- The full words of R86 are those the codes of R83 and R87 make. -/
theorem headerTable_encodes : ∀ e ∈ headerTable, FormEncodes e.1 e.2 := by
  simp [headerTable, FormEncodes, encode, headSlot, header]

theorem decodeHeader_encodes {h : Word} {f : Form} (hd : decodeHeader h = some f) : FormEncodes h f := by
  obtain ⟨sel, idx, rfl, rfl⟩ | ⟨sel, idx, rfl, rfl⟩ | hmem := decodeHeader_cases hd
  · intro x
    simp [encode]
  · simp [FormEncodes, encode]
  · exact headerTable_encodes (h, f) hmem

/-- A slot as the encoder writes the operand that a position of the given kind reads from it. -/
def rewritten : OperandKind → Slot → Slot
  | .int, a => intSlot a.asInt
  | .num, a => .num a.asNum

/-- A slot of the kind that is due is written back as it was (R84). -/
theorem rewritten_slotKind (a : Slot) : rewritten (slotKind a) a = a := by
  cases a with
  | word w => simp [slotKind, rewritten, intSlot, Slot.asInt]
  | num v => rfl

/-- The command read from the front of the slots is encoded as its header and the operands read. -/
theorem fill_encode {h : Word} {f : Form} (hf : FormEncodes h f) {slots rest : List Slot} {i : Instr}
    (hfill : f.fill slots = some (i, rest)) : ∃ front, slots = front ++ rest ∧ front.length = f.kinds.length ∧
      encode i = .word h :: List.zipWith rewritten f.kinds front := by
  cases f with
  | none j =>
    obtain ⟨rfl, rfl⟩ := Prod.mk.inj (Option.some.inj hfill)
    exact ⟨[], rfl, rfl, hf⟩
  | int k =>
    match slots, hfill with
    | a :: _, hfill =>
      obtain ⟨rfl, rfl⟩ := Prod.mk.inj (Option.some.inj hfill)
      exact ⟨[a], rfl, rfl, hf _⟩
  | num k =>
    match slots, hfill with
    | a :: _, hfill =>
      obtain ⟨rfl, rfl⟩ := Prod.mk.inj (Option.some.inj hfill)
      exact ⟨[a], rfl, rfl, hf _⟩
  | numNum k =>
    match slots, hfill with
    | a :: b :: _, hfill =>
      obtain ⟨rfl, rfl⟩ := Prod.mk.inj (Option.some.inj hfill)
      exact ⟨[a, b], rfl, rfl, hf _ _⟩
  | numNumInt k =>
    match slots, hfill with
    | a :: b :: c :: _, hfill =>
      obtain ⟨rfl, rfl⟩ := Prod.mk.inj (Option.some.inj hfill)
      exact ⟨[a, b, c], rfl, rfl, hf _ _ _⟩

/-- What stood at the front of the channel when a command was decoded (R81, R91). -/
theorem decode_command {slots rest : List Slot} {i : Instr} (h : decode slots = .command i rest) :
    ∃ a f tail, slots = a :: tail ∧ decodeHeader a.asWord = some f ∧ f.fill tail = some (i, rest) := by
  cases slots with
  | nil => simp [decode] at h
  | cons a tail =>
    simp only [decode] at h
    cases hd : decodeHeader a.asWord with
    | none => simp [hd] at h
    | some f =>
      cases hf : f.fill tail with
      | none => simp [hd, hf] at h
      | some p =>
        simp only [hd, hf, Decoded.command.injEq] at h
        obtain ⟨rfl, rfl⟩ := h
        exact ⟨a, f, tail, rfl, hd, hf⟩

/-! ### Decoding an encoded command, form by form -/

section packets
variable {h : Word} (rest : List Slot)

theorem decode_packet_none {i : Instr} (hd : decodeHeader h = some (.none i)) :
    decode ([.word h] ++ rest) = .command i rest := decode_of_fill hd rfl

theorem decode_packet_int {k : Int → Instr} (hd : decodeHeader h = some (.int k)) {n : Int} (hn : fitsInt32 n = true) :
    decode ([.word h, intSlot n] ++ rest) = .command (k n) rest :=
  decode_of_fill hd (by simp [Form.fill, asInt_intSlot hn])

theorem decode_packet_num {k : NUM → Instr} (hd : decodeHeader h = some (.num k)) (x : NUM) :
    decode ([.word h, .num x] ++ rest) = .command (k x) rest := decode_of_fill hd rfl

theorem decode_packet_numNum {k : NUM → NUM → Instr} (hd : decodeHeader h = some (.numNum k)) (x y : NUM) :
    decode ([.word h, .num x, .num y] ++ rest) = .command (k x y) rest := decode_of_fill hd rfl

theorem decode_packet_numNumInt {k : NUM → NUM → Int → Instr} (hd : decodeHeader h = some (.numNumInt k)) (x y : NUM)
    {n : Int} (hn : fitsInt32 n = true) :
    decode ([.word h, .num x, .num y, intSlot n] ++ rest) = .command (k x y n) rest :=
  decode_of_fill hd (by simp [Form.fill, asInt_intSlot hn])

end packets

/-- A channel and a frame index survive their header fields (R82). -/
theorem toNat_ofNat_of_fits {ch n : Nat} (h : fitsChannelFrame ch n = true) :
    (BitVec.ofNat 8 ch).toNat = ch ∧ (BitVec.ofNat 16 n).toNat = n := by
  obtain ⟨hch, hn⟩ := of_decide_eq_true h
  exact ⟨Nat.mod_eq_of_lt hch, Nat.mod_eq_of_lt hn⟩

/-- Settles O1, command by command, grouped by form; a well-formed operand survives its slot or its header field. -/
theorem decodeEncodeAgree : Obligations.DecodeEncodeAgree := by
  unfold Obligations.DecodeEncodeAgree
  intro i rest hwf
  cases i with
  | sysNop | rbReset | rbGetpi | rbGetwidx | lfoResetKeep | lfoResetFree | lfoGetamp | lfoGetfreq | lfoGetvalue
  | lfoResetpos | cfReset | cfGetgain | cfGetdelay | vibReset | vibGetdelay | vibGetfreq | vibGetblock =>
    exact decode_packet_none rest rfl
  | rbInit n | cfProcess n | vibSetblock n | vibProcess n => exact decode_packet_int rest rfl hwf
  | rbPut x | rbGet x | lfoSetamp x | lfoSetfreq x | cfSetgain x | cfSetdelay x | vibSetdelay x | vibSetfreq x =>
    exact decode_packet_num rest rfl x
  | lfoInitSine x y | lfoInitSaw x y | lfoInitPulse x y => exact decode_packet_numNum rest rfl x y
  | cfInitFir x y n | cfInitIir x y n | vibInit x y n => exact decode_packet_numNumInt rest rfl x y hwf
  | ioWrin ch n x =>
    obtain ⟨hch, hn⟩ := toNat_ofNat_of_fits hwf
    have h := decode_packet_num rest (decodeHeader_wrin (BitVec.ofNat 8 ch) (BitVec.ofNat 16 n)) x
    rwa [hch, hn] at h
  | ioRdout ch n =>
    obtain ⟨hch, hn⟩ := toNat_ofNat_of_fits hwf
    have h := decode_packet_none rest (decodeHeader_rdout (BitVec.ofNat 8 ch) (BitVec.ofNat 16 n))
    rwa [hch, hn] at h

/-! ### Encoding a decoded command -/

theorem zipWith_rewritten_slotKind (ops : List Slot) : List.zipWith rewritten (ops.map slotKind) ops = ops := by
  rw [List.zipWith_map_left, List.zipWith_self]
  simp [rewritten_slotKind]

/-- Settles O2: the slots are enough for the form, which takes exactly the operands, and each of them is of the kind that
is due, so that the encoder writes it back as it was. -/
theorem encodeDecodeAgree : Obligations.EncodeDecodeAgree := by
  unfold Obligations.EncodeDecodeAgree
  intro h f ops rest hd hkinds
  have hlen : ops.length = f.kinds.length := by rw [← hkinds, List.length_map]
  obtain ⟨⟨i, rest'⟩, hfill⟩ : ∃ p, f.fill (ops ++ rest) = some p := by
    rw [← Option.ne_none_iff_exists', Ne, fill_none_iff, List.length_append]
    omega
  obtain ⟨front, hslots, hfront, henc⟩ := fill_encode (decodeHeader_encodes hd) hfill
  obtain ⟨rfl, rfl⟩ := List.append_inj hslots (hlen.trans hfront.symm)
  refine ⟨i, decode_of_fill hd hfill, ?_⟩
  rw [henc, ← hkinds, zipWith_rewritten_slotKind]

/-- R90 counts the operand slots that the encoder writes. -/
theorem encode_length (i : Instr) : (encode i).length = 1 + slotCount i := by
  cases i <;> rfl

/-- Settles O3: the command's own packet has one header and an operand for each slot that was taken. -/
theorem decodedCommandsAreWellFormed : Obligations.DecodedCommandsAreWellFormed := by
  unfold Obligations.DecodedCommandsAreWellFormed
  intro slots rest i h
  obtain ⟨a, f, tail, rfl, hd, hfill⟩ := decode_command h
  obtain ⟨front, rfl, hfront, henc⟩ := fill_encode (decodeHeader_encodes hd) hfill
  refine ⟨decode_wellFormed h, a :: front, rfl, ?_⟩
  rw [← encode_length, henc, List.length_cons, List.length_cons, List.length_zipWith, ← hfront, Nat.min_self]

/-! ### Reserved headers (R88) -/

theorem headerTable_legal : ∀ e ∈ headerTable,
    legalFields (hdrUnit e.1).toNat (hdrOp e.1).toNat (hdrSel e.1).toNat (hdrIdx e.1).toNat := by
  simp [headerTable, legalFields, hdrUnit, hdrOp, hdrSel, hdrIdx]

/-- The fields of a decoded header are listed. -/
theorem legalFields_of_decodeHeader {h : Word} {f : Form} (hd : decodeHeader h = some f) :
    legalFields (hdrUnit h).toNat (hdrOp h).toNat (hdrSel h).toNat (hdrIdx h).toNat := by
  obtain ⟨sel, idx, rfl, -⟩ | ⟨sel, idx, rfl, -⟩ | hmem := decodeHeader_cases hd
  · simp [legalFields]
  · simp [legalFields]
  · exact headerTable_legal (h, f) hmem

/-- Every combination of codes that R83 and R87 list is decoded. -/
theorem decodeHeader_of_legalFields {unit op sel idx : Nat} (hl : legalFields unit op sel idx) :
    (decodeHeader (header (BitVec.ofNat 4 unit) (BitVec.ofNat 4 op) (BitVec.ofNat 8 sel) (BitVec.ofNat 16 idx))).isSome =
      true := by
  obtain ⟨rfl, ho⟩ | ⟨rfl, hl⟩ := hl
  · interval_cases op
    · exact congrArg Option.isSome (decodeHeader_wrin _ _)
    · exact congrArg Option.isSome (decodeHeader_rdout _ _)
  rcases hl with ⟨rfl, rfl, rfl⟩ | ⟨rfl, ho, rfl⟩ | ⟨rfl, rfl, hs⟩ | ⟨rfl, ho1, ho3, hs⟩ | ⟨rfl, ho4, ho5, rfl⟩ |
    ⟨rfl, rfl, hs⟩ | ⟨rfl, rfl, rfl⟩ | ⟨rfl, ho2, ho3, hs⟩ | ⟨rfl, rfl, rfl⟩ | ⟨rfl, ho, rfl⟩ | ⟨rfl, ho2, ho3, hs⟩ |
    ⟨rfl, rfl, rfl⟩
  · rfl
  · interval_cases op <;> rfl
  · interval_cases sel <;> rfl
  · interval_cases op <;> interval_cases sel <;> rfl
  · interval_cases op <;> rfl
  · interval_cases sel <;> rfl
  · rfl
  · interval_cases op <;> interval_cases sel <;> rfl
  · rfl
  · interval_cases op <;> rfl
  · interval_cases op <;> interval_cases sel <;> rfl
  · rfl

theorem decodeHeader_isSome_iff (h : Word) : (decodeHeader h).isSome = true ↔
    legalFields (hdrUnit h).toNat (hdrOp h).toNat (hdrSel h).toNat (hdrIdx h).toNat := by
  constructor
  · intro hs
    obtain ⟨f, hf⟩ := Option.isSome_iff_exists.mp hs
    exact legalFields_of_decodeHeader hf
  · intro hl
    simpa [header_fields] using decodeHeader_of_legalFields hl

/-- A reserved header takes no operand slot. -/
theorem decode_of_reserved {h : Word} (rest : List Slot) (hd : decodeHeader h = none) :
    decode (.word h :: rest) = .reserved h rest := by
  simp [decode_word, hd]

/-! ### What a step does with the pending slots (R80, R81, R88) -/

section step
variable {s : State} (hrst : s.rst = false)
include hrst

theorem step_of_command {i : Instr} {rest : List Slot} (hd : decode s.pending = .command i rest) :
    step s = exec i (s.consumed rest) := by
  unfold step
  rw [if_neg (by simp [hrst]), hd]

theorem step_of_reserved {h : Word} {rest : List Slot} (hd : decode s.pending = .reserved h rest) :
    step s = .next ((s.consumed rest).failed .illegalCall) := by
  unfold step
  rw [if_neg (by simp [hrst]), hd]
  rfl

theorem step_of_incomplete (hd : decode s.pending = .incomplete) : step s = .next (waitForSlots s) := by
  unfold step
  rw [if_neg (by simp [hrst]), hd]

/-- With `rst` released it makes no difference which of the pending slots have been received and which are on the channel
(log 6). -/
theorem step_congr_pending {rx cmd : List Slot} (hp : rx ++ cmd = s.pending) :
    step { s with rx := rx, cmd := cmd } = step s := by
  have hpending : State.pending { s with rx := rx, cmd := cmd } = s.pending := hp
  unfold step waitForSlots
  rw [if_neg (by simp [hrst]), if_neg (by simp [hrst]), hpending]
  rfl

end step

/-- Settles O4: the header table has a row for each combination of codes that is listed, and for no other. -/
theorem reservedHeaders : Obligations.ReservedHeaders := by
  unfold Obligations.ReservedHeaders
  refine ⟨fun h => ?_, fun s h rest hrst hp hd => ?_⟩
  · rw [← decodeHeader_isSome_iff, Option.not_isSome_iff_eq_none]
  · exact step_of_reserved hrst (hp ▸ decode_of_reserved rest hd)

/-- Settles O5, by running the decoder. -/
theorem decodeSampleWords : Obligations.DecodeSampleWords := by
  unfold Obligations.DecodeSampleWords
  exact ⟨rfl, rfl, rfl, rfl, rfl, rfl, rfl, rfl⟩

/-- Settles O6. -/
theorem stepRunsDecodedCommand : Obligations.StepRunsDecodedCommand := by
  unfold Obligations.StepRunsDecodedCommand
  exact fun _ _ _ hrst hd => step_of_command hrst hd

theorem waitForSlots_of_idle {s : State} (hrx : s.rx = []) (hcmd : s.cmd = []) : waitForSlots s = s := by
  cases s
  simp_all [waitForSlots, State.pending]

/-- Settles O7: the wait only moves slots from the channel to the part received. -/
theorem cutPacketWaits : Obligations.CutPacketWaits := by
  unfold Obligations.CutPacketWaits
  refine ⟨fun s hrst hrx hcmd => ?_, fun s hrst hd => ?_⟩
  · have hd : decode s.pending = .incomplete := by rw [State.pending, hrx, hcmd]; rfl
    rw [step_of_incomplete hrst hd, waitForSlots_of_idle hrx hcmd]
  · refine ⟨waitForSlots s, step_of_incomplete hrst hd, rfl, rfl, waitForSlots_pending s, fun more => ?_⟩
    exact step_congr_pending (s := s.send more) hrst (by simp)

end Sys2Proof.Machine

/-!
PROOFS. The statements of `40_ringbuffer.md`: the commands of RB0 (R101 to R106), the properties of the interpolated read
(R107), and the `RESET` of each unit (R102, R124, R152, R173). What a command does on an initialised and on an uninitialised
unit is said by the laws of its guard (`guardUse_of_init`, `guardUse_of_not_init`); on a unit interval of offsets the
interpolated read is one weighted mean (`rbGet_of_mem_Icc`), and the properties of R107 (d) are those of the mean.
-/

namespace Sys2Proof.Machine

/-! ### Packets whose operand slot is of either kind (R84, R91) -/

section packets
variable {h : Word} (a : Slot) (rest : List Slot)

theorem decode_slot_int {k : Int → Instr} (hd : decodeHeader h = some (.int k)) :
    decode (.word h :: a :: rest) = .command (k a.asInt) rest := decode_of_fill hd rfl

theorem decode_slot_num {k : NUM → Instr} (hd : decodeHeader h = some (.num k)) :
    decode (.word h :: a :: rest) = .command (k a.asNum) rest := decode_of_fill hd rfl

end packets

/-! ### The interpolated read (R100, R107) -/

theorem lerp_one (a b : NUM) : lerp .exact 1 a b = b := by simp [lerp_exact]

/-- A weighted mean, as the way from its first end towards its second. -/
theorem lerp_eq_add_mul_sub (f a b : NUM) : lerp .exact f a b = a + f * (b - a) := by
  rw [lerp_exact]
  ring

/-- The farther neighbour's position, as R100 writes it. -/
theorem rbLookback_add_one (b : RBState) (k : Int) :
    rbLookback b (k + 1) = Memory.read b.buf (0, imod ((b.w : Int) - 2 - k) b.N) := by
  unfold rbLookback lookbackPos
  rw [show (b.w : Int) - 1 - (k + 1) = b.w - 2 - k by ring]

/-- From `k` to `k + 1`, both ends included, the read is one weighted mean of lookbacks `k` and `k + 1`: at `k + 1` the mean
has come to its second end, with which the next interval begins. -/
theorem rbGet_of_mem_Icc (b : RBState) {k : Int} {o : NUM} (hk : (k : NUM) ≤ o) (hk1 : o ≤ (k : NUM) + 1) :
    rbGet .exact b o = lerp .exact (o - k) (rbLookback b k) (rbLookback b (k + 1)) := by
  obtain hlt | rfl := lt_or_eq_of_le hk1
  · rw [rbGet_exact, (floorNum_eq_iff o k).mpr ⟨hk, hlt⟩]
  · rw [add_sub_cancel_left, lerp_one]
    exact_mod_cast rbGet_intCast b (k + 1)

theorem rbGet_put_zero {b : RBState} (hw : b.w < b.N) (v : NUM) : rbGet .exact (rbPut b v) 0 = v := by
  rw [← Int.cast_zero, rbGet_intCast, rbLookback_put b v 0 hw le_rfl (by omega), if_pos rfl]

/-- One round of the ring further back, the fraction and both neighbours are the same (R107 (e)). -/
theorem rbGet_add_capacity (b : RBState) (o : NUM) : rbGet .exact b (o + b.N) = rbGet .exact b o := by
  have hfloor : floorNum (o + b.N) = floorNum o + b.N := floorNum_add_intCast o b.N
  have hfrac : o + b.N - ((floorNum o + b.N : Int) : NUM) = o - floorNum o := by
    push_cast
    ring
  rw [rbGet_exact, rbGet_exact, hfloor, hfrac, add_right_comm, rbLookback_add_capacity, rbLookback_add_capacity]

/-- Settles O32, from the read being the mean of two lookbacks on each unit interval. -/
theorem rbGetProperties : Obligations.RbGetProperties := by
  unfold Obligations.RbGetProperties
  intro b _
  refine ⟨fun d o _ _ hnear hfar => ?_, rbGet_intCast b, rbGet_put_zero, fun k o hk hk1 => ?_, rbGet_add_capacity b⟩
  · exact congrArg₂ (lerp .exact (o - ⌊o⌋)) hnear hfar
  · have h0 : 0 ≤ o - k := sub_nonneg.mpr hk
    have h1 : o - k ≤ 1 := sub_le_iff_le_add'.mpr hk1
    rw [rbGet_of_mem_Icc b hk hk1]
    exact ⟨lerp_eq_add_mul_sub _ _ _, lerp_mem h0 h1⟩

/-! ### The commands of RB0 (R101 to R106) -/

theorem exec_rbInit_of_exceeds {s : State} {n : Int} (h : s.core.rb0.init = false)
    (hbad : n < 1 ∨ Exceeds s.params.rbMaxN n = true) :
    exec (.rbInit n) s = .next (s.failed .invalidArguments) := by
  have hraise : n < 1 ∨ fits s.params.rbMaxN n = false := by rwa [fits_eq_not_exceeds, Bool.not_eq_false']
  exact (guardInit_of_not_init (u := .rb0) h _).trans (if_pos hraise)

/-- Settles O28. -/
theorem rbInitCreates : Obligations.RbInitCreates := by
  unfold Obligations.RbInitCreates
  refine ⟨fun a rest => decode_slot_int a rest rfl, fun n s => ⟨fun hinit => ?_, ?_, ?_⟩⟩
  · exact guardInit_of_init (u := .rb0) hinit _
  · exact exec_rbInit_of_exceeds
  · exact exec_rbInit_of_fits

/-- Settles O29: the buffer after the put is `Memory.write` at the old `w`. -/
theorem rbPutWritesAtW : Obligations.RbPutWritesAtW := by
  unfold Obligations.RbPutWritesAtW
  refine ⟨fun a rest => decode_slot_num a rest rfl, fun x s => ⟨fun hcold => ?_, fun hinit => ?_⟩⟩
  · exact guardUse_of_not_init (u := .rb0) hcold _
  · exact ⟨_, exec_rbPut_of_init hinit x, fun a => read_write s.core.rb0.buf (0, s.core.rb0.w) a x⟩

/-- Settles O30. -/
theorem rbCursorReads : Obligations.RbCursorReads := by
  unfold Obligations.RbCursorReads
  refine ⟨fun rest => ⟨decode_packet_none rest rfl, decode_packet_none rest rfl⟩, fun s => ⟨?_, ?_, ?_, ?_⟩⟩
  · exact fun hcold => guardUse_of_not_init (u := .rb0) hcold _
  · exact fun hinit => guardUse_of_init (u := .rb0) hinit _
  · exact fun hcold => guardUse_of_not_init (u := .rb0) hcold _
  · exact fun hinit => guardUse_of_init (u := .rb0) hinit _

theorem exec_rbGet_of_init {s : State} (h : s.core.rb0.init = true) (o : NUM) :
    exec (.rbGet o) s = .next (s.done s.core (.num (rbGet s.params.numerics s.core.rb0 o))) :=
  guardUse_of_init (u := .rb0) h _

/-- Settles O31: the command answers `rb_get`, whose mean is written out here over the numerics of the parameter. -/
theorem rbGetInterpolates : Obligations.RbGetInterpolates := by
  unfold Obligations.RbGetInterpolates
  refine ⟨fun a rest => decode_slot_num a rest rfl, ?_⟩
  rintro o s _ rfl
  refine ⟨fun hcold => guardUse_of_not_init (u := .rb0) hcold _, ?_⟩
  rintro _ _ hinit rfl rfl
  rw [exec_rbGet_of_init hinit, rbGet_eq, rbLookback_add_one]
  rfl

/-! ### The `RESET` of each unit (R102, R124, R152, R173) -/

/-- Settles O25: `rb_destroy` and `lfo_reset` with release leave the reset state of their unit. -/
theorem unitResets : Obligations.UnitResets := by
  unfold Obligations.UnitResets
  refine ⟨fun rest => ?packets, fun s => ⟨?rb, ?rbCold, ?free, ?keep, ?freeCold, ?keepCold, ?cf, ?cfCold, ?vib,
    ?vibCold⟩⟩
  case packets => refine ⟨?_, ?_, ?_, ?_, ?_⟩ <;> exact decode_packet_none rest rfl
  case rb => exact fun hinit => guardUse_of_init (u := .rb0) hinit _
  case free | keep => exact fun hinit => guardUse_of_init (u := .lfo0) hinit _
  case cf => exact fun hinit => guardUse_of_init (u := .cf) hinit _
  case vib => exact fun hinit => guardUse_of_init (u := .vib) hinit _
  case rbCold => exact fun hcold => guardUse_of_not_init (u := .rb0) hcold _
  case freeCold | keepCold => exact fun hcold => guardUse_of_not_init (u := .lfo0) hcold _
  case cfCold => exact fun hcold => guardUse_of_not_init (u := .cf) hcold _
  case vibCold => exact fun hcold => guardUse_of_not_init (u := .vib) hcold _

end Sys2Proof.Machine

/-!
PROOFS. The statements of `41_lfo.md`: the commands of LFO0 (R123 to R130) and the properties of its values (R131), with the
parameter `GET`s of every unit (R35) and the commands that write one register (R130, R153, R176). A value read at a phase
of bin `i` is the mean of bins `i` and `i + 1` in every numeric domain (`lfoValue_of_floor`); a row of `LFO.GETVALUE` iterates
`lfoAdvance` (`runProgram_lfoGetvalues`).
-/

namespace Sys2Proof.Machine

theorem decode_slots_numNum {h : Word} {k : NUM → NUM → Instr} (hd : decodeHeader h = some (.numNum k)) (a b : Slot)
    (rest : List Slot) : decode (.word h :: a :: b :: rest) = .command (k a.asNum b.asNum) rest := decode_of_fill hd rfl

/-! ### The value at a phase (R122, R131) -/

/-- In every numeric domain: a phase in bin `i` of the table is read between that bin and the next. -/
theorem lfoValue_of_floor {ν : Numerics} {l : LFOState} {i : Nat} (hi : i < l.L) (hfloor : ν.floor l.phase = i) :
    lfoValue ν l = lerp ν (ν.sub l.phase (ν.ofInt i)) (Memory.read l.tab (0, i))
      (Memory.read l.tab (0, imod ((i : Int) + 1) l.L)) := by
  have hnext : imod ((i : Int) + 1) l.L < l.L := imod_lt _ (Nat.one_le_of_lt hi)
  simp only [lfoValue, hfloor, lfoBin_of_lt hi, lfoBin_of_lt hnext]

/-- R131 (b): no interpolation at an integer phase. -/
theorem lfoValue_of_phase_natCast {l : LFOState} {i : Nat} (hi : i < l.L) (hphase : l.phase = i) :
    lfoValue .exact l = Memory.read l.tab (0, i) := by
  have hfloor : Numerics.exact.floor l.phase = i := by rw [hphase, exact_floor, floorNum_natCast]
  rw [lfoValue_of_floor hi hfloor, hphase, exact_ofInt, Int.cast_natCast, exact_sub, sub_self, lerp_zero]

theorem lerp_half (a b : NUM) : lerp .exact (1 / 2) a b = (a + b) / 2 := by
  rw [lerp_exact]
  ring

/-- R131 (c): half way between the last bin and the first, which is the next after it (`20_memory.md` R67). -/
theorem lfoValue_half_across_wrap {l : LFOState} (h1 : 1 ≤ l.L) (hphase : l.phase = (l.L : NUM) - 1 / 2) :
    lfoValue .exact l = (Memory.read l.tab (0, l.L - 1) + Memory.read l.tab (0, 0)) / 2 := by
  have hlast : ((l.L - 1 : Nat) : NUM) = (l.L : NUM) - 1 := Nat.cast_pred h1
  have hfloor : Numerics.exact.floor l.phase = (l.L - 1 : Nat) := by
    rw [exact_floor, floorNum_eq_iff, Int.cast_natCast, hlast, hphase]
    constructor <;> linarith
  have hfrac : l.phase - ((l.L - 1 : Nat) : NUM) = 1 / 2 := by rw [hlast, hphase]; ring
  have hwrap : imod (((l.L - 1 : Nat) : Int) + 1) l.L = 0 := by
    rw [← Nat.cast_succ, imod_natCast, Nat.succ_eq_add_one, Nat.sub_add_cancel h1, Nat.mod_self]
  rw [lfoValue_of_floor (Nat.sub_one_lt_of_lt h1) hfloor, exact_ofInt, Int.cast_natCast, exact_sub, hfrac, hwrap, lerp_half]

/-- Settles O40: both ends of the mean are at most `|amp|` in magnitude, and across the wrap they are the last bin and the
first. -/
theorem lfoValueIsBounded : Obligations.LfoValueIsBounded := by
  unfold Obligations.LfoValueIsBounded
  intro bound l hlive
  have ⟨_, _, _, h1, _⟩ := hlive
  exact ⟨abs_lfoValue_le hlive, lfoValue_half_across_wrap h1⟩

/-! ### A row of `LFO.GETVALUE` (R129, R131) -/

theorem exec_lfoGetvalue_of_init {s : State} (h : s.core.lfo0.init = true) :
    exec .lfoGetvalue s = .next (s.done { s.core with lfo0 := lfoAdvance s.params.numerics s.core.lfo0 }
      (.num (lfoValue s.params.numerics s.core.lfo0))) := guardUse_of_init (u := .lfo0) h _

/-- In every numeric domain: `n` reads in a row advance LFO0 `n` times, the `k`-th answering the value after `k` advances. -/
theorem runProgram_lfoGetvalues (n : Nat) {s : State} (h : s.core.lfo0.init = true) :
    ∃ t, runProgram (List.replicate n .lfoGetvalue) s = .next t ∧
      t.rsp = s.rsp ++ (List.range n).map (fun k =>
        ⟨.ok, .num (lfoValue s.params.numerics ((lfoAdvance s.params.numerics)^[k] s.core.lfo0))⟩) ∧
      t.core = { s.core with lfo0 := (lfoAdvance s.params.numerics)^[n] s.core.lfo0 } := by
  induction n generalizing s with
  | zero => exact ⟨s, rfl, by simp, rfl⟩
  | succ n ih =>
    obtain ⟨t, hrun, hrsp, hcore⟩ := ih (s := s.done { s.core with lfo0 := lfoAdvance s.params.numerics s.core.lfo0 }
      (.num (lfoValue s.params.numerics s.core.lfo0))) h
    refine ⟨t, (runProgram_cons (exec_lfoGetvalue_of_init h) _).trans hrun, ?_, hcore⟩
    rw [hrsp, List.range_succ_eq_map]
    simp [Function.comp_def]

/-- Settles O39: `k` advances from phase 0 lead to phase `fmod(k * hop, L)`. -/
theorem lfoValueSequence : Obligations.LfoValueSequence := by
  unfold Obligations.LfoValueSequence
  intro n s hnum hinit hphase h1
  refine ⟨?row, fun i hi => lfoValue_of_phase_natCast hi rfl, fun hhop k => lfoValue_of_phase_natCast h1 ?still⟩
  case row =>
    obtain ⟨t, hrun, hrsp, hcore⟩ := runProgram_lfoGetvalues n hinit
    simp only [numerics_exact hnum, lfoAdvance_iterate_phase s.core.lfo0 h1 hphase] at hrsp hcore
    exact ⟨t, hrun, hrsp, hcore⟩
  case still => simp [hhop, fmod_exact]

/-! ### The parameter `GET`s (R35) -/

/-- A parameter `GET` answers the register of an initialised unit, or the neutral of its kind. -/
theorem query_eq {α : Type} (kind : α → Value) (u : UnitId) (neutral v : α) (s : State) :
    query u (kind neutral) (kind v) s = .next (s.done s.core (kind (if initFlag u s.core then v else neutral))) := by
  cases hu : initFlag u s.core
  · exact query_of_not_init hu _ _
  · exact query_of_init hu _ _

/-- Settles O26. -/
theorem parameterReads : Obligations.ParameterReads := by
  unfold Obligations.ParameterReads
  refine ⟨fun rest => ?packets, fun s => ⟨?amp, ?freq, ?gain, ?cfDelay, ?vibDelay, ?vibFreq, ?block⟩⟩
  case packets => refine ⟨?_, ?_, ?_, ?_, ?_, ?_, ?_⟩ <;> exact decode_packet_none rest rfl
  case amp | freq => exact query_eq .num .lfo0 0 _ s
  case gain | cfDelay => exact query_eq .num .cf 0 _ s
  case vibDelay | vibFreq => exact query_eq .num .vib 0 _ s
  case block => exact query_eq .int .vib 0 _ s

/-! ### The commands that write one register (R130, R153, R176) -/

/-- What `VIB.SETBLOCK` does once its unit is initialised: one test of its argument. -/
theorem exec_vibSetblock_of_init {s : State} (h : s.core.vib.init = true) (n : Int) :
    exec (.vibSetblock n) s = if n ≤ 0 then .next (s.failed .invalidArguments)
      else .next (s.done { s.core with vib := { s.core.vib with blockSize := n } } .absent) :=
  guardUse_of_init (u := .vib) h _

/-- Settles O27. -/
theorem oneRegisterWrites : Obligations.OneRegisterWrites := by
  unfold Obligations.OneRegisterWrites
  refine ⟨fun rest => decode_packet_none rest rfl, fun a rest => decode_slot_num a rest rfl,
    fun a rest => decode_slot_int a rest rfl,
    fun g n s => ⟨?posCold, ?pos, ?gainCold, ?gain, ?blockCold, fun hinit hn => ?blockBad, fun hinit hn => ?block⟩⟩
  case posCold => exact fun hcold => guardUse_of_not_init (u := .lfo0) hcold _
  case pos => exact fun hinit => guardUse_of_init (u := .lfo0) hinit _
  case gainCold => exact fun hcold => guardUse_of_not_init (u := .cf) hcold _
  case gain => exact fun hinit => guardUse_of_init (u := .cf) hinit _
  case blockCold => exact fun hcold => guardUse_of_not_init (u := .vib) hcold _
  case blockBad => rw [exec_vibSetblock_of_init hinit, if_pos hn]
  case block => rw [exec_vibSetblock_of_init hinit, if_neg (Int.not_le.mpr hn)]

/-! ### The commands of LFO0 (R123, R125, R126, R129) -/

theorem exec_lfoInitOf (w : Waveform) (fref fs : NUM) (s : State) :
    exec (lfoInitOf w fref fs) s = lfoInitCommand w fref fs s := by cases w <;> rfl

section init
variable {w : Waveform} {fref fs : NUM} {s : State} (hcold : s.core.lfo0.init = false)
include hcold

theorem lfoInitCommand_of_nonpos (hbad : s.params.numerics.le fref 0 = true ∨ s.params.numerics.le fs 0 = true) :
    lfoInitCommand w fref fs s = .next (s.failed .invalidArguments) :=
  (guardInit_of_not_init (u := .lfo0) hcold _).trans (if_pos hbad)

/-- Past the test of the signs, what is left is the test of the table's length. -/
theorem lfoInitCommand_of_pos (hfref : s.params.numerics.le fref 0 = false) (hfs : s.params.numerics.le fs 0 = false) :
    lfoInitCommand w fref fs s =
      if Exceeds s.params.lfoMaxL (s.params.numerics.ceil (s.params.numerics.div fs fref)) then
        .next (s.failed .invalidArguments)
      else .next (s.done { s.core with lfo0 := lfoInit s.params.numerics w fref fs } .absent) := by
  have hpos : ¬ (s.params.numerics.le fref 0 = true ∨ s.params.numerics.le fs 0 = true) := by simp [hfref, hfs]
  refine (guardInit_of_not_init (u := .lfo0) hcold _).trans ((if_neg hpos).trans ?_)
  simp only [fits_eq_not_exceeds, Bool.not_eq_false', raise_eq, commit_eq]

end init

/-- Settles O35: the three commands are one, and over exact arithmetic the quotient of two positive numbers has a positive
ceiling. -/
theorem lfoInitCreates : Obligations.LfoInitCreates := by
  unfold Obligations.LfoInitCreates
  refine ⟨fun a b rest => ?packets, ?_⟩
  case packets => refine ⟨?_, ?_, ?_⟩ <;> exact decode_slots_numNum rfl a b rest
  rintro w fref fs s _ _ rfl rfl
  rw [exec_lfoInitOf]
  refine ⟨fun hinit => guardInit_of_init (u := .lfo0) hinit _, fun hcold => lfoInitCommand_of_nonpos hcold,
    fun hcold hfref hfs hbad => ?tooLong, fun hcold hfref hfs hfits => ⟨fun hnum => ?length, ?created⟩⟩
  case tooLong => rw [lfoInitCommand_of_pos hcold hfref hfs, if_pos hbad]
  case length =>
    simp only [numerics_exact hnum, exact_le, decide_eq_false_iff_not, not_le] at hfref hfs
    rw [numerics_exact hnum]
    exact ceilNum_pos (div_pos hfs hfref)
  case created =>
    rw [lfoInitCommand_of_pos hcold hfref hfs, hfits]
    rfl

/-- Past the end of the table, and on any other channel, there is no element. -/
theorem read_lfoSetAmp_outside (ν : Numerics) (l : LFOState) (v : NUM) {a : Index} (ha : ¬ (a.1 = 0 ∧ a.2 < l.L)) :
    Memory.read (lfoSetAmp ν l v).tab a = 0 :=
  read_outside (within_tabulate l.L _) a (by rwa [Nat.lt_one_iff])

/-- Settles O36: the new table is that of `lfoSetAmp`. -/
theorem lfoSetampRebuildsTable : Obligations.LfoSetampRebuildsTable := by
  unfold Obligations.LfoSetampRebuildsTable
  refine ⟨fun a rest => decode_slot_num a rest rfl, ?_⟩
  rintro v s _ rfl
  refine ⟨fun hcold => guardUse_of_not_init (u := .lfo0) hcold _, fun hinit =>
    ⟨(lfoSetAmp s.params.numerics s.core.lfo0 v).tab, guardUse_of_init (u := .lfo0) hinit _, fun i hi => ?inside,
      fun a ha => ?outside⟩⟩
  case inside => exact read_lfoSetAmp s.params.numerics s.core.lfo0 v hi
  case outside => exact read_lfoSetAmp_outside s.params.numerics s.core.lfo0 v ha

/-- What `LFO.SETFREQ` does once LFO0 is initialised: one test against the reference frequency. -/
theorem exec_lfoSetfreq_of_init {s : State} (h : s.core.lfo0.init = true) (v : NUM) :
    exec (.lfoSetfreq v) s = if s.params.numerics.lt v s.core.lfo0.fref then .next (s.failed .illegalCall)
      else .next (s.done { s.core with lfo0 := lfoSetFreq s.params.numerics s.core.lfo0 v } .absent) :=
  guardUse_of_init (u := .lfo0) h _

/-- Settles O37. -/
theorem lfoSetfreqSetsHop : Obligations.LfoSetfreqSetsHop := by
  unfold Obligations.LfoSetfreqSetsHop
  refine ⟨fun a rest => decode_slot_num a rest rfl, ?_⟩
  rintro v s _ rfl
  refine ⟨fun hcold => guardUse_of_not_init (u := .lfo0) hcold _, fun hinit hlow => ?below, fun hinit hok => ?stored⟩
  case below => rw [exec_lfoSetfreq_of_init hinit, if_pos hlow]
  case stored =>
    rw [exec_lfoSetfreq_of_init hinit, hok]
    rfl

/-- Settles O38: the command answers `lfo_value`, whose mean is written out here, and advances the phase. -/
theorem lfoGetvalueInterpolates : Obligations.LfoGetvalueInterpolates := by
  unfold Obligations.LfoGetvalueInterpolates
  refine ⟨fun rest => decode_packet_none rest rfl, ?_⟩
  rintro s _ rfl
  refine ⟨fun hcold => guardUse_of_not_init (u := .lfo0) hcold _, fun hinit => ⟨_, exec_lfoGetvalue_of_init hinit, ?_⟩⟩
  rintro i _ hi hfloor rfl
  exact lfoValue_of_floor hi hfloor.symm

end Sys2Proof.Machine

/-!
PROOFS. The statements of `42_combfilter.md`: the commands of CF (R151, R155, R157), the frame step (R158) and the
difference equations (R159). Output frame `i` of a block is the sample of the core after `i` frames (`cfFrames_out`), in
every numeric domain and from any state; what holds of that core by induction over frames (`cfHolds_frames`,
`cfFrames_dly_silent`) is what the output shows.
-/

namespace Sys2Proof.Machine

/-! ### One frame and a run of frames (R157, R158) -/

/-- Settles O45, from the closed form of a frame. -/
theorem cfFrameStep : Obligations.CfFrameStep := by
  unfold Obligations.CfFrameStep
  intro ν k n
  obtain ⟨out, dly, hframe, hout, hdly, -⟩ := cfFrame_spec (ν := ν) k n
  refine ⟨out, dly, hframe, fun c p => ?output, fun c p => ?delay⟩
  case output => simp only [hout, cfSample, and_comm]
  case delay =>
    rw [hdly (c, p)]
    by_cases hat : c < k.cf.C ∧ p = k.cf.head
    · rw [if_pos hat, if_pos hat.symm]
      cases hft : k.cf.ftype <;> simp [cfStored, hft, hout, hat.1]
    · rw [if_neg hat, if_neg fun hat' => hat hat'.symm]

section frames
variable {ν : Numerics}

/-- Frame `i` of the block is the sample of the core that the frames before it left. -/
theorem cfFrames_out (k : CoreState) {n i c : Nat} (hi : i < n) (hc : c < k.cf.C) :
    Memory.read (cfFrames ν k n).outMem (c, i) = cfSample ν (cfFrames ν k i) i c := by
  induction n with
  | zero => omega
  | succ n ih =>
    obtain ⟨out, dly, hframe, hout, -⟩ := cfFrame_spec (ν := ν) (cfFrames ν k n) n
    rw [cfFrames_succ, hframe]
    obtain hlt | rfl := Nat.lt_succ_iff_lt_or_eq.mp hi
    · simp [hout, hlt.ne, ih hlt]
    · simp [hout, hc]

/-- Outside the unit's channels the delay line keeps its value (`20_memory.md` R66). -/
theorem cfFrames_dly_other (k : CoreState) (n : Nat) {a : Index} (ha : k.cf.C ≤ a.1) :
    Memory.read (cfFrames ν k n).cf.dly a = Memory.read k.cf.dly a := by
  induction n with
  | zero => rfl
  | succ n ih =>
    obtain ⟨out, dly, hframe, -, hdly, -⟩ := cfFrame_spec (ν := ν) (cfFrames ν k n) n
    rw [cfFrames_succ, hframe]
    simp [hdly, ih, ha]

end frames

theorem exec_cfProcess_of_init {s : State} {n : Int} (hinit : s.core.cf.init = true) (h0 : 0 ≤ n)
    (hn : n ≤ (s.params.blkMax : Int)) :
    exec (.cfProcess n) s = .next (s.done (cfFrames s.params.numerics s.core n.toNat) .absent) :=
  (guardUse_of_init (u := .cf) hinit _).trans (if_pos ((frameCountOk_iff n s).mpr ⟨h0, hn⟩))

theorem exec_cfProcess_of_bad {s : State} {n : Int} (hinit : s.core.cf.init = true)
    (hn : n < 0 ∨ (s.params.blkMax : Int) < n) : exec (.cfProcess n) s = .next (s.failed .invalidArguments) := by
  have hbad : ¬ frameCountOk n s = true := by rw [frameCountOk_iff]; omega
  exact (guardUse_of_init (u := .cf) hinit _).trans (if_neg hbad)

/-- Settles O44: the fold is `cfFrames`. -/
theorem cfProcessHandlesFrames : Obligations.CfProcessHandlesFrames := by
  unfold Obligations.CfProcessHandlesFrames
  refine ⟨fun a rest => decode_slot_int a rest rfl, fun n s => ⟨fun hcold => guardUse_of_not_init (u := .cf) hcold _,
    exec_cfProcess_of_bad, fun hinit h0 hn =>
      ⟨_, exec_cfProcess_of_init hinit h0 hn, rfl, cfFrames_shape _ _, ?_, ?_, ?_⟩⟩⟩
  · exact cfFrames_out_other s.core n.toNat
  · exact fun a => cfFrames_dly_other s.core n.toNat
  · exact fun h1 hLd => cfFrames_head_lt s.core n.toNat hLd (by omega)

/-! ### `CF.INIT` and `CF.SETDELAY` (R151, R155) -/

theorem decode_slots_numNumInt {h : Word} {k : NUM → NUM → Int → Instr} (hd : decodeHeader h = some (.numNumInt k))
    (a b c : Slot) (rest : List Slot) :
    decode (.word h :: a :: b :: c :: rest) = .command (k a.asNum b.asNum c.asInt) rest := decode_of_fill hd rfl

section init
variable {ft : FilterType} {d fs : NUM} {n : Int} {s : State}

theorem exec_cfInitOf (ft : FilterType) (d fs : NUM) (n : Int) (s : State) :
    exec (cfInitOf ft d fs n) s = cfInitCommand ft d fs n s := by cases ft <;> rfl

/-- The causes R211 lists for `CF.INIT`, of either type. -/
theorem invalidCause_cfInitOf_iff : invalidCause (cfInitOf ft d fs n) s = true ↔
    n < 1 ∨ (s.params.maxCh : Int) < n ∨ s.params.numerics.le fs 0 = true ∨
      roundNum s.params.numerics (s.params.numerics.mul fs d) < 1 ∨
      Exceeds s.params.cfMaxCap (roundNum s.params.numerics (s.params.numerics.mul fs d)) = true := by
  cases ft <;> simp only [cfInitOf, invalidCause, Bool.or_eq_true, decide_eq_true_eq] <;> tauto

/-- The checks of `CF.INIT` on an uninitialised unit are the causes of R211. -/
theorem exec_cfInitOf_of_not_init (hcold : s.core.cf.init = false) : exec (cfInitOf ft d fs n) s =
    if invalidCause (cfInitOf ft d fs n) s = true then .next (s.failed .invalidArguments)
    else .next (s.done { s.core with
      cf := cfCreate ft d fs n.toNat (roundNum s.params.numerics (s.params.numerics.mul fs d)).toNat } .absent) := by
  rw [exec_cfInitOf]
  refine (guardInit_of_not_init (u := .cf) hcold _).trans ?_
  simp only [invalidCause_cfInitOf_iff, ite_or, fits_eq_not_exceeds, Bool.not_eq_false', raise_eq, commit_eq]

end init

/-- Settles O42: past the front-end check, the checks are the causes of R211. -/
theorem cfInitCreates : Obligations.CfInitCreates := by
  unfold Obligations.CfInitCreates
  refine ⟨fun a b c rest => ⟨decode_slots_numNumInt rfl a b c rest, decode_slots_numNumInt rfl a b c rest⟩, ?_⟩
  rintro ft d fs n _ s _ rfl rfl
  refine ⟨fun hinit => ?live, fun hcold hbad => ?refused, fun hcold hn hC hfs hcap hfits => ?created⟩
  case live => exact (exec_cfInitOf ft d fs n s).trans (guardInit_of_init (u := .cf) hinit _)
  case refused => rw [exec_cfInitOf_of_not_init hcold, if_pos (invalidCause_cfInitOf_iff.mpr hbad)]
  case created =>
    have hok : ¬ invalidCause (cfInitOf ft d fs n) s = true := by
      simp only [invalidCause_cfInitOf_iff, not_or, not_lt, Bool.not_eq_true]
      exact ⟨hn, hC, hfs, hcap, hfits⟩
    rw [exec_cfInitOf_of_not_init hcold, if_neg hok]
    rfl

theorem invalidCause_cfSetdelay_iff {x : NUM} {s : State} : invalidCause (.cfSetdelay x) s = true ↔
    s.params.numerics.lt s.core.cf.maxDelaySec x = true ∨
      roundNum s.params.numerics (s.params.numerics.mul x s.core.cf.fs) < 1 := by
  simp only [invalidCause, Bool.or_eq_true, decide_eq_true_eq]

/-- The checks of `CF.SETDELAY` on an initialised unit are the causes of R211. -/
theorem exec_cfSetdelay_of_init {s : State} (hinit : s.core.cf.init = true) (x : NUM) : exec (.cfSetdelay x) s =
    if invalidCause (.cfSetdelay x) s = true then .next (s.failed .invalidArguments)
    else .next (s.done { s.core with cf := { s.core.cf with
      delaySec := x, Ld := (roundNum s.params.numerics (s.params.numerics.mul x s.core.cf.fs)).toNat } } .absent) := by
  refine (guardUse_of_init (u := .cf) hinit _).trans ?_
  simp only [invalidCause_cfSetdelay_iff, ite_or, raise_eq, commit_eq]

/-- Settles O43: a delay that is accepted keeps a legal unit legal, and so within its capacity; any other rounds below 1. -/
theorem cfSetdelaySetsLength : Obligations.CfSetdelaySetsLength := by
  unfold Obligations.CfSetdelaySetsLength
  refine ⟨fun a rest => decode_slot_num a rest rfl, ?_⟩
  rintro x _ s _ rfl rfl
  refine ⟨fun hcold => guardUse_of_not_init (u := .cf) hcold _, fun hinit hbad => ?refused, fun hinit hmax hn => ?stored,
    fun hnum hlive hx => ?fits⟩
  case refused => rw [exec_cfSetdelay_of_init hinit, if_pos (invalidCause_cfSetdelay_iff.mpr hbad)]
  case stored =>
    have hok : ¬ invalidCause (.cfSetdelay x) s = true := by
      simp only [invalidCause_cfSetdelay_iff, not_or, not_lt, Bool.not_eq_true]
      exact ⟨hmax, hn⟩
    rw [exec_cfSetdelay_of_init hinit, if_neg hok]
    rfl
  case fits =>
    rw [numerics_exact hnum]
    change roundNum .exact (x * s.core.cf.fs) ≤ s.core.cf.cap
    obtain hshort | hpos := lt_or_ge (roundNum .exact (x * s.core.cf.fs)) 1
    · omega
    · obtain ⟨-, -, -, -, ⟨-, hle⟩, -⟩ := cfLive_setDelay hlive hx hpos
      exact Int.toNat_le.mp hle

/-! ### The difference equations (R159) -/

/-- A fresh delay line holds the empty stream. -/
theorem cfHolds_create (h : Nat → Nat → NUM) (ft : FilterType) (d fs : NUM) (C : Nat) {cap : Nat} (hcap : 1 ≤ cap) :
    CfHolds h 0 (cfCreate ft d fs C cap) := by
  refine ⟨hcap, (Nat.zero_mod cap).symm, fun c _ j hj _ => ?_⟩
  have hbefore : past h c 0 j = 0 := if_neg (by omega)
  rw [hbefore]
  rfl

/-- An accepted `CF.INIT` leaves the empty stream in the delay line. -/
theorem cfHolds_of_init {ft : FilterType} {d fs : NUM} {n : Int} {s t : State} (h : Nat → Nat → NUM)
    (hcold : s.core.cf.init = false) (hexec : exec (cfInitOf ft d fs n) s = .next t) (hinit : t.core.cf.init = true) :
    CfHolds h 0 t.core.cf := by
  rw [exec_cfInitOf_of_not_init hcold] at hexec
  split at hexec
  next =>
    obtain rfl := Host.Outcome.next.inj hexec
    simp [hcold] at hinit
  next hok =>
    obtain rfl := Host.Outcome.next.inj hexec
    simp only [invalidCause_cfInitOf_iff, not_or, not_lt] at hok
    obtain ⟨-, -, -, hcap, -⟩ := hok
    exact cfHolds_create h ft d fs n.toNat (Int.lt_toNat.mpr hcap)

section stream
variable {ν : Numerics} {h x y : Nat → Nat → NUM} {t n i : Nat} {k : CoreState}

theorem past_zero (c : Nat) : past h c t 0 = h c t := if_pos (Nat.zero_le t)

theorem past_succ_succ (c j : Nat) : past h c (t + 1) (j + 1) = past h c t j := by simp [past]

/-- The element at the head is the sample of `Ld` frames ago. -/
theorem CfHolds.tap (hk : CfHolds h t k.cf) {c : Nat} (hc : c < k.cf.C) :
    Memory.read k.cf.dly (c, k.cf.head) = past h c t k.cf.Ld := by
  obtain ⟨hLd, hhead, hline⟩ := hk
  rw [hhead, ← hline c hc k.cf.Ld hLd le_rfl, Nat.add_sub_cancel]

/-- The element `j` frames back lies at the head only for `j = Ld`. -/
theorem sub_mod_ne_mod {D j : Nat} (hj : 1 ≤ j) (hjD : j < D) : (t + D - j) % D ≠ t % D := by
  intro e
  have := add_mod_inj (h := t) (i := 0) (j := D - j) (by rw [Nat.add_zero, ← e, Nat.add_sub_assoc hjD.le])
    (Nat.zero_le _) (by omega)
  omega

/-- A frame that stores the next sample of the stream in every channel leaves a delay line that holds the stream up to and
with it: the one element overwritten is that of `Ld` frames ago, which no later frame reads. -/
theorem CfHolds.frame (hk : CfHolds h t k.cf) (hstored : ∀ c < k.cf.C, cfStored ν k n c = h c t) :
    CfHolds h (t + 1) (cfFrame ν k n).cf := by
  obtain ⟨hLd, hhead, hline⟩ := hk
  obtain ⟨out, dly, hframe, -, hdly, -⟩ := cfFrame_spec (ν := ν) k n
  have hnext : imod ((k.cf.head : Int) + 1) k.cf.Ld = (t + 1) % k.cf.Ld := by
    rw [hhead, ← Nat.cast_succ, imod_natCast, Nat.succ_eq_add_one, Nat.mod_add_mod]
  rw [hframe]
  refine ⟨hLd, hnext, fun c hc j hj hjLd => ?_⟩
  obtain ⟨i, rfl⟩ := Nat.exists_eq_add_of_le' hj
  have hpos : t + 1 + k.cf.Ld - (i + 1) = t + k.cf.Ld - i := by omega
  simp only [hpos, past_succ_succ, hdly, hhead]
  obtain rfl | hi := Nat.eq_zero_or_pos i
  case inl => rw [if_pos ⟨Nat.add_mod_right t _, hc⟩, past_zero, hstored c hc]
  case inr => rw [if_neg fun hat => sub_mod_ne_mod hi hjLd hat.1, hline c hc i hi (Nat.le_of_succ_le hjLd)]

/-- The stream the delay line keeps: the inputs for FIR, the outputs for IIR. -/
def cfKept (ft : FilterType) (x y : Nat → Nat → NUM) : Nat → Nat → NUM := if ft = .fir then x else y

/-- `y` at frame `t` of channel `c` by the difference equation of the filter `f` on the input `x` (R159). -/
def CfAnswers (ν : Numerics) (f : CFState) (x y : Nat → Nat → NUM) (c t : Nat) : Prop :=
  y c t = ν.add (x c t) (ν.mul f.gain (past (cfKept f.ftype x y) c t f.Ld))

/-- In a channel where `IN` holds the next sample of `x`, a unit whose delay line holds the stream puts out the next sample
of `y` and stores the next sample of the stream. -/
theorem CfHolds.answers (hk : CfHolds (cfKept k.cf.ftype x y) t k.cf) {c : Nat} (hc : c < k.cf.C)
    (hin : Memory.read k.inMem (c, n) = x c t) (hy : CfAnswers ν k.cf x y c t) :
    cfSample ν k n c = y c t ∧ cfStored ν k n c = cfKept k.cf.ftype x y c t := by
  have hsample : cfSample ν k n c = y c t := by rw [cfSample, hk.tap hc, hin, hy]
  refine ⟨hsample, ?_⟩
  cases hft : k.cf.ftype <;> simp [cfStored, cfKept, hft, hin, hsample]

section block
variable (hk : CfHolds (cfKept k.cf.ftype x y) t k.cf)
  (hblock : ∀ c < k.cf.C, ∀ i < n, Memory.read k.inMem (c, i) = x c (t + i) ∧ CfAnswers ν k.cf x y c (t + i))
include hblock

/-- Frame `i` of the block, once the delay line holds the stream up to there. -/
theorem cfFrames_answers (hi : i < n) (hkept : CfHolds (cfKept k.cf.ftype x y) (t + i) (cfFrames ν k i).cf) {c : Nat}
    (hc : c < k.cf.C) : cfSample ν (cfFrames ν k i) i c = y c (t + i) ∧
      cfStored ν (cfFrames ν k i) i c = cfKept k.cf.ftype x y c (t + i) := by
  obtain ⟨hin, hy⟩ := hblock c hc i hi
  rw [← cfFrames_ftype (ν := ν) k i] at hkept ⊢
  refine hkept.answers (by rwa [cfFrames_C]) (by rwa [cfFrames_inMem]) ?_
  simpa only [CfAnswers, cfFrames_gain, cfFrames_ftype, cfFrames_Ld] using hy

include hk

/-- Frame by frame, the delay line keeps up with the stream. -/
theorem cfHolds_frames (hi : i ≤ n) : CfHolds (cfKept k.cf.ftype x y) (t + i) (cfFrames ν k i).cf := by
  induction i with
  | zero => exact hk
  | succ i ih =>
    have hkept := ih (Nat.le_of_succ_le hi)
    rw [cfFrames_succ]
    refine hkept.frame fun c hc => ?_
    rw [cfFrames_C] at hc
    exact (cfFrames_answers hblock hi hkept hc).2

/-- The block put out is the next `n` frames of `y`. -/
theorem cfFrames_out_eq (hi : i < n) {c : Nat} (hc : c < k.cf.C) :
    Memory.read (cfFrames ν k n).outMem (c, i) = y c (t + i) := by
  rw [cfFrames_out k hi hc]
  exact (cfFrames_answers hblock hi (cfHolds_frames hk hblock hi.le) hc).1

end block

end stream

/-- Settles O46: the delay line of a fresh filter holds the empty stream, and every frame appends the sample it stores. -/
theorem cfDifferenceEquation : Obligations.CfDifferenceEquation := by
  unfold Obligations.CfDifferenceEquation
  refine ⟨fun ft d fs n s t h => cfHolds_of_init h, fun n s x y t hinit h0 hn hk hblock =>
    ⟨_, exec_cfProcess_of_init hinit h0 hn, fun c hc i hi => ?output, ?line⟩⟩
  case output => exact cfFrames_out_eq (x := x) hk hblock hi hc
  case line =>
    rw [done_core, cfFrames_ftype]
    exact cfHolds_frames hk hblock le_rfl

/-! ### Gain 0 and silence, over exact arithmetic (R159) -/

section reference
variable {k : CoreState} {n c : Nat}

theorem cfSample_of_gain_zero (hgain : k.cf.gain = 0) : cfSample .exact k n c = Memory.read k.inMem (c, n) := by
  simp [cfSample, hgain]

theorem cfSample_of_silent (hin : Memory.read k.inMem (c, n) = 0) (hline : ∀ a, Memory.read k.cf.dly a = 0) :
    cfSample .exact k n c = 0 := by
  simp [cfSample, hin, hline]

theorem cfStored_of_silent (hin : Memory.read k.inMem (c, n) = 0) (hline : ∀ a, Memory.read k.cf.dly a = 0) :
    cfStored .exact k n c = 0 := by
  unfold cfStored
  cases k.cf.ftype with
  | fir => exact hin
  | iir => exact cfSample_of_silent hin hline

/-- Zeros in, over a delay line of zeros, leave a delay line of zeros. -/
theorem cfFrames_dly_silent (hline : ∀ a, Memory.read k.cf.dly a = 0)
    (hin : ∀ c < k.cf.C, ∀ i < n, Memory.read k.inMem (c, i) = 0) {i : Nat} (hi : i ≤ n) (a : Index) :
    Memory.read (cfFrames .exact k i).cf.dly a = 0 := by
  induction i generalizing a with
  | zero => exact hline a
  | succ i ih =>
    obtain ⟨out, dly, hframe, -, hdly, -⟩ := cfFrame_spec (ν := .exact) (cfFrames .exact k i) i
    have hbefore : ∀ a, Memory.read (cfFrames .exact k i).cf.dly a = 0 := ih (by omega)
    rw [cfFrames_succ, hframe]
    simp only [hdly, cfFrames_C, hbefore]
    split
    next hat =>
      refine cfStored_of_silent ?_ hbefore
      rw [cfFrames_inMem]
      exact hin a.1 hat.2 i hi
    next => rfl

end reference

/-- Settles O47: with gain 0 every sample is its input; in silence every sample is made of zeros, at every frame. -/
theorem cfPassesThroughAndStaysSilent : Obligations.CfPassesThroughAndStaysSilent := by
  unfold Obligations.CfPassesThroughAndStaysSilent
  intro n s hnum hinit h0 hn
  refine ⟨_, exec_cfProcess_of_init hinit h0 hn, ?_⟩
  rw [done_core, numerics_exact hnum]
  refine ⟨fun hgain c hc i hi => ?through, fun hline hin =>
    ⟨fun c hc i hi => ?silent, cfFrames_dly_silent hline hin le_rfl⟩⟩
  case through =>
    rw [cfFrames_out s.core hi hc, cfSample_of_gain_zero ((cfFrames_gain s.core i).trans hgain), cfFrames_inMem]
  case silent =>
    rw [cfFrames_out s.core hi hc]
    refine cfSample_of_silent ?_ (cfFrames_dly_silent hline hin hi.le)
    rw [cfFrames_inMem]
    exact hin c hc i hi

end Sys2Proof.Machine

/-!
PROOFS. The statements of `43_vibrato.md`: the commands of VIB (R171 to R175, R180), the pre-roll (R181), the frame step
(R182) and the modulated delay (R184). Output frame `i` of a block is the interpolated read of the ring that `i + 1` frames
leave (`vibFrames_out_rbGet`), in every numeric domain and at every offset; what those rings hold (`vibHolds_frames`) is
what the output shows.
-/

namespace Sys2Proof.Machine

/-! ### The pre-roll (R181) -/

/-- From `M + 2` to the end of a ring of `2 * M + 2` elements it is `M` positions. -/
theorem imod_neg_add_two (M : Nat) : imod (0 - (((M + 2) % (2 * M + 2) : Nat) : Int)) (2 * M + 2) = M := by
  have hwrap : (0 - ((M + 2 : Nat) : Int)) % ((2 * M + 2 : Nat) : Int) = (M : Int) % ((2 * M + 2 : Nat) : Int) := by
    rw [show 0 - ((M + 2 : Nat) : Int) = M - ((2 * M + 2 : Nat) : Int) by push_cast; ring, Int.sub_emod_right]
  rw [← imod_natCast, imod_sub_imod _ _ _ (by omega), imod_congr hwrap, imod_natCast, Nat.mod_eq_of_lt (by omega)]

theorem vibRingOf_vibPreroll {v : VIBState} {c : Nat} (hl : v.rb.length = v.C) (hc : c < v.C)
    (hrings : ∀ b ∈ v.rb, b.N = v.N ∧ b.r < v.N) : vibRingOf (vibPreroll v) c =
      { vibRingOf v c with r := ((vibRingOf v c).r + (v.N - v.M)) % v.N } := by
  obtain ⟨hN, hr⟩ := hrings _ (vibRingOf_mem (hl.symm ▸ hc))
  simp only [vibPreroll_ring v hc hl, rbAdvance_iterate _ _ (hN.symm ▸ hr), hN]

/-- Settles O53: `N - M` advances of a read cursor are one addition modulo `N`. -/
theorem vibPrerollMovesReadCursors : Obligations.VibPrerollMovesReadCursors := by
  unfold Obligations.VibPrerollMovesReadCursors
  intro v hl hrings
  refine ⟨rfl, (vibPreroll_length v).trans hl, fun c hc => ?moved, fun hN c hc _ hr => ?fresh⟩
  case moved => rw [vibRingOf_vibPreroll hl hc hrings, ← Nat.cast_add, imod_natCast]
  case fresh =>
    have hcursor : (vibRingOf (vibPreroll v) c).r = (v.M + 2) % v.N := by
      rw [vibRingOf_vibPreroll hl hc hrings, hr, show 0 + (v.N - v.M) = v.M + 2 by omega]
    exact ⟨hcursor, by rw [hcursor, hN, imod_neg_add_two]⟩

theorem rbAdvance_iterate_fields (b : RBState) (n : Nat) :
    Nat.iterate rbAdvance n b = { b with r := (Nat.iterate rbAdvance n b).r } := by
  induction n with
  | zero => rfl
  | succ n ih => rw [Function.iterate_succ_apply', ih]; rfl

section warm
variable (k : CoreState)
@[simp] theorem vibWarm_inMem : (vibWarm k).inMem = k.inMem := by rw [vibWarm_eq]
@[simp] theorem vibWarm_outMem : (vibWarm k).outMem = k.outMem := by rw [vibWarm_eq]
@[simp] theorem vibWarm_M : (vibWarm k).vib.M = k.vib.M := by rw [vibWarm_vib]; split <;> rfl
@[simp] theorem vibWarm_N : (vibWarm k).vib.N = k.vib.N := by rw [vibWarm_vib]; split <;> rfl
@[simp] theorem vibWarm_lfo : (vibWarm k).vib.lfo = k.vib.lfo := by rw [vibWarm_vib]; split <;> rfl
end warm

/-- Warming up writes the rings and the flag, and nothing else. -/
theorem vibWarm_shape (k : CoreState) : ∃ rb, vibWarm k = { k with vib := { k.vib with warmedUp := true, rb := rb } } := by
  unfold vibWarm
  split
  next hwarm => exact ⟨k.vib.rb, by rw [← hwarm]⟩
  next => exact ⟨(vibPreroll k.vib).rb, rfl⟩

/-! ### One frame and a run of frames (R180, R182) -/

/-- Settles O54, from the closed form of a frame. -/
theorem vibFrameStep : Obligations.VibFrameStep := by
  unfold Obligations.VibFrameStep
  intro ν k i hl
  obtain ⟨out, rb, hframe, hlen, hout, hrb, -⟩ := vibFrame_spec (ν := ν) k i
  refine ⟨out, rb, hframe, hlen.trans hl, fun c hc => ⟨vibPutRing k i c, rfl, ?ring, ?output⟩, fun a ha => ?other⟩
  case ring =>
    rw [hrb c, if_pos ⟨hc, hl.symm ▸ hc⟩]
    rfl
  case output => rw [hout (c, i), if_pos ⟨rfl, hc⟩]
  case other => rw [hout a, if_neg fun hat => ha hat.symm]

theorem exec_vibProcess_of_init {s : State} {n : Int} (hinit : s.core.vib.init = true) (h0 : 0 ≤ n)
    (hn : n ≤ (s.params.blkMax : Int)) : exec (.vibProcess n) s = .next (s.done
      (vibFrames s.params.numerics (vibWarm s.core) (min s.core.vib.blockSize n).toNat) .absent) :=
  (guardUse_of_init (u := .vib) hinit _).trans (if_pos ((frameCountOk_iff n s).mpr ⟨h0, hn⟩))

theorem exec_vibProcess_of_bad {s : State} {n : Int} (hinit : s.core.vib.init = true)
    (hn : n < 0 ∨ (s.params.blkMax : Int) < n) : exec (.vibProcess n) s = .next (s.failed .invalidArguments) := by
  have hbad : ¬ frameCountOk n s = true := by rw [frameCountOk_iff]; omega
  exact (guardUse_of_init (u := .vib) hinit _).trans (if_neg hbad)

/-- What a block writes, from a unit cold or warm. -/
theorem vibFrames_vibWarm_shape (ν : Numerics) (k : CoreState) (n : Nat) : vibFrames ν (vibWarm k) n = { k with
    outMem := (vibFrames ν (vibWarm k) n).outMem
    vib := { k.vib with
      warmedUp := true
      rb := (vibFrames ν (vibWarm k) n).vib.rb
      lfo := { k.vib.lfo with phase := (vibFrames ν (vibWarm k) n).vib.lfo.phase } } } := by
  obtain ⟨rb, hwarm⟩ := vibWarm_shape k
  rw [vibFrames_lfo, vibWarm_lfo, ← lfoAdvance_iterate_fields, hwarm]
  exact vibFrames_shape _ n

/-- Settles O52: the fold is `vibFrames`, from the core `vibWarm` gives. -/
theorem vibProcessHandlesFrames : Obligations.VibProcessHandlesFrames := by
  unfold Obligations.VibProcessHandlesFrames
  refine ⟨fun a rest => decode_slot_int a rest rfl, fun n s => ⟨fun hcold => guardUse_of_not_init (u := .vib) hcold _,
    exec_vibProcess_of_bad, fun hinit h0 hn => ⟨_, exec_vibProcess_of_init hinit h0 hn, rfl,
      vibFrames_vibWarm_shape _ _ _, fun a ha => ?other⟩⟩⟩
  case other =>
    rw [vibFrames_out_other _ _ _ (by rwa [vibWarm_C, Int.lt_toNat]), vibWarm_outMem]

/-! ### `VIB.INIT`, `VIB.SETDELAY` and `VIB.SETFREQ` (R171 to R175) -/

section init
variable {d fs : NUM} {n : Int} {s : State}

theorem invalidCause_vibInit_iff : invalidCause (.vibInit d fs n) s = true ↔
    n < 1 ∨ (s.params.maxCh : Int) < n ∨ s.params.numerics.le fs 0 = true ∨ s.params.numerics.lt d 0 = true ∨
      Exceeds s.params.vibMaxN (2 * s.params.numerics.ceil (s.params.numerics.mul d fs) + 2) = true ∨
      Exceeds s.params.lfoMaxL (s.params.numerics.ceil (s.params.numerics.div fs s.params.vibLfoFref)) = true := by
  simp only [invalidCause, Bool.or_eq_true, decide_eq_true_eq, or_assoc]

/-- The checks of `VIB.INIT` on an uninitialised unit are the causes of R211. -/
theorem exec_vibInit_of_not_init (hcold : s.core.vib.init = false) : exec (.vibInit d fs n) s =
    if invalidCause (.vibInit d fs n) s = true then .next (s.failed .invalidArguments)
    else .next (s.done { s.core with
      vib := vibCreate s.params d fs n.toNat (s.params.numerics.ceil (s.params.numerics.mul d fs)).toNat } .absent) := by
  refine (guardInit_of_not_init (u := .vib) hcold _).trans ?_
  simp only [invalidCause_vibInit_iff, ite_or, fits_eq_not_exceeds, Bool.not_eq_false', raise_eq, commit_eq]

end init

/-- Settles O49: past the front-end check, the checks are the causes of R211. -/
theorem vibInitCreates : Obligations.VibInitCreates := by
  unfold Obligations.VibInitCreates
  refine ⟨fun a b c rest => decode_slots_numNumInt rfl a b c rest, ?_⟩
  rintro d fs n _ _ s _ rfl rfl rfl
  refine ⟨fun hinit => guardInit_of_init (u := .vib) hinit _, fun hcold hbad => ?refused,
    fun hcold hn hC hfs hd hrings hlfo => ?created⟩
  case refused => rw [exec_vibInit_of_not_init hcold, if_pos (invalidCause_vibInit_iff.mpr hbad)]
  case created =>
    have hok : ¬ invalidCause (.vibInit d fs n) s = true := by
      simp only [invalidCause_vibInit_iff, not_or, not_lt, Bool.not_eq_true]
      exact ⟨hn, hC, hfs, hd, hrings, hlfo⟩
    rw [exec_vibInit_of_not_init hcold, if_neg hok]
    rfl

/-- What `VIB.SETDELAY` does once its unit is initialised: one test, of the amplitude in samples. -/
theorem exec_vibSetdelay_of_init {s : State} (hinit : s.core.vib.init = true) (x : NUM) : exec (.vibSetdelay x) s =
    if (s.core.vib.M : Int) < s.params.numerics.ceil (s.params.numerics.mul x s.core.vib.fs) then
      .next (s.failed .invalidArguments)
    else .next (s.done { s.core with vib := { s.core.vib with
      delaySec := x
      lfo := lfoSetAmp s.params.numerics s.core.vib.lfo (s.params.numerics.mul x s.core.vib.fs) } } .absent) :=
  guardUse_of_init (u := .vib) hinit _

/-- Settles O50: the new table is that of `lfoSetAmp`. -/
theorem vibSetdelaySetsAmplitude : Obligations.VibSetdelaySetsAmplitude := by
  unfold Obligations.VibSetdelaySetsAmplitude
  refine ⟨fun a rest => decode_slot_num a rest rfl, ?_⟩
  rintro x _ s _ rfl rfl
  refine ⟨fun hcold => guardUse_of_not_init (u := .vib) hcold _, fun hinit hdeep => ?refused, fun hinit hdepth =>
    ⟨(lfoSetAmp s.params.numerics s.core.vib.lfo (s.params.numerics.mul x s.core.vib.fs)).tab, ?stored,
      fun i hi => ?inside, fun a ha => ?outside⟩⟩
  case refused => rw [exec_vibSetdelay_of_init hinit, if_pos hdeep]
  case stored =>
    rw [exec_vibSetdelay_of_init hinit, if_neg (not_lt.mpr hdepth)]
    rfl
  case inside => exact read_lfoSetAmp s.params.numerics s.core.vib.lfo _ hi
  case outside => exact read_lfoSetAmp_outside s.params.numerics s.core.vib.lfo _ ha

/-- What `VIB.SETFREQ` does once its unit is initialised: one test against the reference frequency. -/
theorem exec_vibSetfreq_of_init {s : State} (hinit : s.core.vib.init = true) (hz : NUM) : exec (.vibSetfreq hz) s =
    if s.params.numerics.lt hz s.core.vib.lfo.fref then .next (s.failed .illegalCall)
    else .next (s.done { s.core with
      vib := { s.core.vib with lfo := lfoSetFreq s.params.numerics s.core.vib.lfo hz } } .absent) :=
  guardUse_of_init (u := .vib) hinit _

/-- Settles O51. -/
theorem vibSetfreqSetsHop : Obligations.VibSetfreqSetsHop := by
  unfold Obligations.VibSetfreqSetsHop
  refine ⟨fun a rest => decode_slot_num a rest rfl, ?_⟩
  rintro hz s _ rfl
  refine ⟨fun hcold => guardUse_of_not_init (u := .vib) hcold _, fun hinit hlow => ?below, fun hinit hok => ?stored⟩
  case below => rw [exec_vibSetfreq_of_init hinit, if_pos hlow]
  case stored =>
    rw [exec_vibSetfreq_of_init hinit, hok]
    rfl

/-! ### What the rings hold (R184) -/

/-- Fresh rings hold the empty stream. -/
theorem vibHolds_create (x : Nat → Nat → NUM) (p : Params) (d fs : NUM) (C m : Nat) :
    VibHolds x 0 (vibCreate p d fs C m) := by
  refine ⟨List.length_replicate, fun c hc => ?_⟩
  have hring : vibRingOf (vibCreate p d fs C m) c = rbCreate (2 * m + 2) := List.getD_replicate _ hc
  rw [hring]
  refine ⟨rfl, Nat.succ_pos _, fun j _ => ?_⟩
  rw [rbLookback_create, past, if_neg (Nat.not_succ_le_zero j)]

/-- An accepted `VIB.INIT` leaves the empty stream in the rings. -/
theorem vibHolds_of_init {d fs : NUM} {n : Int} {s t : State} (x : Nat → Nat → NUM) (hcold : s.core.vib.init = false)
    (hexec : exec (.vibInit d fs n) s = .next t) (hinit : t.core.vib.init = true) : VibHolds x 0 t.core.vib := by
  rw [exec_vibInit_of_not_init hcold] at hexec
  split at hexec
  next =>
    obtain rfl := Host.Outcome.next.inj hexec
    simp [hcold] at hinit
  next =>
    obtain rfl := Host.Outcome.next.inj hexec
    exact vibHolds_create x _ _ _ _ _

section stream
variable {ν : Numerics} {x : Nat → Nat → NUM} {t n i c : Nat} {k : CoreState}

theorem past_add_add (j : Nat) : past x c (t + i) (j + i) = past x c t j := by
  simp only [past, Nat.add_le_add_iff_right, Nat.add_sub_add_right]

/-- The pre-roll moves read cursors, on which no lookback depends. -/
theorem VibHolds.warm (hk : VibHolds x t k.vib) : VibHolds x t (vibWarm k).vib := by
  obtain ⟨hl, hrings⟩ := hk
  rw [vibWarm_vib]
  split
  next => exact ⟨hl, hrings⟩
  next =>
    refine ⟨(vibPreroll_length _).trans hl, fun c hc => ?_⟩
    rw [vibPreroll_ring k.vib hc hl, rbAdvance_iterate_fields]
    exact hrings c hc

/-- The block of a `PROCESS` that handles `m` frames, after the pre-roll as before it. -/
theorem vibWarm_block {m : Int}
    (hin : ∀ c < k.vib.C, ∀ i : Nat, (i : Int) < m → Memory.read k.inMem (c, i) = x c (t + i)) :
    ∀ c < (vibWarm k).vib.C, ∀ i < m.toNat, Memory.read (vibWarm k).inMem (c, i) = x c (t + i) := by
  simpa only [vibWarm_C, vibWarm_inMem, Int.lt_toNat] using hin

/-- Frame `i` of the block is read from the ring that frame `i` leaves. -/
theorem vibFrames_out_rbGet (hl : k.vib.rb.length = k.vib.C) (hc : c < k.vib.C) (hi : i < n) :
    Memory.read (vibFrames ν k n).outMem (c, i) = rbGet ν (vibRingOf (vibFrames ν k (i + 1)).vib c)
      (ν.add (ν.ofInt k.vib.M) (lfoValue ν ((lfoAdvance ν)^[i] k.vib.lfo))) := by
  induction n with
  | zero => omega
  | succ n ih =>
    obtain ⟨out, rb, hframe, -, hout, -⟩ := vibFrame_spec (ν := ν) (vibFrames ν k n) n
    rw [vibFrames_succ k n, hframe]
    obtain hlt | rfl := Nat.lt_succ_iff_lt_or_eq.mp hi
    · simp [hout, hlt.ne, ih hlt]
    · simp [hout, hc, vibFrames_ring_succ k i c hc hl, vibPutRing]

section block
variable (hk : VibHolds x t k.vib) (hblock : ∀ c < k.vib.C, ∀ i < n, Memory.read k.inMem (c, i) = x c (t + i))
include hk hblock

/-- Frame by frame, the rings keep up with the stream. -/
theorem vibHolds_frames (hi : i ≤ n) : VibHolds x (t + i) (vibFrames ν k i).vib := by
  obtain ⟨hl, hrings⟩ := hk
  refine ⟨by rw [vibFrames_length, vibFrames_C, hl], fun c hc => ?_⟩
  rw [vibFrames_C] at hc
  obtain ⟨hN, hw, hpast⟩ := hrings c hc
  obtain ⟨hN', hw', hback⟩ := vibFrames_ring (ν := ν) k i c hc hl (hN.symm ▸ hw)
  rw [hN] at hN' hw' hback
  rw [vibFrames_N]
  refine ⟨hN', hw' ▸ Nat.mod_lt _ (Nat.zero_lt_of_lt hw), fun j hj => ?_⟩
  rw [hback j hj]
  split
  next hnew =>
    obtain ⟨m, rfl⟩ := Nat.exists_eq_add_of_lt hnew
    rw [hblock c hc _ (by omega), past, if_pos (by omega)]
    congr 1
    omega
  next hold =>
    obtain ⟨m, rfl⟩ := Nat.exists_eq_add_of_le' (not_lt.mp hold)
    rw [Nat.cast_add, Int.add_sub_cancel, hpast m (by omega), Nat.add_right_comm, past_add_add]

/-- Inside the contract range, frame `i` is the mean of the inputs `j` and `j + 1` frames before it. -/
theorem vibFrames_out_eq (hi : i < n) (hc : c < k.vib.C) {o : NUM} {j : Nat}
    (ho : o = ν.add (ν.ofInt k.vib.M) (lfoValue ν ((lfoAdvance ν)^[i] k.vib.lfo))) (hj : (j : Int) = ν.floor o)
    (hjN : j + 1 < k.vib.N) : Memory.read (vibFrames ν k n).outMem (c, i) =
      lerp ν (ν.sub o (ν.ofInt j)) (past x c (t + i) j) (past x c (t + i) (j + 1)) := by
  obtain ⟨-, hrings⟩ := vibHolds_frames (ν := ν) hk hblock (i := i + 1) hi
  rw [vibFrames_C, vibFrames_N] at hrings
  obtain ⟨-, -, hpast⟩ := hrings c hc
  rw [vibFrames_out_rbGet hk.1 hc hi, ← ho, rbGet_eq, ← hj, hpast j (by omega), ← Nat.cast_succ, hpast (j + 1) hjN]
  simp only [← Nat.add_assoc, past_succ_succ]

end block

end stream

/-- Settles O55: fresh rings hold the empty stream, the pre-roll keeps it, and every frame appends its input. -/
theorem vibIsAModulatedDelay : Obligations.VibIsAModulatedDelay := by
  unfold Obligations.VibIsAModulatedDelay
  refine ⟨fun d fs n s t x => vibHolds_of_init x, ?_⟩
  rintro n s x t _ rfl hinit h0 hn hk hin
  have hblock := vibWarm_block hin
  refine ⟨_, exec_vibProcess_of_init hinit h0 hn, vibHolds_frames hk.warm hblock le_rfl, ?lfo, ?output⟩
  case lfo => rw [done_core, vibFrames_lfo, vibWarm_lfo]
  case output =>
    rintro c hc i hi o _ j ho hj rfl hjN
    exact vibFrames_out_eq hk.warm hblock (Int.lt_toNat.mpr hi) (by rwa [vibWarm_C]) (by rwa [vibWarm_M, vibWarm_lfo]) hj
      (by rwa [vibWarm_N])

/-! ### A zero table, silence and the range of the offsets, over exact arithmetic (R184, R254) -/

/-- A table of zeros gives the value 0 at every phase. -/
theorem lfoValue_of_zero_table {bound : Option Nat} {l : LFOState} (h : LfoLive bound l)
    (htab : ∀ a, Memory.read l.tab a = 0) : lfoValue .exact l = 0 := by
  obtain ⟨-, -, -, h1, -, -, -, hp0, hp, -⟩ := h
  rw [lfoValue_exact h1 hp0 hp, htab, htab, lerp_same]

theorem rbLookback_emod (b : RBState) (j : Int) : rbLookback b (j % b.N) = rbLookback b j :=
  congrArg (fun p => Memory.read b.buf (0, p)) (imod_congr (by simp))

/-- A ring of zeros reads as 0 at every offset, in range or not. -/
theorem rbGet_of_zeros {b : RBState} (hN : 1 ≤ b.N) (h : ∀ j < b.N, rbLookback b (j : Int) = 0) (o : NUM) :
    rbGet .exact b o = 0 := by
  have hall : ∀ j : Int, rbLookback b j = 0 := fun j => by
    rw [← rbLookback_emod, ← imod_eq_emod j hN]
    exact h _ (imod_lt j hN)
  rw [rbGet_exact, hall, hall, lerp_same]

/-- Settles O56: under a zero table every offset is `M`; in silence every ring is all zeros after every frame. -/
theorem vibPureDelayAndSilence : Obligations.VibPureDelayAndSilence := by
  unfold Obligations.VibPureDelayAndSilence
  intro n s x t hnum hinit h0 hn hinv hk hin
  have hblock := vibWarm_block hin
  refine ⟨_, exec_vibProcess_of_init hinit h0 hn, fun htab c hc i hi => ?delay, fun hzero c hc i hi => ?silence⟩
  all_goals
    rw [done_core, numerics_exact hnum]
    rw [← vibWarm_C] at hc
    rw [← Int.lt_toNat] at hi
  case delay =>
    obtain ⟨-, -, -, -, hN, -, -, -, -, -, -, -, -, -, -, -, -, -, hlfo⟩ := hinv.1 hinit
    have hvalue : lfoValue .exact ((lfoAdvance .exact)^[i] s.core.vib.lfo) = 0 := by
      refine lfoValue_of_zero_table (lfoLive_iterate hlfo i) fun a => ?_
      rw [lfoAdvance_iterate_fields]
      exact htab a
    have hout := vibFrames_out_eq (ν := .exact) (o := s.core.vib.M) (j := s.core.vib.M) hk.warm hblock hi hc
      (by simp [hvalue]) (by simp) (by rw [vibWarm_N]; omega)
    simpa using hout
  case silence =>
    have hpast : ∀ c t j, past x c t j = 0 := fun c t j => by simp [past, hzero]
    obtain ⟨-, hrings⟩ := vibHolds_frames (ν := .exact) hk.warm hblock (i := i + 1) hi
    rw [vibFrames_C, vibFrames_N] at hrings
    obtain ⟨hN, hw, hline⟩ := hrings c hc
    rw [vibFrames_out_rbGet hk.warm.1 hc hi]
    refine rbGet_of_zeros (by omega) (fun j hj => ?_) _
    rw [hline j (hN ▸ hj), hpast]

/-- Settles O57: the amplitude is at most its ceiling, which `VIB.SETDELAY` checks, and bounds every value. -/
theorem vibOffsetsStayInRange : Obligations.VibOffsetsStayInRange := by
  unfold Obligations.VibOffsetsStayInRange
  intro p v hlive
  obtain ⟨-, -, -, -, hN, -, hdepth, -, -, -, -, -, -, -, -, -, -, hamp, hlfo⟩ := hlive
  have hM : v.lfo.amp ≤ v.M := hamp ▸ (ceilNum_le_iff _ _).mp hdepth
  refine ⟨hM, fun hlow => ?_⟩
  have hvalue : |lfoValue .exact v.lfo| ≤ v.M := (abs_lfoValue_le hlfo).trans (abs_le.mpr ⟨hlow, hM⟩)
  obtain ⟨hge, hle⟩ := abs_le.mp hvalue
  refine ⟨by linarith, by linarith, ?_⟩
  rw [hN]
  push_cast
  linarith

end Sys2Proof.Machine

/-!
PROOFS. The statements of `44_sys_io.md`: `SYS.NOP` (R200) and the two IO commands (R202, R203). The first eight bits of an
IO header are the unit code 5 and the operation (R82, R87); after decoding, each IO command makes the one range test whose
two answers are `ioInRange_iff` and `ioInRange_eq_false_iff`.
-/

namespace Sys2Proof.Machine

/-! ### The headers of the IO commands, as R202 and R203 spell them (R82, R87) -/

theorem wrinWord_eq_header (ch : BitVec 8) (n : BitVec 16) : (0x50#8 ++ ch ++ n : Word) = header 5 0 ch n := rfl

theorem rdoutWord_eq_header (ch : BitVec 8) (n : BitVec 16) : (0x51#8 ++ ch ++ n : Word) = header 5 1 ch n := rfl

/-! ### The IO commands inside and outside the block memories (R215) -/

section io
variable {ch n : Nat} {s : State}

theorem ioInRange_eq_false_iff : ioInRange ch n s = false ↔ s.params.maxCh ≤ ch ∨ s.params.blkMax ≤ n := by
  rw [← Bool.not_eq_true, ioInRange_iff, Classical.not_and_iff_not_or_not, Nat.not_lt, Nat.not_lt]

theorem exec_ioWrin_of_outside (h : ioInRange ch n s = false) (x : NUM) :
    exec (.ioWrin ch n x) s = .next (s.failed .invalidArguments) := if_neg (ne_true_of_eq_false h)

theorem exec_ioWrin_of_inside (h : ioInRange ch n s = true) (x : NUM) : exec (.ioWrin ch n x) s =
    .next (s.done { s.core with inMem := Memory.write s.core.inMem (ch, n) x } .absent) := if_pos h

theorem exec_ioRdout_of_outside (h : ioInRange ch n s = false) :
    exec (.ioRdout ch n) s = .next (s.failed .invalidArguments) := if_neg (ne_true_of_eq_false h)

theorem exec_ioRdout_of_inside (h : ioInRange ch n s = true) :
    exec (.ioRdout ch n) s = .next (s.done s.core (.num (Memory.read s.core.outMem (ch, n)))) := if_pos h

end io

/-! ### The statements -/

/-- Settles O22. -/
theorem nopDoesNothing : Obligations.NopDoesNothing := by
  unfold Obligations.NopDoesNothing
  exact fun rest s => ⟨decode_packet_none rest rfl, answer_eq .absent s⟩

/-- Settles O23: the input block after the command is `Memory.write` at `(ch, n)`. -/
theorem wrinWritesOneSample : Obligations.WrinWritesOneSample := by
  unfold Obligations.WrinWritesOneSample
  refine ⟨fun ch n x rest => ?packet, fun ch n x s => ⟨fun hout => ?refused, fun hch hn => ?written⟩⟩
  case packet =>
    rw [wrinWord_eq_header]
    exact decode_packet_num rest (decodeHeader_wrin ch n) x
  case refused => exact exec_ioWrin_of_outside (ioInRange_eq_false_iff.mpr hout) x
  case written =>
    have hin := (ioInRange_iff ch n s).mpr ⟨hch, hn⟩
    exact ⟨_, exec_ioWrin_of_inside hin x, fun a => read_write s.core.inMem (ch, n) a x⟩

/-- Settles O24. -/
theorem rdoutReadsOneSample : Obligations.RdoutReadsOneSample := by
  unfold Obligations.RdoutReadsOneSample
  refine ⟨fun ch n rest => ?packet, fun ch n s => ⟨fun hout => ?refused, fun hch hn => ?read⟩⟩
  case packet =>
    rw [rdoutWord_eq_header]
    exact decode_packet_none rest (decodeHeader_rdout ch n)
  case refused => exact exec_ioRdout_of_outside (ioInRange_eq_false_iff.mpr hout)
  case read => exact exec_ioRdout_of_inside ((ioInRange_iff ch n s).mpr ⟨hch, hn⟩)

end Sys2Proof.Machine

/-!
PROOFS. The statements of `60_exceptions.md`: every command is answered (R210, R214, R229), the front-end check (R213) and
the one status of a command (R211, R215). The argument checks of every command are brought to one form (`checked`), and
every command is that form behind the front-end check of its unit (`exec_guarded`); the front-end check and the statuses are
read off it.
-/

namespace Sys2Proof.Machine

/-! ### No run is stopped (R229) -/

theorem exec_answered (i : Instr) (s : State) : Answered s (exec i s) := by
  obtain ⟨e, he⟩ | ⟨c, v, hc, -⟩ := exec_ends i s
  · exact he ▸ answered_failed s e
  · exact hc ▸ answered_done s c v

theorem step_next (s : State) : ∃ t, step s = .next t := by
  cases hrst : s.rst with
  | true => exact ⟨powerOnReset s, if_pos hrst⟩
  | false =>
    cases hd : decode s.pending with
    | command i rest =>
      obtain ⟨c, q, hexec, -⟩ := exec_answered i (s.consumed rest)
      exact ⟨_, (step_of_command hrst hd).trans hexec⟩
    | reserved w rest => exact ⟨_, step_of_reserved hrst hd⟩
    | incomplete => exact ⟨_, step_of_incomplete hrst hd⟩

theorem safeRun_succ {s t : State} (h : step s = .next t) {n : Nat} (ht : SafeRun n t) : SafeRun (n + 1) s := by
  obtain ⟨u, hu⟩ := ht
  refine ⟨u, ?_⟩
  simp only [Host.Core.run, h]
  exact hu

theorem safeRun (n : Nat) (s : State) : SafeRun n s := by
  induction n generalizing s with
  | zero => exact ⟨s, rfl⟩
  | succ n ih =>
    obtain ⟨t, ht⟩ := step_next s
    exact safeRun_succ ht (ih t)

/-- Settles O11, from the two ways a command can end (`exec_ends`) and the four things a step can do. -/
theorem everyCommandAnswered : Obligations.EveryCommandAnswered := by
  unfold Obligations.EveryCommandAnswered
  exact ⟨exec_answered, safeRun⟩

/-! ### The argument checks (R211, R215) -/

/-- The outcome of a command past the front-end check: the causes of R211 in the order of R215, then the core `c` and the
value `v`. -/
def checked (i : Instr) (s : State) (c : CoreState) (v : Value) : Result :=
  if belowFloor i s then .next (s.failed .illegalCall)
  else if invalidCause i s then .next (s.failed .invalidArguments)
  else .next (s.done c v)

theorem checked_of_not_belowFloor {i : Instr} {s : State} (hfloor : belowFloor i s = false) (c : CoreState) (v : Value) :
    checked i s c v = if invalidCause i s then .next (s.failed .invalidArguments) else .next (s.done c v) :=
  if_neg (ne_true_of_eq_false hfloor)

/-- The outcome `r` at `s` is a next state with one response more, of status `e`. -/
def HasStatus (s : State) (r : Result) (e : Status) : Prop :=
  ∃ t q, r = .next t ∧ t.rsp = s.rsp ++ [q] ∧ q.status = e

theorem hasStatus_failed (s : State) (e : Status) : HasStatus s (.next (s.failed e)) e := ⟨_, _, rfl, rfl, rfl⟩

theorem hasStatus_done (s : State) (c : CoreState) (v : Value) : HasStatus s (.next (s.done c v)) .ok :=
  ⟨_, _, rfl, rfl, rfl⟩

theorem hasStatus_checked (i : Instr) (s : State) (c : CoreState) (v : Value) :
    HasStatus s (checked i s c v) (argumentStatus i s) := by
  unfold checked argumentStatus
  split
  · exact hasStatus_failed s _
  · split
    · exact hasStatus_failed s _
    · exact hasStatus_done s c v

/-- A command that ended with the error `e'` has that status. -/
theorem HasStatus.eq_of_failed {s : State} {e e' : Status} (h : HasStatus s (.next (s.failed e')) e) : e = e' := by
  obtain ⟨t, q, ht, hq, rfl⟩ := h
  obtain rfl := Host.Outcome.next.inj ht
  obtain rfl : (⟨e', .absent⟩ : Response) = q := List.singleton_inj.mp (List.append_cancel_left hq)
  rfl

theorem hasStatus_guardInit {s : State} {body : Result} {e : Status} (u : UnitId) (h : HasStatus s body e) :
    HasStatus s (guardInit u s body) (if initFlag u s.core then .illegalCall else e) := by
  unfold guardInit
  split
  · exact hasStatus_failed s _
  · exact h

theorem hasStatus_guardUse {s : State} {body : Result} {e : Status} (u : UnitId) (h : HasStatus s body e) :
    HasStatus s (guardUse u s body) (if initFlag u s.core then e else .notInitialized) := by
  unfold guardUse
  split
  · exact h
  · exact hasStatus_failed s _

theorem hasStatus_query (u : UnitId) (neutral v : Value) (s : State) : HasStatus s (query u neutral v s) .ok :=
  hasStatus_done s s.core _

/-! ### The argument checks of the commands are the causes of R211 -/

theorem guardInit_eq_of_cold {u : UnitId} {s : State} {a b : Result}
    (h : initFlag u s.core = false → guardInit u s a = b) : guardInit u s a = guardInit u s b := by
  cases hu : initFlag u s.core
  · rw [h hu, guardInit_of_not_init hu]
  · rw [guardInit_of_init hu, guardInit_of_init hu]

theorem guardUse_eq_of_live {u : UnitId} {s : State} {a b : Result}
    (h : initFlag u s.core = true → guardUse u s a = b) : guardUse u s a = guardUse u s b := by
  cases hu : initFlag u s.core
  · rw [guardUse_of_not_init hu, guardUse_of_not_init hu]
  · rw [h hu, guardUse_of_init hu]

theorem exec_rbInit_eq (n : Int) (s : State) : exec (.rbInit n) s =
    guardInit .rb0 s (checked (.rbInit n) s { s.core with rb0 := rbCreate n.toNat } .absent) := by
  rw [checked_of_not_belowFloor rfl]
  simp only [exec, execRbInit, invalidCause, fits_eq_not_exceeds, Bool.not_eq_false', Bool.or_eq_true, decide_eq_true_eq,
    raise_eq, commit_eq]

theorem exec_lfoInitOf_eq (w : Waveform) (fref fs : NUM) (s : State) : exec (lfoInitOf w fref fs) s =
    guardInit .lfo0 s (checked (lfoInitOf w fref fs) s
      { s.core with lfo0 := lfoInit s.params.numerics w fref fs } .absent) := by
  rw [exec_lfoInitOf, checked_of_not_belowFloor (by cases w <;> rfl)]
  cases w <;>
    simp only [lfoInitCommand, lfoInitOf, invalidCause, fits_eq_not_exceeds, Bool.not_eq_false', Bool.or_eq_true, ite_or,
      raise_eq, commit_eq]

section single
variable {i : Instr} {s : State} (hfloor : belowFloor i s = false)
include hfloor

/-- A command whose only argument check is a test that refuses. -/
theorem ite_raise_eq_checked {p : Prop} [Decidable p] (hcause : invalidCause i s = decide p) (c : CoreState) (v : Value) :
    (if p then raise .invalidArguments s else commit c v s) = checked i s c v := by
  rw [checked_of_not_belowFloor hfloor, hcause]
  simp only [decide_eq_true_eq, raise_eq, commit_eq]

/-- A command whose only argument check is a test that accepts. -/
theorem ite_commit_eq_checked {ok : Bool} (hcause : invalidCause i s = !ok) (c : CoreState) (v : Value) :
    (if ok then commit c v s else raise .invalidArguments s) = checked i s c v := by
  rw [checked_of_not_belowFloor hfloor, hcause]
  cases ok <;> rfl

end single

theorem invalidCause_cfProcess (n : Int) (s : State) : invalidCause (.cfProcess n) s = !frameCountOk n s := by
  rw [invalidCause, frameCountOk, ← decide_not, decide_eq_decide]
  omega

theorem invalidCause_vibProcess (n : Int) (s : State) : invalidCause (.vibProcess n) s = !frameCountOk n s :=
  invalidCause_cfProcess n s

theorem invalidCause_ioRdout (ch n : Nat) (s : State) : invalidCause (.ioRdout ch n) s = !ioInRange ch n s := by
  rw [invalidCause, ioInRange, ← decide_not, decide_eq_decide]
  omega

theorem invalidCause_ioWrin (ch n : Nat) (x : NUM) (s : State) :
    invalidCause (.ioWrin ch n x) s = !ioInRange ch n s := invalidCause_ioRdout ch n s

/-! ### Every command is its front-end check, then its argument checks (R213, R215) -/

/-- Which front-end check of R213 the command `i` makes, before the argument checks: none, where it has no unit; that of an
`INIT`; that of a parameter `GET`, which has no other check; that of every other command of a unit. -/
inductive Guarded (i : Instr) (s : State) : Prop
  | free (c : CoreState) (v : Value) (hu : unitOf i = none) (he : exec i s = checked i s c v)
  | init (u : UnitId) (c : CoreState) (v : Value) (hu : unitOf i = some u) (hi : isInit i = true) (hg : isGet i = false)
      (he : exec i s = guardInit u s (checked i s c v))
  | get (u : UnitId) (neutral v : Value) (hu : unitOf i = some u) (hi : isInit i = false) (hg : isGet i = true)
      (hzero : valueNum neutral = 0) (hok : argumentStatus i s = .ok) (he : exec i s = query u neutral v s)
  | use (u : UnitId) (c : CoreState) (v : Value) (hu : unitOf i = some u) (hi : isInit i = false) (hg : isGet i = false)
      (he : exec i s = guardUse u s (checked i s c v))

theorem exec_guarded (i : Instr) (s : State) : Guarded i s := by
  cases i with
  | sysNop => exact .free _ _ rfl rfl
  | ioWrin ch n x => exact .free _ _ rfl (ite_commit_eq_checked rfl (invalidCause_ioWrin ch n x s) _ _)
  | ioRdout ch n => exact .free _ _ rfl (ite_commit_eq_checked rfl (invalidCause_ioRdout ch n s) s.core _)
  | rbInit n => exact .init .rb0 _ _ rfl rfl rfl (exec_rbInit_eq n s)
  | lfoInitSine fref fs => exact .init .lfo0 _ _ rfl rfl rfl (exec_lfoInitOf_eq .sine fref fs s)
  | lfoInitSaw fref fs => exact .init .lfo0 _ _ rfl rfl rfl (exec_lfoInitOf_eq .saw fref fs s)
  | lfoInitPulse fref fs => exact .init .lfo0 _ _ rfl rfl rfl (exec_lfoInitOf_eq .pulse fref fs s)
  | cfInitFir => exact .init .cf _ _ rfl rfl rfl (guardInit_eq_of_cold (exec_cfInitOf_of_not_init (ft := .fir)))
  | cfInitIir => exact .init .cf _ _ rfl rfl rfl (guardInit_eq_of_cold (exec_cfInitOf_of_not_init (ft := .iir)))
  | vibInit => exact .init .vib _ _ rfl rfl rfl (guardInit_eq_of_cold exec_vibInit_of_not_init)
  | lfoGetamp | lfoGetfreq => exact .get .lfo0 _ _ rfl rfl rfl rfl rfl rfl
  | cfGetgain | cfGetdelay => exact .get .cf _ _ rfl rfl rfl rfl rfl rfl
  | vibGetdelay | vibGetfreq | vibGetblock => exact .get .vib _ _ rfl rfl rfl rfl rfl rfl
  | rbReset | rbPut | rbGetpi | rbGet | rbGetwidx => exact .use .rb0 _ _ rfl rfl rfl rfl
  | lfoResetKeep | lfoResetFree | lfoSetamp | lfoSetfreq | lfoGetvalue | lfoResetpos =>
    exact .use .lfo0 _ _ rfl rfl rfl rfl
  | cfReset | cfSetgain => exact .use .cf _ _ rfl rfl rfl rfl
  | cfSetdelay x =>
    exact .use .cf _ _ rfl rfl rfl (guardUse_eq_of_live fun hinit => exec_cfSetdelay_of_init hinit x)
  | cfProcess n =>
    exact .use .cf _ _ rfl rfl rfl <|
      congrArg (guardUse .cf s) (ite_commit_eq_checked rfl (invalidCause_cfProcess n s) _ _)
  | vibReset | vibSetfreq => exact .use .vib _ _ rfl rfl rfl rfl
  | vibSetdelay | vibSetblock =>
    exact .use .vib _ _ rfl rfl rfl (congrArg (guardUse .vib s) (ite_raise_eq_checked rfl rfl _ _))
  | vibProcess n =>
    exact .use .vib _ _ rfl rfl rfl <|
      congrArg (guardUse .vib s) (ite_commit_eq_checked rfl (invalidCause_vibProcess n s) _ _)

/-! ### The status of a command (R211) -/

section status
variable {i : Instr} {u : UnitId} (s : State)

theorem statusOf_free (hu : unitOf i = none) : statusOf i s = argumentStatus i s := by
  simp only [statusOf, hu]

theorem statusOf_init (hu : unitOf i = some u) (hi : isInit i = true) :
    statusOf i s = if initFlag u s.core then .illegalCall else argumentStatus i s := by
  simp only [statusOf, hu, hi, if_true]

theorem statusOf_get (hu : unitOf i = some u) (hi : isInit i = false) (hg : isGet i = true)
    (hok : argumentStatus i s = .ok) : statusOf i s = .ok := by
  simp only [statusOf, hu, hi, hg, hok, Bool.false_eq_true, if_true, if_false, ite_self]

theorem statusOf_use (hu : unitOf i = some u) (hi : isInit i = false) (hg : isGet i = false) :
    statusOf i s = if initFlag u s.core then argumentStatus i s else .notInitialized := by
  simp only [statusOf, hu, hi, hg, Bool.false_eq_true, if_false]

end status

theorem exec_hasStatus (i : Instr) (s : State) : HasStatus s (exec i s) (statusOf i s) := by
  cases exec_guarded i s with
  | free c v hu he =>
    rw [he, statusOf_free s hu]
    exact hasStatus_checked i s c v
  | init u c v hu hi hg he =>
    rw [he, statusOf_init s hu hi]
    exact hasStatus_guardInit u (hasStatus_checked i s c v)
  | get u neutral v hu hi hg hzero hok he =>
    rw [he, statusOf_get s hu hi hg hok]
    exact hasStatus_query u neutral v s
  | use u c v hu hi hg he =>
    rw [he, statusOf_use s hu hi hg]
    exact hasStatus_guardUse u (hasStatus_checked i s c v)

/-- Settles O13: each front-end check has the status R213 gives it, and `checked` that of the argument checks. -/
theorem statusesAreExact : Obligations.StatusesAreExact := by
  unfold Obligations.StatusesAreExact
  refine ⟨fun s h rest hrst hp hd => ?_, exec_hasStatus⟩
  exact ⟨_, step_of_reserved hrst (hp ▸ decode_of_reserved rest hd), rfl⟩

/-! ### The front-end check (R213) -/

/-- A command of no unit has no frequency to test, so its arguments are in range or not and there is no third case. -/
theorem argumentStatus_of_free {i : Instr} (s : State) (hu : unitOf i = none) :
    argumentStatus i s = .ok ∨ argumentStatus i s = .invalidArguments := by
  have hfloor : belowFloor i s = false := by
    cases i with
    | lfoSetfreq | vibSetfreq => simp [unitOf] at hu
    | _ => rfl
  unfold argumentStatus
  rw [hfloor]
  cases invalidCause i s
  · exact .inl rfl
  · exact .inr rfl

theorem exec_ne_failed_of_free {i : Instr} {s : State} (hu : unitOf i = none) {e : Status} (hok : e ≠ .ok)
    (harg : e ≠ .invalidArguments) : exec i s ≠ .next (s.failed e) := by
  intro he
  have hstatus := exec_hasStatus i s
  rw [he, statusOf_free s hu] at hstatus
  obtain h | h := argumentStatus_of_free s hu
  · exact hok (hstatus.eq_of_failed.symm.trans h)
  · exact harg (hstatus.eq_of_failed.symm.trans h)

/-- Settles O12: the clauses of R213 are the front-end checks of `Guarded`, and no command makes two of them. -/
theorem frontEndCheck : Obligations.FrontEndCheck := by
  unfold Obligations.FrontEndCheck
  refine ⟨fun i s hu => ⟨exec_ne_failed_of_free hu (by decide) (by decide),
    exec_ne_failed_of_free hu (by decide) (by decide)⟩, fun i u s hu => ?_⟩
  cases exec_guarded i s with
  | free c v hu' => simp [hu'] at hu
  | init u' c v hu' hi hg he =>
    obtain rfl : u' = u := Option.some.inj (hu'.symm.trans hu)
    exact ⟨fun _ hinit => he.trans (guardInit_of_init hinit _), by simp [hg], by simp [hi]⟩
  | get u' neutral v hu' hi hg hzero hok he =>
    obtain rfl : u' = u := Option.some.inj (hu'.symm.trans hu)
    exact ⟨by simp [hi], fun _ hcold => ⟨neutral, hzero, he.trans (query_of_not_init hcold neutral v)⟩, by simp [hg]⟩
  | use u' c v hu' hi hg he =>
    obtain rfl : u' = u := Option.some.inj (hu'.symm.trans hu)
    exact ⟨by simp [hi], by simp [hg], fun _ _ hcold => he.trans (guardUse_of_not_init hcold _)⟩

end Sys2Proof.Machine

/-!
PROOFS. The statements of `70_reset_and_hazards.md`: power-on reset (R240 to R242), what a host sees straight after it, and a
program as the left fold of its commands (R262, R264). What a command does is the same whatever waits behind it on the
channel (`exec_consumed`), so a step of a sent program is the command, with the rest of the program left on the channel.
-/

namespace Sys2Proof.Machine

/-! ### A command does not look at the channel (R13, R262) -/

/-- The outcome `r` with nothing received and `rest` left on the channel. -/
def consumedResult (rest : List Slot) : Result → Result
  | .next t => .next (t.consumed rest)
  | .fault r => .fault r
  | .refused r => .refused r

/-- A test with the same answer in both states, each branch of which carries `rest` along. -/
theorem ite_consumed {p : Prop} [Decidable p] {rest : List Slot} {a b a' b' : Result} (ha : a' = consumedResult rest a)
    (hb : b' = consumedResult rest b) : (if p then a' else b') = consumedResult rest (if p then a else b) := by
  split <;> assumption

/-- A command is a row of tests of the parameters and the core, then one answer; the cases are grouped by how many tests
there are, the front-end check included. -/
theorem exec_consumed (i : Instr) (s : State) (rest : List Slot) :
    exec i (s.consumed rest) = consumedResult rest (exec i s) := by
  cases i with
  | sysNop | lfoGetamp | lfoGetfreq | cfGetgain | cfGetdelay | vibGetdelay | vibGetfreq | vibGetblock => rfl
  | rbReset | rbPut | rbGetpi | rbGet | rbGetwidx | lfoResetKeep | lfoResetFree | lfoSetamp | lfoGetvalue | lfoResetpos
  | cfReset | cfSetgain | vibReset | ioWrin | ioRdout => exact ite_consumed rfl rfl
  | rbInit => exact ite_consumed rfl (ite_consumed rfl rfl)
  | lfoSetfreq | cfProcess | vibSetdelay | vibSetfreq | vibSetblock | vibProcess =>
    exact ite_consumed (ite_consumed rfl rfl) rfl
  | lfoInitSine | lfoInitSaw | lfoInitPulse => exact ite_consumed rfl (ite_consumed rfl (ite_consumed rfl rfl))
  | cfSetdelay => exact ite_consumed (ite_consumed rfl (ite_consumed rfl rfl)) rfl
  | cfInitFir | cfInitIir =>
    exact ite_consumed rfl (ite_consumed rfl (ite_consumed rfl (ite_consumed rfl rfl)))
  | vibInit =>
    exact ite_consumed rfl <| ite_consumed rfl <| ite_consumed rfl <| ite_consumed rfl <| ite_consumed rfl <|
      ite_consumed rfl <| ite_consumed rfl rfl

/-! ### A program on the channel (R262, R264) -/

section program
variable {s t : State}

theorem send_of_idle (hrx : s.rx = []) (hcmd : s.cmd = []) (slots : List Slot) : s.send slots = s.consumed slots := by
  simp [State.send, State.consumed, hrx, hcmd]

theorem pending_of_idle (hrx : s.rx = []) (hcmd : s.cmd = []) : s.pending = [] := by
  simp [State.pending, hrx, hcmd]

/-- The first step of a sent program runs its first command; it leaves the state that the command leaves, with the rest of
the program sent to it. -/
theorem step_sendProgram_cons (hrst : s.rst = false) (hrx : s.rx = []) (hcmd : s.cmd = []) {i : Instr}
    (hwf : WellFormed i) (hexec : exec i s = .next t) (program : List Instr) :
    step (s.sendProgram (i :: program)) = .next (t.sendProgram program) := by
  have hd : decode (s.sendProgram (i :: program)).pending = .command i (program.flatMap encode) := by
    rw [State.sendProgram, send_pending, pending_of_idle hrx hcmd, List.nil_append, List.flatMap_cons]
    exact decodeEncodeAgree i _ hwf
  obtain ⟨-, -, -, -, -, -, -, -, htrx, htcmd, -⟩ := onlyItsOwnUnit i s t hexec
  calc step (s.sendProgram (i :: program))
    _ = exec i (s.consumed (program.flatMap encode)) := step_of_command (s := s.sendProgram (i :: program)) hrst hd
    _ = .next (t.consumed (program.flatMap encode)) := by rw [exec_consumed, hexec, consumedResult]
    _ = .next (t.sendProgram program) := by
      rw [State.sendProgram, send_of_idle (htrx.trans hrx) (htcmd.trans hcmd)]

theorem run_succ_of_step (h : step s = .next t) (n : Nat) : Host.Core.run core (n + 1) s = Host.Core.run core n t := by
  simp only [Host.Core.run, show core.step s = .next t from h]

/-- Each command adds its one response; the state it leaves has an idle channel again, which holds what is left of the
program. -/
theorem run_sendProgram (program : List Instr) (hwf : ∀ i ∈ program, WellFormed i) (hrst : s.rst = false)
    (hrx : s.rx = []) (hcmd : s.cmd = []) :
    ∃ t rs, runProgram program s = .next t ∧ t.rsp = s.rsp ++ rs ∧ rs.length = program.length ∧
      Host.Core.run core program.length (s.sendProgram program) = .next t := by
  induction program generalizing s with
  | nil => exact ⟨s, [], rfl, by simp, rfl, by simp [Host.Core.run, State.sendProgram, State.send]⟩
  | cons i program ih =>
    obtain ⟨hi, hprogram⟩ := List.forall_mem_cons.mp hwf
    obtain ⟨c, q, hexec, -⟩ := exec_answered i s
    obtain ⟨t, rs, hrun, hrsp, hlen, hsteps⟩ :=
      ih (s := { s with core := c, rsp := s.rsp ++ [q] }) hprogram hrst hrx hcmd
    refine ⟨t, q :: rs, (runProgram_cons hexec program).trans hrun, by simp [hrsp], by simp [hlen], ?_⟩
    exact (run_succ_of_step (step_sendProgram_cons hrst hrx hcmd hi hexec program) _).trans hsteps

end program

/-- Settles O10. -/
theorem programRunIsLeftFold : Obligations.ProgramRunIsLeftFold := by
  unfold Obligations.ProgramRunIsLeftFold
  exact fun program _ hwf hrst hrx hcmd => run_sendProgram program hwf hrst hrx hcmd

/-! ### Straight after reset (R242) -/

/-- A command ends in one state, with one response. -/
theorem exec_response_unique {i : Instr} {s t t' : State} {q q' : Response} (ht : exec i s = .next t)
    (hq : t.rsp = s.rsp ++ [q]) (ht' : exec i s = .next t') (hq' : t'.rsp = s.rsp ++ [q']) : t = t' ∧ q = q' := by
  obtain rfl := Host.Outcome.next.inj (ht.symm.trans ht')
  exact ⟨rfl, List.singleton_inj.mp (List.append_cancel_left (hq.symm.trans hq'))⟩

section cold
variable {i : Instr} {s : State}

theorem initFlag_reset (u : UnitId) : initFlag u CoreState.reset = false := by
  cases u <;> rfl

theorem unitOf_of_isGet (hg : isGet i = true) : ∃ u, unitOf i = some u := by
  cases i with
  | lfoGetamp | lfoGetfreq | cfGetgain | cfGetdelay | vibGetdelay | vibGetfreq | vibGetblock => exact ⟨_, rfl⟩
  | _ => simp [isGet] at hg

variable (hcold : ∀ u, initFlag u s.core = false)
include hcold

/-- An `INIT` on an uninitialised unit, with none of its causes of R211, ends `Ok` with no value. -/
theorem exec_init_of_legal (hi : isInit i = true) (hlegal : invalidCause i s = false) :
    ∃ c, exec i s = .next (s.done c .absent) := by
  have hguard (u : UnitId) (c : CoreState) (hfloor : belowFloor i s = false) :
      guardInit u s (checked i s c .absent) = .next (s.done c .absent) := by
    rw [guardInit_of_not_init (hcold u), checked_of_not_belowFloor hfloor, if_neg (ne_true_of_eq_false hlegal)]
  have hrefused : ¬ invalidCause i s = true := ne_true_of_eq_false hlegal
  cases i with
  | rbInit n => exact ⟨_, (exec_rbInit_eq n s).trans (hguard _ _ rfl)⟩
  | lfoInitSine fref fs => exact ⟨_, (exec_lfoInitOf_eq .sine fref fs s).trans (hguard _ _ rfl)⟩
  | lfoInitSaw fref fs => exact ⟨_, (exec_lfoInitOf_eq .saw fref fs s).trans (hguard _ _ rfl)⟩
  | lfoInitPulse fref fs => exact ⟨_, (exec_lfoInitOf_eq .pulse fref fs s).trans (hguard _ _ rfl)⟩
  | cfInitFir => exact ⟨_, (exec_cfInitOf_of_not_init (ft := .fir) (hcold .cf)).trans (if_neg hrefused)⟩
  | cfInitIir => exact ⟨_, (exec_cfInitOf_of_not_init (ft := .iir) (hcold .cf)).trans (if_neg hrefused)⟩
  | vibInit => exact ⟨_, (exec_vibInit_of_not_init (hcold .vib)).trans (if_neg hrefused)⟩
  | _ => simp [isInit] at hi

end cold

/-- Settles O9: the front-end check of R213 answers the `GET`s and refuses the others; `exec_init_of_legal` is the case of an
`INIT`. -/
theorem resetIsObservable : Obligations.ResetIsObservable := by
  unfold Obligations.ResetIsObservable
  intro i s hreset
  have hcold (u : UnitId) : initFlag u s.core = false := hreset ▸ initFlag_reset u
  obtain ⟨t, q, ht, hq, -⟩ := exec_hasStatus i s
  refine ⟨t, q, ht, hq, fun hg => ?get, fun c n hrdout hc hn => ?rdout, fun hunit hi hg => ?use, fun hi hlegal => ?init⟩
  case get =>
    obtain ⟨u, hu⟩ := unitOf_of_isGet hg
    obtain ⟨-, hget, -⟩ := frontEndCheck.2 i u s hu
    obtain ⟨v, hv, hexec⟩ := hget hg (hcold u)
    obtain ⟨rfl, rfl⟩ := exec_response_unique ht hq hexec rfl
    exact ⟨rfl, hv, rfl⟩
  case rdout =>
    subst hrdout
    have hexec := exec_ioRdout_of_inside ((ioInRange_iff c n s).mpr ⟨hc, hn⟩)
    rw [hreset] at hexec
    exact (exec_response_unique ht hq hexec rfl).2
  case use =>
    obtain ⟨u, hu⟩ := Option.isSome_iff_exists.mp hunit
    obtain ⟨-, -, huse⟩ := frontEndCheck.2 i u s hu
    exact (exec_response_unique ht hq (huse hi hg (hcold u)) rfl).2
  case init =>
    obtain ⟨c, hexec⟩ := exec_init_of_legal hcold hi hlegal
    exact (exec_response_unique ht hq hexec rfl).2

/-! ### Power-on reset (R240 to R242) -/

theorem step_of_rst {s : State} (hrst : s.rst = true) : step s = .next (powerOnReset s) := if_pos hrst

/-- Settles O8. (`powerOnReset` is the model's name for the state that is taken.) -/
theorem powerOnReset_elementwise : Obligations.PowerOnReset := by
  unfold Obligations.PowerOnReset
  exact fun s hrst => ⟨powerOnReset s, step_of_rst hrst, rfl, rfl, rfl, rfl, rfl, rfl, rfl, fun _ _ => rfl, fun _ _ => rfl⟩

theorem validParams_reference : ValidParams Params.reference := by decide

theorem coreInv_reset (p : Params) : CoreInv p CoreState.reset :=
  ⟨rbInv_reset p, lfoInv_reset p, cfInv_reset p, vibInv_reset p, ⟨rfl, rfl⟩, ⟨rfl, rfl⟩⟩

/-- Settles O60: no unit is initialised and no memory has an element, so no parameter matters. -/
theorem resetIsLegal : Obligations.ResetIsLegal := by
  unfold Obligations.ResetIsLegal
  exact ⟨⟨validParams_reference, coreInv_reset _⟩, fun p hp => ⟨hp, coreInv_reset p⟩⟩

end Sys2Proof.Machine
